-- ==== Sys2Proof/Word.lean ====
section
/-!
DEFINITION. The three data shapes the spec speaks of: the byte (R9), the 48-bit command word (R100) and the buffer,
a finite list of bytes (R11).
-/

namespace Sys2Proof

/-- A byte is 8 bits (R9). -/
abbrev Byte := BitVec 8

/-- A command word is 48 bits, bit 47 the most significant (R10, R100). -/
abbrev Word := BitVec 48

/-- A buffer is a finite list of bytes; `B[i]` is its byte at index `i`, counted from 0 (R11). -/
abbrev Buffer := List Byte

end Sys2Proof
end

