-- ==== Sys2Proof/Config.lean ====
section
/-!
DEFINITION. What a launch of the block fixes: the four parameters of R6 and their defaults, the three Byte Source
implementations of R59, and the constants of R8. No value is left free: the spec gives every rule a definite result for
every value of the parameters (spec/93, the sentence after U21).
-/

namespace Sys2Proof.Config

/-- `EPB_THIRD_ZERO` (R6, R163): what the removal scan does on a further zero byte in `TwoZerosSeen`. -/
inductive ThirdZero where
  | stayTwo
  | toOne
  | toCopy
deriving DecidableEq, Repr

/-- The parameters of R6. A limit of `none` is the spec's infinity. No command changes a parameter; the model carries them
in `State` so that one claim speaks of every launch (log 3, DESIGN CHOICE). -/
structure Params where
  /-- `SRC_BYTES`: the content of the byte stream. -/
  srcBytes : Buffer
  /-- `REWIND_WINDOW`: the guaranteed look-behind window. -/
  rewindWindow : Option Nat
  /-- `EPB_THIRD_ZERO`. -/
  thirdZero : ThirdZero
  /-- `BUF_CAP`: the capacity of each buffer in bytes. -/
  bufCap : Option Nat
deriving DecidableEq, Repr

/-- `MIN_WINDOW` (R8). -/
def minWindow : Nat := 4
/-- The least `BUF_CAP` (R6). -/
def minCap : Nat := 8
/-- `MAX_FIELD` (R8): the widest field of `READ_BITS` and `WRITE_BITS`. -/
def maxField : Nat := 32
/-- `NAL_HDR_LEN` (R8). -/
def nalHdrLen : Nat := 2
/-- `SC_MIN_ZEROS` (R8). -/
def scMinZeros : Nat := 2
/-- `SC_TERM` (R8). -/
def scTerm : Byte := 0x01
/-- `EPB` (R8): the emulation-prevention byte. -/
def epb : Byte := 0x03
/-- `EPB_LIMIT` (R8): the insertion threshold. -/
def epbLimit : Byte := 0x03
/-- `LP_LEN` (R8): bytes of the length prefix. -/
def lpLen : Nat := 4

/-- The defaults of R6, with the byte stream given: R6 has no default for it. -/
def Params.withStream (bytes : Buffer) : Params :=
  { srcBytes := bytes, rewindWindow := none, thirdZero := .stayTwo, bufCap := none }

/-- The constraints of R6: a finite window is at least 4 and a finite capacity at least 8. -/
abbrev Params.Valid (p : Params) : Prop :=
  (∀ w, p.rewindWindow = some w → minWindow ≤ w) ∧ (∀ c, p.bufCap = some c → minCap ≤ c)

/-- The three Byte Source implementations of R59. -/
inductive ByteSource where
  /-- A buffered sequential reader that keeps the last 4 bytes. -/
  | buffered (bytes : Buffer)
  /-- A memory reader with full rewind. -/
  | memory (bytes : Buffer)
  /-- A segmented reader; its window is what segment retention guarantees. -/
  | segmented (segments : List Buffer) (window : Nat)
deriving DecidableEq, Repr

/-- What the block sees of an implementation (R59): the stream and `REWIND_WINDOW`. The seams between segments are
invisible. -/
def ByteSource.params : ByteSource → Params
  | .buffered bytes => { Params.withStream bytes with rewindWindow := some minWindow }
  | .memory bytes => Params.withStream bytes
  | .segmented segments window => { Params.withStream segments.flatten with rewindWindow := some window }

end Sys2Proof.Config
end

