-- ==== Sys2Proof/Syntax.lean ====
section
/-!
DEFINITION. The commands, one constructor per row of the opcode table (R102), with operands as R103 and R104 give them.
-/

namespace Sys2Proof

/-- The five buffers (R22). -/
inductive BufId where
  | nal
  | rbsp
  | bs
  | x
  | cur
deriving DecidableEq, Repr

/-- The eleven registers (R27). -/
inductive RegId where
  | err
  | res
  | bcMode
  | bcByteOff
  | bcBitOff
  | bcLen
  | bcPos
  | dmNalType
  | dmScLen
  | dmFlags
  | trScLen
deriving DecidableEq, Repr

/-- The cursor's mode, register `BC_MODE` (R30, R120): `rd` is 0, `wr` is 1. -/
inductive CursorMode where
  | rd
  | wr
deriving DecidableEq, Repr

/-- The `sc` operand of `TO_BS` (R103): no start code, `00 00 01`, or `00 00 00 01`. -/
inductive ScForm where
  | noSc
  | sc3
  | sc4
deriving DecidableEq, Repr

/-- One command. -/
inductive Instr where
  /-- `RESET` (R211). -/
  | reset
  /-- `RD_REG r` (R212). -/
  | rdReg (r : RegId)
  /-- `XB_CLR` (R213). -/
  | xbClr
  /-- `XB_PUSH b` (R214). -/
  | xbPush (b : Byte)
  /-- `BUF_LEN src` (R215). -/
  | bufLen (src : BufId)
  /-- `BUF_RD src, i` (R216). -/
  | bufRd (src : BufId) (index : BitVec 32)
  /-- `NEXT_NAL` (R181). -/
  | nextNal
  /-- `TO_RBSP src, has_sc` (R161). -/
  | toRbsp (src : BufId) (hasSc : Bool)
  /-- `TO_BS src, sc` (R165). -/
  | toBs (src : BufId) (sc : ScForm)
  /-- `LP_WRAP src` (R168). -/
  | lpWrap (src : BufId)
  /-- `BC_LOAD src, mode` (R121). -/
  | bcLoad (src : BufId) (mode : CursorMode)
  /-- `READ_BITS n` (R122). -/
  | readBits (n : BitVec 8)
  /-- `READ_UE` (R123). -/
  | readUe
  /-- `READ_SE` (R124). -/
  | readSe
  /-- `GET_BYTE_OFF` (R125). -/
  | getByteOff
  /-- `GET_BIT_OFF` (R126). -/
  | getBitOff
  /-- `WRITE_BITS v, n` (R141). -/
  | writeBits (n : BitVec 8) (v : BitVec 32)
  /-- `WRITE_UE v` (R142). -/
  | writeUe (v : BitVec 32)
  /-- `WRITE_SE v` (R143). -/
  | writeSe (v : BitVec 32)
  /-- `WRITE_TRAIL` (R144). -/
  | writeTrail
deriving DecidableEq, Repr

end Sys2Proof
end

