-- ==== Sys2Proof/WellFormed.lean ====
section
/-!
DEFINITION. Which terms of `Instr` a legal command word can stand for (R102). A buffer id, a register and a start-code form
are legal by their types; the one check left is the bit count of `READ_BITS` and `WRITE_BITS`.
-/

namespace Sys2Proof

/-- A bit count is legal when it is at most `MAX_FIELD`, 32 (R102, R108). -/
def countOk (n : BitVec 8) : Bool := n.toNat ≤ Config.maxField

/-- The word-level constraints of R102 that the operand types leave to check. -/
def wellFormed : Instr → Bool
  | .reset => true
  | .rdReg _ => true
  | .xbClr => true
  | .xbPush _ => true
  | .bufLen _ => true
  | .bufRd _ _ => true
  | .nextNal => true
  | .toRbsp _ _ => true
  | .toBs _ _ => true
  | .lpWrap _ => true
  | .bcLoad _ _ => true
  | .readBits n => countOk n
  | .readUe => true
  | .readSe => true
  | .getByteOff => true
  | .getBitOff => true
  | .writeBits n _ => countOk n
  | .writeUe _ => true
  | .writeSe _ => true
  | .writeTrail => true

end Sys2Proof
end

