-- ==== Sys2Proof/Decode.lean ====
section
/-!
DEFINITION. The command word: its fields (R100), the opcode map with the mask and match of every row (R102), the operand
sub-fields (R103, R104), the decoder (R105, total on 48-bit words, refusing by name as R108 lists) and the encoder.
-/

namespace Sys2Proof

/-- The twenty opcodes of R102. -/
inductive Op where
  | reset | rdReg | xbClr | xbPush | bufLen | bufRd | nextNal | toRbsp | toBs | lpWrap
  | bcLoad | readBits | readUe | readSe | getByteOff | getBitOff | writeBits | writeUe | writeSe | writeTrail
deriving DecidableEq, Repr

/-- Why a word is illegal by the word alone (R108). Every reason has the same effect, `IllegalCommand`. -/
inductive Illegal where
  /-- `op` is none of the 20 of R102. -/
  | unknownOpcode
  /-- A must-be-zero field or sub-field is not zero. -/
  | mustBeZero
  /-- `RD_REG` names a number that is no register. -/
  | noSuchRegister
  /-- A buffer id is 5, 6 or 7. -/
  | noSuchBuffer
  /-- `TO_BS` has `sc = 3`. -/
  | noSuchStartCode
  /-- `READ_BITS` or `WRITE_BITS` has `n > 32`. -/
  | countTooLarge
deriving DecidableEq, Repr

/-- What the decoder answers: exactly one legal command, or illegal (R105). -/
inductive Decoded where
  | legal (i : Instr)
  | illegal (why : Illegal)
deriving DecidableEq, Repr

/-! ### Fields (R100) -/

/-- `op`, bits 47:40. -/
def opField (w : Word) : BitVec 8 := w.extractLsb' 40 8
/-- `n`, bits 39:32. -/
def nField (w : Word) : BitVec 8 := w.extractLsb' 32 8
/-- `v`, bits 31:0. -/
def vField (w : Word) : BitVec 32 := w.extractLsb' 0 32
/-- A word from its three fields, `op` in the high bits. -/
def joinFields (op n : BitVec 8) (v : BitVec 32) : Word := op ++ n ++ v

/-! ### The opcode map (R102) -/

/-- Column `op`. -/
def Op.code : Op → BitVec 8
  | .reset => 0x01
  | .rdReg => 0x02
  | .xbClr => 0x10
  | .xbPush => 0x11
  | .bufLen => 0x12
  | .bufRd => 0x13
  | .nextNal => 0x20
  | .toRbsp => 0x30
  | .toBs => 0x31
  | .lpWrap => 0x32
  | .bcLoad => 0x40
  | .readBits => 0x41
  | .readUe => 0x42
  | .readSe => 0x43
  | .getByteOff => 0x44
  | .getBitOff => 0x45
  | .writeBits => 0x50
  | .writeUe => 0x51
  | .writeSe => 0x52
  | .writeTrail => 0x53

/-- Column `match`. -/
def Op.pattern : Op → Word
  | .reset => 0x010000000000
  | .rdReg => 0x020000000000
  | .xbClr => 0x100000000000
  | .xbPush => 0x110000000000
  | .bufLen => 0x120000000000
  | .bufRd => 0x130000000000
  | .nextNal => 0x200000000000
  | .toRbsp => 0x300000000000
  | .toBs => 0x310000000000
  | .lpWrap => 0x320000000000
  | .bcLoad => 0x400000000000
  | .readBits => 0x410000000000
  | .readUe => 0x420000000000
  | .readSe => 0x430000000000
  | .getByteOff => 0x440000000000
  | .getBitOff => 0x450000000000
  | .writeBits => 0x500000000000
  | .writeUe => 0x510000000000
  | .writeSe => 0x520000000000
  | .writeTrail => 0x530000000000

/-- Column `mask`. -/
def Op.mask : Op → Word
  | .reset => 0xFFFFFFFFFFFF
  | .rdReg => 0xFF00FFFFFFFF
  | .xbClr => 0xFFFFFFFFFFFF
  | .xbPush => 0xFFFFFFFFFF00
  | .bufLen => 0xFFF8FFFFFFFF
  | .bufRd => 0xFFF800000000
  | .nextNal => 0xFFFFFFFFFFFF
  | .toRbsp => 0xFFE8FFFFFFFF
  | .toBs => 0xFFC8FFFFFFFF
  | .lpWrap => 0xFFF8FFFFFFFF
  | .bcLoad => 0xFFE8FFFFFFFF
  | .readBits => 0xFF00FFFFFFFF
  | .readUe => 0xFFFFFFFFFFFF
  | .readSe => 0xFFFFFFFFFFFF
  | .getByteOff => 0xFFFFFFFFFFFF
  | .getBitOff => 0xFFFFFFFFFFFF
  | .writeBits => 0xFF0000000000
  | .writeUe => 0xFFFF00000000
  | .writeSe => 0xFFFF00000000
  | .writeTrail => 0xFFFFFFFFFFFF

/-- The rows in the table's order. -/
def Op.all : List Op :=
  [.reset, .rdReg, .xbClr, .xbPush, .bufLen, .bufRd, .nextNal, .toRbsp, .toBs, .lpWrap,
   .bcLoad, .readBits, .readUe, .readSe, .getByteOff, .getBitOff, .writeBits, .writeUe, .writeSe, .writeTrail]

/-- The row of an opcode, when R102 has one. -/
def Op.ofCode (c : BitVec 8) : Option Op := Op.all.find? fun o => o.code == c

/-! ### Operand codes (R22, R27, R103) -/

/-- The 3-bit buffer id (R22). -/
def BufId.code : BufId → BitVec 3
  | .nal => 0
  | .rbsp => 1
  | .bs => 2
  | .x => 3
  | .cur => 4

/-- The buffer of an id; 5, 6 and 7 name none (R22). -/
def BufId.ofCode (c : BitVec 3) : Option BufId :=
  [BufId.nal, .rbsp, .bs, .x, .cur].find? fun b => b.code == c

/-- The register number (R27). -/
def RegId.number : RegId → BitVec 8
  | .err => 0x00
  | .res => 0x01
  | .bcMode => 0x10
  | .bcByteOff => 0x11
  | .bcBitOff => 0x12
  | .bcLen => 0x13
  | .bcPos => 0x14
  | .dmNalType => 0x20
  | .dmScLen => 0x21
  | .dmFlags => 0x22
  | .trScLen => 0x30

/-- The register of a number; a number not in R27 names none. -/
def RegId.ofNumber (c : BitVec 8) : Option RegId :=
  [RegId.err, .res, .bcMode, .bcByteOff, .bcBitOff, .bcLen, .bcPos, .dmNalType, .dmScLen, .dmFlags, .trScLen].find?
    fun r => r.number == c

/-- `n[4]` of `BC_LOAD` (R103). -/
def CursorMode.code : CursorMode → BitVec 1
  | .rd => 0
  | .wr => 1

/-- The mode of `n[4]`. -/
def CursorMode.ofCode (c : BitVec 1) : CursorMode := if c = 0 then .rd else .wr

/-- `n[5:4]` of `TO_BS` (R103). -/
def ScForm.code : ScForm → BitVec 2
  | .noSc => 0
  | .sc3 => 1
  | .sc4 => 2

/-- The form of `n[5:4]`; 3 is illegal (R103). -/
def ScForm.ofCode (c : BitVec 2) : Option ScForm := [ScForm.noSc, .sc3, .sc4].find? fun f => f.code == c

/-! ### Decoding (R105) -/

/-- The command of `make` on the buffer `n[2:0]`, illegal when the id names no buffer. -/
def decodeBuf (w : Word) (make : BufId → Decoded) : Decoded :=
  match BufId.ofCode ((nField w).extractLsb' 0 3) with
  | some src => make src
  | none => .illegal .noSuchBuffer

/-- The command of `make` on the bit count `n`, illegal above 32. -/
def decodeCount (w : Word) (make : BitVec 8 → Instr) : Decoded :=
  if countOk (nField w) then .legal (make (nField w)) else .illegal .countTooLarge

/-- The operands of a row (R103, R104) of a word that satisfies the row's mask. -/
def Op.operands (w : Word) : Op → Decoded
  | .reset => .legal .reset
  | .rdReg =>
    match RegId.ofNumber (nField w) with
    | some r => .legal (.rdReg r)
    | none => .illegal .noSuchRegister
  | .xbClr => .legal .xbClr
  | .xbPush => .legal (.xbPush ((vField w).extractLsb' 0 8))
  | .bufLen => decodeBuf w fun src => .legal (.bufLen src)
  | .bufRd => decodeBuf w fun src => .legal (.bufRd src (vField w))
  | .nextNal => .legal .nextNal
  | .toRbsp => decodeBuf w fun src => .legal (.toRbsp src ((nField w).getLsbD 4))
  | .toBs =>
    decodeBuf w fun src =>
      match ScForm.ofCode ((nField w).extractLsb' 4 2) with
      | some sc => .legal (.toBs src sc)
      | none => .illegal .noSuchStartCode
  | .lpWrap => decodeBuf w fun src => .legal (.lpWrap src)
  | .bcLoad => decodeBuf w fun src => .legal (.bcLoad src (.ofCode ((nField w).extractLsb' 4 1)))
  | .readBits => decodeCount w .readBits
  | .readUe => .legal .readUe
  | .readSe => .legal .readSe
  | .getByteOff => .legal .getByteOff
  | .getBitOff => .legal .getBitOff
  | .writeBits => decodeCount w fun n => .writeBits n (vField w)
  | .writeUe => .legal (.writeUe (vField w))
  | .writeSe => .legal (.writeSe (vField w))
  | .writeTrail => .legal .writeTrail

/-- The decoding procedure of R105: the opcode, then the row's mask, then the row's constraint on operands. -/
def decode (w : Word) : Decoded :=
  match Op.ofCode (opField w) with
  | none => .illegal .unknownOpcode
  | some o => if w &&& o.mask = o.pattern then o.operands w else .illegal .mustBeZero

/-! ### Encoding (R102 to R104) -/

/-- The row of a command. -/
def Instr.op : Instr → Op
  | .reset => .reset
  | .rdReg _ => .rdReg
  | .xbClr => .xbClr
  | .xbPush _ => .xbPush
  | .bufLen _ => .bufLen
  | .bufRd _ _ => .bufRd
  | .nextNal => .nextNal
  | .toRbsp _ _ => .toRbsp
  | .toBs _ _ => .toBs
  | .lpWrap _ => .lpWrap
  | .bcLoad _ _ => .bcLoad
  | .readBits _ => .readBits
  | .readUe => .readUe
  | .readSe => .readSe
  | .getByteOff => .getByteOff
  | .getBitOff => .getBitOff
  | .writeBits _ _ => .writeBits
  | .writeUe _ => .writeUe
  | .writeSe _ => .writeSe
  | .writeTrail => .writeTrail

/-- The field `n` with a buffer id in `n[2:0]`, `n[3] = 0`, and the 4 bits `high` in `n[7:4]`. -/
def bufOperand (high : BitVec 4) (src : BufId) : BitVec 8 := high ++ 0#1 ++ src.code

/-- The field `n` of a command (R103). -/
def Instr.nOperand : Instr → BitVec 8
  | .reset => 0
  | .rdReg r => r.number
  | .xbClr => 0
  | .xbPush _ => 0
  | .bufLen src => bufOperand 0 src
  | .bufRd src _ => bufOperand 0 src
  | .nextNal => 0
  | .toRbsp src hasSc => bufOperand (0#3 ++ BitVec.ofBool hasSc) src
  | .toBs src sc => bufOperand (0#2 ++ sc.code) src
  | .lpWrap src => bufOperand 0 src
  | .bcLoad src mode => bufOperand (0#3 ++ mode.code) src
  | .readBits n => n
  | .readUe => 0
  | .readSe => 0
  | .getByteOff => 0
  | .getBitOff => 0
  | .writeBits n _ => n
  | .writeUe _ => 0
  | .writeSe _ => 0
  | .writeTrail => 0

/-- The field `v` of a command (R104). -/
def Instr.vOperand : Instr → BitVec 32
  | .reset => 0
  | .rdReg _ => 0
  | .xbClr => 0
  | .xbPush b => 0#24 ++ b
  | .bufLen _ => 0
  | .bufRd _ index => index
  | .nextNal => 0
  | .toRbsp _ _ => 0
  | .toBs _ _ => 0
  | .lpWrap _ => 0
  | .bcLoad _ _ => 0
  | .readBits _ => 0
  | .readUe => 0
  | .readSe => 0
  | .getByteOff => 0
  | .getBitOff => 0
  | .writeBits _ v => v
  | .writeUe v => v
  | .writeSe v => v
  | .writeTrail => 0

/-- The word of a command. -/
def encode (i : Instr) : Word := joinFields i.op.code i.nOperand i.vOperand

/-- The command in a word given as a number of `nbits` bits, bit 0 the least significant, every bit from `nbits` up 0. A
command is one 48-bit word (R100), so a number of 2^48 or more is none. -/
def decodeTableWord (nbits w : Nat) : Option Instr :=
  if w % 2 ^ nbits < 2 ^ 48 then
    match decode (BitVec.ofNat 48 (w % 2 ^ nbits)) with
    | .legal i => some i
    | .illegal _ => none
  else none

end Sys2Proof
end

