-- ==== Sys2Proof/Machine/State.lean ====
section
/-!
DEFINITION. The state of the machine as plain data: everything R20 names, the Byte Source's position (R25), the launch
parameters (R6), and two fields of the model's own for the host's side (log 1, log 2); what a completion is (R231), the
fault kinds of the block (R232), and how the model itself can stop.
-/

namespace Sys2Proof.Machine

/-- The fault kinds of the block (R232). Raising one is an effect of the block, not a stop of the model: see `takeFault`. -/
inductive FaultKind where
  /-- Code 1: "read past available bits/bytes". -/
  | bufferUnderrun
  /-- Code 2: a rewind beyond the Byte Source's window. -/
  | rewindUnderflow
  /-- Code 3: a required sub-field is inconsistent with declared sizes. -/
  | malformedSyntax
  /-- Code 4: an illegal command word, a cursor command in the wrong mode, or an index out of range (R108). -/
  | illegalCommand
  /-- Code 5: a finite `BUF_CAP` would be exceeded (R236). -/
  | capacityExceeded
deriving DecidableEq, Repr

/-- A completion (R231): `OK` with its value (0 where the rule returns none), `FAULT(kind)` or `REFUSED`; the value of the
last two is 0. -/
inductive Completion where
  | ok (value : Nat)
  | fault (kind : FaultKind)
  | refused
deriving DecidableEq, Repr

/-- The machine. -/
structure State where
  /-- `B_NAL`, buffer 0 (R22). -/
  bNal : Buffer
  /-- `B_RBSP`, buffer 1 (R22). -/
  bRbsp : Buffer
  /-- `B_BS`, buffer 2 (R22). -/
  bBs : Buffer
  /-- `B_X`, buffer 3 (R22). -/
  bX : Buffer
  /-- `B_CUR`, buffer 4 (R22). -/
  bCur : Buffer
  /-- `bc_pos`, the stream bit index of the next bit (R24). -/
  bcPos : Nat
  /-- `bc_mode` (R30). -/
  bcMode : CursorMode
  /-- `RES` (R29). -/
  res : Nat
  /-- `ERR`, 4 bits, all of them `CODE` (R28). -/
  err : BitVec 4
  /-- `DM_NAL_TYPE`, 7 bits: `TYPE` in [5:0], `INVALID` in [6] (R31). -/
  dmNalType : BitVec 7
  /-- `DM_SC_LEN` (R31). -/
  dmScLen : Nat
  /-- `DM_FLAGS`, 3 bits: `EOS` [0], `RESYNC` [1], `TERM_SC` [2] (R31). -/
  dmFlags : BitVec 3
  /-- `TR_SC_LEN` (R32). -/
  trScLen : Nat
  /-- `src_pos`, the position of the Byte Source (R25). -/
  srcPos : Nat
  /-- The launch parameters (R6); no command writes them (log 3). -/
  params : Config.Params
  /-- The command words the host has still to issue, next one first. The model's own field, DESIGN CHOICE (log 1). -/
  commands : List Word
  /-- The completion handed over last (R231), `none` before the first. The model's own field, DESIGN CHOICE (log 2). -/
  completion : Option Completion
deriving DecidableEq, Repr

/-- How the model itself can stop. -/
inductive Fault where
  /-- A `NEXT_NAL` that never completes (R196, U1: `stuck`). Only `execNextNal` answers it, when a scan outlives its bound of
  one read for each unread byte. `SRC_BYTES` is a finite list, so no state leads to it. Safe: it claims no effect. -/
  | scanStuck
deriving DecidableEq, Repr

/-- What the model refuses. -/
inductive Refusal where
  /-- An instruction whose arm of `exec` has no meaning yet. Raised by no arm. Safe: it claims no effect. -/
  | notModelled (mnemonic : String)
deriving DecidableEq, Repr

/-- What a step or a command's meaning answers. -/
abbrev Result := Host.Outcome State Fault Refusal

/-- The machine at power-on with the given launch parameters (R37, R260): every field of the block at its reset value, a
new Byte Source at its first byte (R262), and a host that has issued nothing. -/
def State.launch (p : Config.Params) : State :=
  { bNal := []
    bRbsp := []
    bBs := []
    bX := []
    bCur := []
    bcPos := 0
    bcMode := .rd
    res := 0
    err := 0
    dmNalType := 0x40
    dmScLen := 0
    dmFlags := 0
    trScLen := 0
    srcPos := 0
    params := p
    commands := []
    completion := none }

/-- The machine right after reset, at the defaults of R6 and an empty stream (R6 gives `SRC_BYTES` no default: DESIGN CHOICE,
log 3). -/
def State.reset : State := State.launch (Config.Params.withStream [])

end Sys2Proof.Machine
end

