-- ==== Sys2Proof/Machine/Flags.lean ====
section
/-!
DEFINITION. The fields of the two packed demuxer registers, `DM_FLAGS` and `DM_NAL_TYPE` (R27, R31), and of the NAL unit
header from which the type is taken (R83, R84).
-/

namespace Sys2Proof.Machine

/-- `DM_FLAGS` from its three flags: `EOS` is bit 0, `RESYNC` bit 1, `TERM_SC` bit 2 (R31). -/
def packDmFlags (eos resync termSc : Bool) : BitVec 3 :=
  BitVec.ofBool termSc ++ BitVec.ofBool resync ++ BitVec.ofBool eos

/-- `DM_FLAGS.EOS`. -/
def State.eos (s : State) : Bool := s.dmFlags.getLsbD 0
/-- `DM_FLAGS.RESYNC`. -/
def State.resync (s : State) : Bool := s.dmFlags.getLsbD 1
/-- `DM_FLAGS.TERM_SC`. -/
def State.termSc (s : State) : Bool := s.dmFlags.getLsbD 2

/-- `DM_NAL_TYPE` when no NAL unit was delivered: `INVALID` is 1 and `TYPE` is 0 (R31). -/
def invalidNalType : BitVec 7 := 0x40

/-- `DM_NAL_TYPE.TYPE`. -/
def State.nalType (s : State) : BitVec 6 := s.dmNalType.extractLsb' 0 6
/-- `DM_NAL_TYPE.INVALID`. -/
def State.nalInvalid (s : State) : Bool := s.dmNalType.getLsbD 6

/-! ### The NAL unit header (R83). PRESUMED by the spec itself: the layout is its GK4 (log 12). -/

/-- `nal_unit_type` of the first header byte: `(h0 >> 1) & 0x3F` (R84). -/
def nalUnitType (h0 : Byte) : Byte := (h0 >>> 1) &&& 0x3F
/-- `forbidden_zero_bit`, `h0[7]`; the block does not check it (R83). -/
def forbiddenZeroBit (h0 : Byte) : Bool := h0.getLsbD 7
/-- `nuh_layer_id`: `h0[0]` then `h1[7:3]` (R83). -/
def nuhLayerId (h0 h1 : Byte) : BitVec 6 := h0.extractLsb' 0 1 ++ h1.extractLsb' 3 5
/-- `nuh_temporal_id_plus1`: `h1[2:0]` (R83). -/
def nuhTemporalIdPlus1 (h1 : Byte) : BitVec 3 := h1.extractLsb' 0 3

/-- `DM_NAL_TYPE` for a NAL unit: its type from its first byte, or `0x40` when it is empty (R181, R194). -/
def nalTypeOf : Buffer → BitVec 7
  | [] => invalidNalType
  | h0 :: _ => (nalUnitType h0).setWidth 7

end Sys2Proof.Machine
end

