-- ==== Sys2Proof/Machine/Operands.lean ====
section
/-!
DEFINITION. What an operand stands for: the content of a buffer id (R22), the value of a register number (R27, R212), the
bytes of a start-code form (R165), and a `v` field read as a signed number (R12, R13, R104).
-/

namespace Sys2Proof.Machine

/-- `buf(id)` (R12, R22). -/
def State.buf (s : State) : BufId → Buffer
  | .nal => s.bNal
  | .rbsp => s.bRbsp
  | .bs => s.bBs
  | .x => s.bX
  | .cur => s.bCur

/-- The value of the 1-bit register `BC_MODE` (R27). -/
def modeValue : CursorMode → Nat
  | .rd => 0
  | .wr => 1

/-- `BC_BYTE_OFF = bc_pos div 8` (R24, R125). -/
def State.byteOff (s : State) : Nat := s.bcPos / 8
/-- `BC_BIT_OFF = bc_pos mod 8` (R24, R126). -/
def State.bitOff (s : State) : Nat := s.bcPos % 8

/-- The value of a register (R27, R212). -/
def State.reg (s : State) : RegId → Nat
  | .err => s.err.toNat
  | .res => s.res
  | .bcMode => modeValue s.bcMode
  | .bcByteOff => s.byteOff
  | .bcBitOff => s.bitOff
  | .bcLen => s.bCur.length
  | .bcPos => s.bcPos
  | .dmNalType => s.dmNalType.toNat
  | .dmScLen => s.dmScLen
  | .dmFlags => s.dmFlags.toNat
  | .trScLen => s.trScLen

/-- The start code `TO_BS` puts in front (R165). -/
def startCodeBytes : ScForm → Buffer
  | .noSc => []
  | .sc3 => [0x00, 0x00, 0x01]
  | .sc4 => [0x00, 0x00, 0x00, 0x01]

/-- `sext_32(v)`: a 32-bit pattern as a two's complement integer (R12). -/
def sext32 (v : BitVec 32) : Int := v.toInt

end Sys2Proof.Machine
end

