-- ==== Sys2Proof/Machine/Ops.lean ====
section
/-!
DEFINITION. The operations every command is made of: how a command ends (R231), taking a fault (R233) and the way out of
the Faulted state (R211, R238), capacity (R23), the updates of the units' registers and buffers, the three calls of the
Byte Source (R56 to R58), and how the block gets its next command word (R15, R62).
-/

namespace Sys2Proof.Machine

/-! ### Fault kinds and the Faulted state -/

/-- The code of a kind in `ERR.CODE` (R232). -/
def FaultKind.code : FaultKind → BitVec 4
  | .bufferUnderrun => 1
  | .rewindUnderflow => 2
  | .malformedSyntax => 3
  | .illegalCommand => 4
  | .capacityExceeded => 5

/-- The block is Faulted exactly when `ERR.CODE` is not 0 (R234). -/
def State.isFaulted (s : State) : Bool := s.err != 0

/-- Hand over a completion (R231). -/
def State.complete (s : State) (c : Completion) : State := { s with completion := some c }

/-- Complete a command that returns no value: `OK` with value 0 (R231). -/
def State.finish (s : State) : State := s.complete (.ok 0)

/-- Complete a command that returns a value: `RES` takes it (R29). -/
def State.returnValue (s : State) (v : Nat) : State := { s with res := v }.complete (.ok v)

/-- Turn a command away in the Faulted state: nothing changes (R234). -/
def State.refuse (s : State) : State := s.complete .refused

/-- TAKING A FAULT (R233), the block's exception entry: `ERR.CODE` takes the kind's code and the completion is
`FAULT(kind)`; nothing is saved and control goes nowhere. `s` is the state before the command, so whatever the command's
pseudocode wrote is discarded; only `NEXT_NAL` passes a state whose `src_pos` has moved. -/
def takeFault (k : FaultKind) (s : State) : State := { s with err := k.code }.complete (.fault k)

/-- THE RETURN FROM THE FAULTED STATE, the effect of `RESET` (R211, R238): all block state at its reset value (R37), the Byte
Source untouched (R262). -/
def State.resetBlock (s : State) : State :=
  { s with
    bNal := []
    bRbsp := []
    bBs := []
    bX := []
    bCur := []
    bcPos := 0
    bcMode := .rd
    res := 0
    err := 0
    dmNalType := invalidNalType
    dmScLen := 0
    dmFlags := 0
    trScLen := 0 }

/-- Run a command's pseudocode, given as the state it completes with or the fault it raises: refused when the block is
Faulted (R234, R237 item 1), else completed or faulted, all or nothing (R233 item 1). -/
def runCommand (s : State) (body : Except FaultKind State) : Result :=
  if s.isFaulted then .next s.refuse
  else
    match body with
    | .ok t => .next t
    | .error k => .next (takeFault k s)

/-- An illegal word (R105, R108): `IllegalCommand`, or refused when the block is Faulted (R234). -/
def runIllegalWord (s : State) : Result := runCommand s (.error .illegalCommand)

/-! ### Limits (R6, R23, R58) -/

/-- Whether `n` bytes fit a capacity; `none` is infinity. -/
def withinLimit (cap : Option Nat) (n : Nat) : Bool :=
  match cap with
  | none => true
  | some c => n ≤ c

/-! ### Updates of the units -/

/-- Replace `B_X` (R213, R214). -/
def State.setBX (s : State) (data : Buffer) : State := { s with bX := data }

/-- Replace `B_BS` (R165, R168). -/
def State.setBBs (s : State) (data : Buffer) : State := { s with bBs := data }

/-- What `TO_RBSP` writes (R161). -/
def State.setRbsp (s : State) (data : Buffer) (scLen : Nat) : State := { s with bRbsp := data, trScLen := scLen }

/-- Attach the cursor to a copy of `data` (R121). -/
def State.attachCursor (s : State) (data : Buffer) (mode : CursorMode) : State :=
  { s with
    bCur := data
    bcMode := mode
    bcPos := match mode with
      | .rd => 0
      | .wr => 8 * data.length }

/-- Move the cursor (R25). -/
def State.moveCursor (s : State) (pos : Nat) : State := { s with bcPos := pos }

/-- Replace the cursor's buffer and position, as the write commands do (R141). -/
def State.setCursor (s : State) (data : Buffer) (pos : Nat) : State := { s with bCur := data, bcPos := pos }

/-- Move the Byte Source (R25). -/
def State.moveSource (s : State) (pos : Nat) : State := { s with srcPos := pos }

/-- The one atomic update of a `NEXT_NAL` that completes (R189); `eos` is the end test made at the end of the command. -/
def State.deliver (s : State) (nal : Buffer) (scLen : Nat) (eos resync termSc : Bool) : State :=
  { s with
    bNal := nal
    dmNalType := nalTypeOf nal
    dmScLen := scLen
    dmFlags := packDmFlags eos resync termSc }.returnValue (nalTypeOf nal).toNat

/-! ### The Byte Source's three calls -/

/-- `SRC.eof()` (R56): no unread byte remains. -/
def srcEof (p : Config.Params) (pos : Nat) : Bool := p.srcBytes.length ≤ pos

/-- `SRC.getNextByte()` (R57): the byte and the new position; past the end `0x00` and no movement. -/
def srcGetNextByte (p : Config.Params) (pos : Nat) : Byte × Nat :=
  match p.srcBytes[pos]? with
  | some b => (b, pos + 1)
  | none => (0x00, pos)

/-- `SRC.rewind(n)` (R58): the new position, or `none` when it fails and leaves the position as it was. -/
def srcRewind (p : Config.Params) (pos n : Nat) : Option Nat :=
  if withinLimit p.rewindWindow n && n ≤ pos then some (pos - n) else none

/-! ### The next command word -/

/-- The next command word the host issues, and the state in which the block runs it; `none` when the host has issued all
its commands (R15, R62; log 1). -/
def fetchCommand (s : State) : Option (Word × State) :=
  match s.commands with
  | [] => none
  | w :: rest => some (w, { s with commands := rest })

/-- The block between commands: it keeps all state (R250). -/
def State.idle (s : State) : State := s

end Sys2Proof.Machine
end

