-- ==== Sys2Proof/Machine/Buffers.lean ====
section
/-!
DEFINITION. The buffer commands `XB_CLR`, `XB_PUSH`, `BUF_LEN` and `BUF_RD` (R213 to R217).
-/

namespace Sys2Proof.Machine

/-- `XB_CLR` (R213). -/
def execXbClr (s : State) : Result := runCommand s (.ok (s.setBX []).finish)

/-- `XB_PUSH b` (R214). -/
def execXbPush (b : Byte) (s : State) : Result :=
  runCommand s
    (if withinLimit s.params.bufCap (s.bX.length + 1) then .ok (s.setBX (s.bX ++ [b])).finish
    else .error .capacityExceeded)

/-- `BUF_LEN src` (R215). -/
def execBufLen (src : BufId) (s : State) : Result := runCommand s (.ok (s.returnValue (s.buf src).length))

/-- `BUF_RD src, i` (R216): an index at or beyond the length is an illegal command. -/
def execBufRd (src : BufId) (index : BitVec 32) (s : State) : Result :=
  runCommand s
    (match (s.buf src)[index.toNat]? with
    | some b => .ok (s.returnValue b.toNat)
    | none => .error .illegalCommand)

end Sys2Proof.Machine
end

