-- ==== Sys2Proof/Machine/Bits.lean ====
section
/-!
DEFINITION. The bit level of the cursor: the bit order (R10, R11, R52; PRESUMED by the spec itself, GK1, log 7), fixed-width
fields (R89, R122), the Exp-Golomb codes (R90, R91, R123, R124; GK2 and GK3, log 7), and the append primitive of the write
side (R141).
-/

namespace Sys2Proof.Machine

/-! ### Reading -/

/-- `bit(B, p)` (R11): bit `7 - (p mod 8)` of byte `p div 8`. The spec defines it for `p < 8 · len(B)`, and every command asks
only there; elsewhere this answers 0 (log 9). -/
def bitAt (buf : Buffer) (p : Nat) : Bool := (buf.getD (p / 8) 0).getLsbD (7 - p % 8)

/-- The value of the `n` bits at `p`, first bit most significant (R52): the loop `val <- 2·val + bit(B, p + i)` of R122. -/
def readField (buf : Buffer) (p : Nat) : Nat → Nat
  | 0 => 0
  | n + 1 => 2 * readField buf p n + (bitAt buf (p + n)).toNat

/-- The largest prefix of an Exp-Golomb code word, in zeros (R90, R123; D19). -/
def maxPrefixZeros : Nat := 31

/-- The prefix scan of R123 from position `pos` with `lz` zeros read: the prefix length, or the fault the scan meets first.
The counter is how many more zeros may be read before the one that makes `lz` exceed 31, that one included: at 0 the 32nd
zero has just been read. The end-of-buffer test comes before each bit. -/
def scanPrefix (buf : Buffer) (pos : Nat) : Nat → Nat → Except FaultKind Nat
  | 0, _ => .error .malformedSyntax
  | left + 1, lz =>
    if pos + lz < 8 * buf.length then
      if bitAt buf (pos + lz) then .ok lz else scanPrefix buf pos left (lz + 1)
    else .error .bufferUnderrun

/-- Read one unsigned Exp-Golomb code word at `pos` (R123): its value and the position after it. -/
def readUeAt (buf : Buffer) (pos : Nat) : Except FaultKind (Nat × Nat) :=
  match scanPrefix buf pos (maxPrefixZeros + 1) 0 with
  | .error k => .error k
  | .ok lz =>
    if pos + 2 * lz + 1 ≤ 8 * buf.length then
      .ok (2 ^ lz - 1 + readField buf (pos + lz + 1) lz, pos + 2 * lz + 1)
    else .error .bufferUnderrun

/-- The signed value of the code number `k` (R91, R124): odd numbers are positive. -/
def signedOfCode (k : Nat) : Int := if k % 2 = 1 then ((k + 1) / 2 : Nat) else -((k / 2 : Nat) : Int)

/-- The 32-bit two's complement pattern of a signed result (R13, R124): `s mod 2^32`. -/
def pattern32 (z : Int) : Nat := (z % 2 ^ 32).toNat

/-! ### Writing -/

/-- The cursor in write mode: the bytes of `B_CUR` and the position `bc_pos`. -/
structure WriteCursor where
  buf : Buffer
  pos : Nat
deriving DecidableEq, Repr

/-- `append_bit(b)` (R141): on a byte boundary a new byte starts as all zeros, if `BUF_CAP` has room for it. -/
def appendBit (cap : Option Nat) (c : WriteCursor) (b : Bool) : Except FaultKind WriteCursor :=
  if c.pos % 8 = 0 && !withinLimit cap (c.buf.length + 1) then .error .capacityExceeded
  else
    let grown := if c.pos % 8 = 0 then c.buf ++ [0x00] else c.buf
    let written := if b then grown.modify (c.pos / 8) (· ||| ((0x01 : Byte) <<< (7 - c.pos % 8))) else grown
    .ok { buf := written, pos := c.pos + 1 }

/-- Append bits in order; a fault discards what was appended before it (R141, R233). -/
def appendBits (cap : Option Nat) (c : WriteCursor) : List Bool → Except FaultKind WriteCursor
  | [] => .ok c
  | b :: rest =>
    match appendBit cap c b with
    | .ok d => appendBits cap d rest
    | .error k => .error k

/-- The low `n` bits of `v`, most significant first (R141); bits `n` and above are ignored. -/
def fieldBits (v : Nat) : Nat → List Bool
  | 0 => []
  | n + 1 => v.testBit n :: fieldBits v n

/-- The largest value with an unsigned code word, `2^32 - 2` (R90, R142). -/
def maxUe : Nat := 2 ^ 32 - 2

/-- The unsigned Exp-Golomb code word of `k` (R90, R142): `lz` zeros, then the `lz + 1` binary digits of `k + 1`. -/
def ueBits (k : Nat) : List Bool :=
  let m := k + 1
  let lz := Nat.log2 m
  List.replicate lz false ++ fieldBits m (lz + 1)

/-- The code number of a signed value (R91, R143): `2·s - 1` for positive `s`, `-2·s` otherwise. -/
def codeOfSigned (z : Int) : Nat := if 0 < z then (2 * z - 1).toNat else (-2 * z).toNat

/-- `rbsp_trailing_bits` at position `p` (R87, R144): a 1, then zeros to the next byte boundary. -/
def trailingBits (p : Nat) : List Bool := true :: List.replicate (7 - p % 8) false

end Sys2Proof.Machine
end

