-- ==== Sys2Proof/Machine/CursorRead.lean ====
section
/-!
DEFINITION. The read side of the bit cursor and what attaches it: `BC_LOAD`, `READ_BITS`, `READ_UE`, `READ_SE`,
`GET_BYTE_OFF`, `GET_BIT_OFF` (R120 to R129).
-/

namespace Sys2Proof.Machine

/-- `BC_LOAD src, mode` (R121): the whole source is read before anything is written (R64). -/
def execBcLoad (src : BufId) (mode : CursorMode) (s : State) : Result :=
  runCommand s (.ok (s.attachCursor (s.buf src) mode).finish)

/-- `READ_BITS n` (R122). -/
def execReadBits (n : BitVec 8) (s : State) : Result :=
  runCommand s
    (if s.bcMode = .rd ∧ n.toNat ≤ Config.maxField then
      if s.bcPos + n.toNat ≤ 8 * s.bCur.length then
        .ok ((s.moveCursor (s.bcPos + n.toNat)).returnValue (readField s.bCur s.bcPos n.toNat))
      else .error .bufferUnderrun
    else .error .illegalCommand)

/-- Read one code word at the cursor and return `value` of its code number: the shared part of R123 and R124. -/
def readCodeWord (value : Nat → Nat) (s : State) : Result :=
  runCommand s
    (if s.bcMode = .rd then
      match readUeAt s.bCur s.bcPos with
      | .ok (k, pos) => .ok ((s.moveCursor pos).returnValue (value k))
      | .error f => .error f
    else .error .illegalCommand)

/-- `READ_UE` (R123). -/
def execReadUe (s : State) : Result := readCodeWord (fun k => k) s

/-- `READ_SE` (R124): the 32-bit pattern of the signed value. -/
def execReadSe (s : State) : Result := readCodeWord (fun k => pattern32 (signedOfCode k)) s

/-- `GET_BYTE_OFF` (R125), in both modes. -/
def execGetByteOff (s : State) : Result := runCommand s (.ok (s.returnValue s.byteOff))

/-- `GET_BIT_OFF` (R126), in both modes. -/
def execGetBitOff (s : State) : Result := runCommand s (.ok (s.returnValue s.bitOff))

end Sys2Proof.Machine
end

