-- ==== Sys2Proof/Machine/CursorWrite.lean ====
section
/-!
DEFINITION. The write side of the bit cursor: `WRITE_BITS`, `WRITE_UE`, `WRITE_SE`, `WRITE_TRAIL` (R140 to R149).
-/

namespace Sys2Proof.Machine

/-- Append bits at the cursor, all or nothing (R141, R233). -/
def writeAtCursor (s : State) (bits : List Bool) : Except FaultKind State :=
  match appendBits s.params.bufCap { buf := s.bCur, pos := s.bcPos } bits with
  | .ok c => .ok (s.setCursor c.buf c.pos).finish
  | .error k => .error k

/-- `WRITE_BITS v, n` (R141). -/
def execWriteBits (n : BitVec 8) (v : BitVec 32) (s : State) : Result :=
  runCommand s
    (if s.bcMode = .wr ∧ n.toNat ≤ Config.maxField then writeAtCursor s (fieldBits v.toNat n.toNat)
    else .error .illegalCommand)

/-- `WRITE_UE v` (R142): the range check comes before any capacity check (R237). -/
def execWriteUe (v : BitVec 32) (s : State) : Result :=
  runCommand s
    (if s.bcMode = .wr then
      if v.toNat ≤ maxUe then writeAtCursor s (ueBits v.toNat) else .error .malformedSyntax
    else .error .illegalCommand)

/-- `WRITE_SE v` (R143). -/
def execWriteSe (v : BitVec 32) (s : State) : Result :=
  runCommand s
    (if s.bcMode = .wr then
      if sext32 v ≠ -(2 ^ 31) then writeAtCursor s (ueBits (codeOfSigned (sext32 v))) else .error .malformedSyntax
    else .error .illegalCommand)

/-- `WRITE_TRAIL` (R144). -/
def execWriteTrail (s : State) : Result :=
  runCommand s
    (if s.bcMode = .wr then writeAtCursor s (trailingBits s.bcPos) else .error .illegalCommand)

end Sys2Proof.Machine
end

