-- ==== Sys2Proof/Machine/Demuxer.lean ====
section
/-!
DEFINITION. The NAL demuxer: the two scans of `NEXT_NAL` and the command itself (R180 to R199), written as R181's pseudocode
over the Byte Source's three calls. Each loop carries a bound, one turn for each unread byte and one more, which no loop
reaches because `SRC_BYTES` is finite (R195; log 5).
-/

namespace Sys2Proof.Machine

/-- How phase A ends: the source is at its end, or a start code of `scLen` bytes has been consumed. -/
inductive PhaseA where
  | ended (pos : Nat) (resync : Bool)
  | found (pos scLen : Nat) (resync : Bool)
  | stuck
deriving DecidableEq, Repr

/-- Phase A of R181: find and consume the start code in front of the NAL unit, `z` zeros having been counted. The end test
comes before every read (R182). -/
def findStartCode (p : Config.Params) : Nat → Nat → Nat → Bool → PhaseA
  | 0, _, _, _ => .stuck
  | bound + 1, pos, z, resync =>
    if srcEof p pos then .ended pos resync
    else
      match srcGetNextByte p pos with
      | (b, next) =>
        if b = 0x00 then findStartCode p bound next (z + 1) resync
        else if b = Config.scTerm ∧ Config.scMinZeros ≤ z then .found next (z + 1) resync
        else findStartCode p bound next 0 true

/-- How phase B ends: the source is at its end, or the next start code was met, the NAL unit trimmed and the source
rewound, or a fault was raised with the source at `pos`. -/
inductive PhaseB where
  | ended (pos : Nat) (nal : Buffer)
  | startCode (pos : Nat) (nal : Buffer)
  | faulted (pos : Nat) (kind : FaultKind)
  | stuck
deriving DecidableEq, Repr

/-- Phase B of R181: accumulate up to the next start code or the end of the source; `zeros` counts the zero bytes at the
end of `nal` (R186). On the next start code, trim the whole zero run and rewind by `zeros + 1` (R187, R188). -/
def accumulate (p : Config.Params) : Nat → Nat → Buffer → Nat → PhaseB
  | 0, _, _, _ => .stuck
  | bound + 1, pos, nal, zeros =>
    if srcEof p pos then .ended pos nal
    else
      match srcGetNextByte p pos with
      | (b, next) =>
        if b = Config.scTerm ∧ Config.scMinZeros ≤ zeros then
          match srcRewind p next (zeros + 1) with
          | some back => .startCode back (nal.take (nal.length - zeros))
          | none => .faulted next .rewindUnderflow
        else if withinLimit p.bufCap (nal.length + 1) then
          accumulate p bound next (nal ++ [b]) (if b = 0x00 then zeros + 1 else 0)
        else .faulted next .capacityExceeded

/-- How `NEXT_NAL` ends: with a NAL unit (possibly empty at the end of the source) behind a start code, with nothing left,
or in a fault. -/
inductive NalScan where
  | delivered (pos : Nat) (nal : Buffer) (scLen : Nat) (resync termSc : Bool)
  | nothing (pos : Nat) (resync : Bool)
  | faulted (pos : Nat) (kind : FaultKind)
  | stuck
deriving DecidableEq, Repr

/-- Turns enough for a scan from `pos`: one for each unread byte and one more. -/
def scanBound (p : Config.Params) (pos : Nat) : Nat := p.srcBytes.length - pos + 1

/-- The `repeat` of R181: phase A, phase B, and another round when an empty NAL unit was found between two start codes
(R190). -/
def nalRounds (p : Config.Params) : Nat → Nat → Bool → NalScan
  | 0, _, _ => .stuck
  | bound + 1, pos, resync =>
    match findStartCode p (scanBound p pos) pos 0 resync with
    | .stuck => .stuck
    | .ended posA resyncA => .nothing posA resyncA
    | .found posA scLen resyncA =>
      match accumulate p (scanBound p posA) posA [] 0 with
      | .stuck => .stuck
      | .faulted posB k => .faulted posB k
      | .ended posB nal => .delivered posB nal scLen resyncA false
      | .startCode posB nal =>
        if nal = [] then nalRounds p bound posB true else .delivered posB nal scLen resyncA true

/-- The scan of one `NEXT_NAL` from `pos`. -/
def scanNal (p : Config.Params) (pos : Nat) : NalScan := nalRounds p (scanBound p pos) pos false

/-- `NEXT_NAL` (R181). A fault leaves `src_pos` where the scan left it and changes nothing else of the block but `ERR`
(R233). -/
def execNextNal (s : State) : Result :=
  if s.isFaulted then .next s.refuse
  else
    match scanNal s.params s.srcPos with
    | .stuck => .fault .scanStuck
    | .faulted pos k => .next (takeFault k (s.moveSource pos))
    | .nothing pos resync => .next ((s.moveSource pos).deliver [] 0 true resync false)
    | .delivered pos nal scLen resync termSc =>
      .next ((s.moveSource pos).deliver nal scLen (srcEof s.params pos) resync termSc)

end Sys2Proof.Machine
end

