-- ==== Sys2Proof/Machine/System.lean ====
section
/-!
DEFINITION. The system commands `RESET` and `RD_REG` (R210 to R212), the two that a Faulted block executes (R234).
-/

namespace Sys2Proof.Machine

/-- `RESET` (R211): all block state at its reset value, the Byte Source untouched. Never refused (R234). -/
def execReset (s : State) : Result := .next s.resetBlock.finish

/-- `RD_REG r` (R212): returns the register's value; in the Faulted state in the completion only, `RES` keeping its value. -/
def execRdReg (r : RegId) (s : State) : Result :=
  if s.isFaulted then .next (s.complete (.ok (s.reg r))) else .next (s.returnValue (s.reg r))

end Sys2Proof.Machine
end

