-- ==== Sys2Proof/Machine/Transcoder.lean ====
section
/-!
DEFINITION. The transcoder and framer: the removal scan (R162, R163), the insertion scan (R166), the length prefix (R88),
and `TO_RBSP`, `TO_BS`, `LP_WRAP` (R160 to R172).
-/

namespace Sys2Proof.Machine

/-- The states of the removal scan (R162). -/
inductive ScanState where
  | copying
  | oneZeroSeen
  | twoZerosSeen
deriving DecidableEq, Repr

/-- The state after a third zero, by `EPB_THIRD_ZERO` (R163). -/
def thirdZeroState : Config.ThirdZero → ScanState
  | .stayTwo => .twoZerosSeen
  | .toOne => .oneZeroSeen
  | .toCopy => .copying

/-- One row of R162's table: the bytes put out for the input byte `b` and the next state. -/
def removalStep (tz : Config.ThirdZero) (st : ScanState) (b : Byte) : Buffer × ScanState :=
  match st with
  | .copying => if b = 0x00 then ([b], .oneZeroSeen) else ([b], .copying)
  | .oneZeroSeen => if b = 0x00 then ([b], .twoZerosSeen) else ([b], .copying)
  | .twoZerosSeen =>
    if b = Config.epb then ([], .copying)
    else if b = 0x00 then ([b], thirdZeroState tz)
    else ([b], .copying)

/-- The removal scan over a payload (R161, R162). -/
def removeEpb (tz : Config.ThirdZero) : ScanState → Buffer → Buffer
  | _, [] => []
  | st, b :: rest => (removalStep tz st b).1 ++ removeEpb tz (removalStep tz st b).2 rest

/-- One step of the insertion scan (R166): the bytes put out for `b` after `z` zeros, and the new zero count. -/
def insertionStep (z : Nat) (b : Byte) : Buffer × Nat :=
  if 2 ≤ z ∧ b ≤ Config.epbLimit then ([Config.epb, b], if b = 0x00 then 1 else 0)
  else ([b], if b = 0x00 then z + 1 else 0)

/-- The insertion scan over a payload (R165, R166). -/
def insertEpb : Nat → Buffer → Buffer
  | _, [] => []
  | z, b :: rest => (insertionStep z b).1 ++ insertEpb (insertionStep z b).2 rest

/-- The number of `00` bytes at the front (R161). -/
def leadingZeros : Buffer → Nat
  | [] => 0
  | b :: rest => if b = 0x00 then leadingZeros rest + 1 else 0

/-- What `TO_RBSP` strips in front (R161): the start code's length and the bytes after it; `none` when the declared start
code, two or more `00` and then `01`, is not there. -/
def stripStartCode (hasSc : Bool) (data : Buffer) : Option (Nat × Buffer) :=
  if hasSc then
    match data.drop (leadingZeros data) with
    | [] => none
    | b :: rest =>
      if b = Config.scTerm ∧ Config.scMinZeros ≤ leadingZeros data then some (leadingZeros data + 1, rest) else none
  else some (0, data)

/-- `toRBSP` on bytes without a start code: the header verbatim, then the removal scan from `Copying` (R161, D14). -/
def toRbspBytes (tz : Config.ThirdZero) : Buffer → Except FaultKind Buffer
  | h0 :: h1 :: payload => .ok (h0 :: h1 :: removeEpb tz .copying payload)
  | _ => .error .bufferUnderrun

/-- `TO_RBSP src, has_sc` (R161): the start-code check comes before the header check (R237). -/
def execToRbsp (src : BufId) (hasSc : Bool) (s : State) : Result :=
  runCommand s
    (match stripStartCode hasSc (s.buf src) with
    | none => .error .malformedSyntax
    | some (scLen, data) =>
      match toRbspBytes s.params.thirdZero data with
      | .ok out => .ok (s.setRbsp out scLen).finish
      | .error k => .error k)

/-- `toByteStream`: the start code, the header verbatim, then the insertion scan from a zero count of 0 (R165). -/
def toBsBytes (sc : ScForm) : Buffer → Except FaultKind Buffer
  | h0 :: h1 :: payload => .ok (startCodeBytes sc ++ h0 :: h1 :: insertEpb 0 payload)
  | _ => .error .bufferUnderrun

/-- Write `B_BS`, when `BUF_CAP` has room for it (R165, R168). -/
def writeBBs (s : State) (out : Buffer) : Except FaultKind State :=
  if withinLimit s.params.bufCap out.length then .ok (s.setBBs out).finish else .error .capacityExceeded

/-- `TO_BS src, sc` (R165). -/
def execToBs (src : BufId) (sc : ScForm) (s : State) : Result :=
  runCommand s
    (match toBsBytes sc (s.buf src) with
    | .ok out => writeBBs s out
    | .error k => .error k)

/-- `be32(L)` (R11, R51): four bytes, most significant first. -/
def be32 (len : Nat) : Buffer :=
  [BitVec.ofNat 8 (len >>> 24), BitVec.ofNat 8 (len >>> 16), BitVec.ofNat 8 (len >>> 8), BitVec.ofNat 8 len]

/-- `LP_WRAP src` (R168): the length check comes before the capacity check (R237). -/
def execLpWrap (src : BufId) (s : State) : Result :=
  runCommand s
    (if (s.buf src).length < 2 ^ 32 then writeBBs s (be32 (s.buf src).length ++ s.buf src)
    else .error .malformedSyntax)

end Sys2Proof.Machine
end

