-- ==== Sys2Proof/Machine/Dispatch.lean ====
section
/-!
DEFINITION. One arm per command, each one direct call of the command's meaning.
-/

namespace Sys2Proof.Machine

open Sys2Proof

/-- What the block does with a decoded command. -/
def exec (i : Instr) (s : State) : Host.Outcome State Fault Refusal :=
  match i with
  | .reset => Sys2Proof.Machine.execReset s
  | .rdReg r => Sys2Proof.Machine.execRdReg r s
  | .xbClr => Sys2Proof.Machine.execXbClr s
  | .xbPush b => Sys2Proof.Machine.execXbPush b s
  | .bufLen src => Sys2Proof.Machine.execBufLen src s
  | .bufRd src index => Sys2Proof.Machine.execBufRd src index s
  | .nextNal => Sys2Proof.Machine.execNextNal s
  | .toRbsp src hasSc => Sys2Proof.Machine.execToRbsp src hasSc s
  | .toBs src sc => Sys2Proof.Machine.execToBs src sc s
  | .lpWrap src => Sys2Proof.Machine.execLpWrap src s
  | .bcLoad src mode => Sys2Proof.Machine.execBcLoad src mode s
  | .readBits n => Sys2Proof.Machine.execReadBits n s
  | .readUe => Sys2Proof.Machine.execReadUe s
  | .readSe => Sys2Proof.Machine.execReadSe s
  | .getByteOff => Sys2Proof.Machine.execGetByteOff s
  | .getBitOff => Sys2Proof.Machine.execGetBitOff s
  | .writeBits n v => Sys2Proof.Machine.execWriteBits n v s
  | .writeUe v => Sys2Proof.Machine.execWriteUe v s
  | .writeSe v => Sys2Proof.Machine.execWriteSe v s
  | .writeTrail => Sys2Proof.Machine.execWriteTrail s

end Sys2Proof.Machine
end

