-- ==== Sys2Proof/Machine/Step.lean ====
section
/-!
DEFINITION. One step: the host issues its next command word and the block runs it to completion (R15, R62); with nothing
left to issue the block idles (R250).
-/

namespace Sys2Proof.Machine

/-- One step. A legal word runs its command; any other word is an illegal command (R105, R108). -/
def step (s : State) : Host.Outcome State Fault Refusal :=
  match fetchCommand s with
  | none => .next s.idle
  | some (w, t) =>
    match decode w with
    | .legal i => exec i t
    | .illegal _ => runIllegalWord t

/-- The state in which the word `w` is the next one the host issues (log 1). Nothing else changes. -/
def State.withFetchWord (s : State) (nbits w : Nat) : State :=
  { s with commands := BitVec.ofNat 48 (w % 2 ^ nbits) :: s.commands }

end Sys2Proof.Machine
end

