-- ==== Sys2Proof/Machine/Assembler.lean ====
section
/-!
DEFINITION. The notation around the commands: the assembler syntax (R110), the pseudo-instructions and their fixed
expansions (R111), programs as command sequences, and the informative names of the NAL unit types (R84, GK5; log 12). No
meaning of a command depends on this file.
-/

namespace Sys2Proof.Machine

/-! ### Assembler syntax (R110) -/

/-- A buffer's short name. -/
def bufName : BufId → String
  | .nal => "NAL"
  | .rbsp => "RBSP"
  | .bs => "BS"
  | .x => "X"
  | .cur => "CUR"

/-- A register's name (R27). -/
def regName : RegId → String
  | .err => "ERR"
  | .res => "RES"
  | .bcMode => "BC_MODE"
  | .bcByteOff => "BC_BYTE_OFF"
  | .bcBitOff => "BC_BIT_OFF"
  | .bcLen => "BC_LEN"
  | .bcPos => "BC_POS"
  | .dmNalType => "DM_NAL_TYPE"
  | .dmScLen => "DM_SC_LEN"
  | .dmFlags => "DM_FLAGS"
  | .trScLen => "TR_SC_LEN"

/-- The third operand word of `TO_BS`. -/
def scFormName : ScForm → String
  | .noSc => "none"
  | .sc3 => "sc3"
  | .sc4 => "sc4"

/-- The second operand word of `BC_LOAD`. -/
def modeName : CursorMode → String
  | .rd => "rd"
  | .wr => "wr"

/-- A command in assembler syntax, numbers in decimal. -/
def asmText : Instr → String
  | .reset => "RESET"
  | .rdReg r => "RD_REG " ++ regName r
  | .xbClr => "XB_CLR"
  | .xbPush b => "XB_PUSH " ++ toString b.toNat
  | .bufLen src => "BUF_LEN " ++ bufName src
  | .bufRd src index => "BUF_RD " ++ bufName src ++ ", " ++ toString index.toNat
  | .nextNal => "NEXT_NAL"
  | .toRbsp src hasSc => "TO_RBSP " ++ bufName src ++ (if hasSc then ", sc" else ", nosc")
  | .toBs src sc => "TO_BS " ++ bufName src ++ ", " ++ scFormName sc
  | .lpWrap src => "LP_WRAP " ++ bufName src
  | .bcLoad src mode => "BC_LOAD " ++ bufName src ++ ", " ++ modeName mode
  | .readBits n => "READ_BITS " ++ toString n.toNat
  | .readUe => "READ_UE"
  | .readSe => "READ_SE"
  | .getByteOff => "GET_BYTE_OFF"
  | .getBitOff => "GET_BIT_OFF"
  | .writeBits n v => "WRITE_BITS " ++ toString v.toNat ++ ", " ++ toString n.toNat
  | .writeUe v => "WRITE_UE " ++ toString v.toNat
  | .writeSe v => "WRITE_SE " ++ toString (sext32 v)
  | .writeTrail => "WRITE_TRAIL"

/-! ### Pseudo-instructions (R111) -/

/-- The pseudo-instructions. -/
inductive Pseudo where
  | readU (n : BitVec 8)
  | readFlag
  | skipNalHdr
  | readNalHdr
  | frameNext
  | xbSet (bytes : Buffer)
  | rewindCur
  | emitLp
  | getErr
deriving DecidableEq, Repr

/-- The fixed expansion of a pseudo-instruction. -/
def expandPseudo : Pseudo → List Instr
  | .readU n => [.readBits n]
  | .readFlag => [.readBits 1]
  | .skipNalHdr => [.readBits 16]
  | .readNalHdr => [.readBits 1, .readBits 6, .readBits 6, .readBits 3]
  | .frameNext => [.nextNal, .toRbsp .nal false, .bcLoad .rbsp .rd, .readBits 16]
  | .xbSet bytes => .xbClr :: bytes.map .xbPush
  | .rewindCur => [.bcLoad .cur .rd]
  | .emitLp => [.toBs .cur .noSc, .lpWrap .bs]
  | .getErr => [.rdReg .err]

/-! ### Programs -/

/-- A program is a sequence of commands issued in order (R110): the machine at power-on with the parameters `p` and a host
that issues the program's words. -/
def launchProgram (p : Config.Params) (program : List Instr) : State :=
  { State.launch p with commands := program.map encode }

/-! ### NAL unit type names (R84), informative -/

/-- The named types outside the reserved and unspecified ranges. -/
def nalTypeNames : List (Nat × String) :=
  [(0, "TRAIL_N"), (1, "TRAIL_R"), (2, "TSA_N"), (3, "TSA_R"), (4, "STSA_N"), (5, "STSA_R"), (6, "RADL_N"), (7, "RADL_R"),
   (8, "RASL_N"), (9, "RASL_R"), (16, "BLA_W_LP"), (17, "BLA_W_RADL"), (18, "BLA_N_LP"), (19, "IDR_W_RADL"),
   (20, "IDR_N_LP"), (21, "CRA_NUT"), (32, "VPS_NUT"), (33, "SPS_NUT"), (34, "PPS_NUT"), (35, "AUD_NUT"), (36, "EOS_NUT"),
   (37, "EOB_NUT"), (38, "FD_NUT"), (39, "PREFIX_SEI_NUT"), (40, "SUFFIX_SEI_NUT")]

/-- The name of a NAL unit type. The block gives it no meaning. -/
def nalTypeName (t : BitVec 6) : String :=
  match nalTypeNames.find? fun row => row.1 == t.toNat with
  | some row => row.2
  | none =>
    if t.toNat < 16 then (if t.toNat % 2 = 0 then "RSV_VCL_N" else "RSV_VCL_R") ++ toString t.toNat
    else if t.toNat < 24 then "RSV_IRAP_VCL" ++ toString t.toNat
    else if t.toNat < 32 then "RSV_VCL" ++ toString t.toNat
    else if t.toNat < 48 then "RSV_NVCL" ++ toString t.toNat
    else "UNSPEC" ++ toString t.toNat

/-- Types 0 to 31 are VCL (slice) types (R84). -/
def nalTypeIsVcl (t : BitVec 6) : Bool := t.toNat < 32

end Sys2Proof.Machine
end

