-- ==== Sys2Proof/Safety.lean ====
section
/-!
DEFINITION. The terms claims are stated in: the invariants of R38, what a safe answer is, running a sequence of commands,
and the spec's own notions that no command computes (the value of a field as a sum, R52; a code word, R90; canonical
payloads, R170; a stream built of NAL units, R197; matching reads, R147).
-/

namespace Sys2Proof.Machine

/-! ### Safe answers -/

/-- A step or a command is safe when it answers a next state: the block has no abort, halt or lock-up (R241). -/
def Safe (r : Result) : Prop := ∃ t, r = .next t

/-! ### The invariants of R38 -/

/-- The buffers are in form (R38 item 6): each is within `BUF_CAP`. -/
abbrev Memory.wf (s : State) : Prop :=
  ∀ b ∈ [BufId.nal, .rbsp, .bs, .x, .cur], withinLimit s.params.bufCap (s.buf b).length = true

/-- The low `8 - (bc_pos mod 8)` bits of the last byte are 0, when `bc_pos` is not on a byte boundary (R38 item 2). -/
abbrev lastBitsZero (buf : Buffer) (pos : Nat) : Prop :=
  pos % 8 ≠ 0 → ∀ b ∈ buf.getLast?, b.toNat % 2 ^ (8 - pos % 8) = 0

/-- R38 item 2 for a buffer and a position in write mode. -/
abbrev writeForm (buf : Buffer) (pos : Nat) : Prop := buf.length = (pos + 7) / 8 ∧ lastBitsZero buf pos

/-- The invariants of R38, in its order, with the two bounds the spec gives outside the block: R25's on `src_pos` and R6's on
the parameters. -/
structure Inv (s : State) : Prop where
  /-- Item 1. -/
  readBound : s.bcMode = .rd → s.bcPos ≤ 8 * s.bCur.length
  /-- Item 2. -/
  writeShape : s.bcMode = .wr → writeForm s.bCur s.bcPos
  /-- Item 3. -/
  invalidIff : s.nalInvalid = true ↔ s.bNal = []
  /-- Item 4: `TYPE = (B_NAL[0] >> 1) & 0x3F`, in numbers. -/
  typeOfFirst : s.nalInvalid = false → ∃ h0 rest, s.bNal = h0 :: rest ∧ s.nalType.toNat = h0.toNat / 2 % 64
  /-- Item 5. -/
  termScImplies : s.termSc = true → s.bNal ≠ [] ∧ 3 ≤ s.dmScLen
  /-- Item 6. -/
  buffersFit : Memory.wf s
  /-- Item 7. -/
  errLegal : s.err.toNat ≤ 5
  /-- `0 ≤ src_pos ≤ len(SRC_BYTES)` (R25). -/
  srcBound : s.srcPos ≤ s.params.srcBytes.length
  /-- The constraints of R6. -/
  paramsValid : s.params.Valid

/-! ### Limits and effects, from the spec's own tables -/

/-- `n` bytes fit `BUF_CAP` (R23). -/
abbrev fits (s : State) (n : Nat) : Prop := ∀ c ∈ s.params.bufCap, n ≤ c

/-- A rewind by `n` is within `REWIND_WINDOW` (R58). -/
abbrev windowAllows (s : State) (n : Nat) : Prop := ∀ w ∈ s.params.rewindWindow, n ≤ w

/-- `s` with the fault of a kind taken: `ERR.CODE` and the completion (R233). -/
def faultState (s : State) (code : BitVec 4) (k : FaultKind) : State :=
  { s with err := code, completion := some (.fault k) }

/-- The register map of R27 with the value `RD_REG` returns for each register (R212). -/
def registerValues (s : State) : List (RegId × Nat) :=
  [(.err, s.err.toNat), (.res, s.res), (.bcMode, if s.bcMode = .wr then 1 else 0), (.bcByteOff, s.bcPos / 8),
   (.bcBitOff, s.bcPos % 8), (.bcLen, s.bCur.length), (.bcPos, s.bcPos),
   (.dmNalType, s.nalType.toNat + 64 * s.nalInvalid.toNat), (.dmScLen, s.dmScLen),
   (.dmFlags, s.eos.toNat + 2 * s.resync.toNat + 4 * s.termSc.toNat), (.trScLen, s.trScLen)]

/-- The commands that return a value (R29). -/
def returnsValue : Instr → Bool
  | .reset => false
  | .rdReg _ => true
  | .xbClr => false
  | .xbPush _ => false
  | .bufLen _ => true
  | .bufRd _ _ => true
  | .nextNal => true
  | .toRbsp _ _ => false
  | .toBs _ _ => false
  | .lpWrap _ => false
  | .bcLoad _ _ => false
  | .readBits _ => true
  | .readUe => true
  | .readSe => true
  | .getByteOff => true
  | .getBitOff => true
  | .writeBits _ _ => false
  | .writeUe _ => false
  | .writeSe _ => false
  | .writeTrail => false

/-- The buffers a command may write (R22, R50). -/
def buffersWritten : Instr → List BufId
  | .reset => [.nal, .rbsp, .bs, .x, .cur]
  | .rdReg _ => []
  | .xbClr => [.x]
  | .xbPush _ => [.x]
  | .bufLen _ => []
  | .bufRd _ _ => []
  | .nextNal => [.nal]
  | .toRbsp _ _ => [.rbsp]
  | .toBs _ _ => [.bs]
  | .lpWrap _ => [.bs]
  | .bcLoad _ _ => [.cur]
  | .readBits _ => []
  | .readUe => []
  | .readSe => []
  | .getByteOff => []
  | .getBitOff => []
  | .writeBits _ _ => [.cur]
  | .writeUe _ => [.cur]
  | .writeSe _ => [.cur]
  | .writeTrail => [.cur]

/-- The registers a command that completes without fault may write (R27, with R29 for `RES`). -/
def registersWritten : Instr → List RegId
  | .reset =>
    [.err, .res, .bcMode, .bcByteOff, .bcBitOff, .bcLen, .bcPos, .dmNalType, .dmScLen, .dmFlags, .trScLen]
  | .rdReg _ => [.res]
  | .xbClr => []
  | .xbPush _ => []
  | .bufLen _ => [.res]
  | .bufRd _ _ => [.res]
  | .nextNal => [.res, .dmNalType, .dmScLen, .dmFlags]
  | .toRbsp _ _ => [.trScLen]
  | .toBs _ _ => []
  | .lpWrap _ => []
  | .bcLoad _ _ => [.bcMode, .bcByteOff, .bcBitOff, .bcLen, .bcPos]
  | .readBits _ => [.res, .bcByteOff, .bcBitOff, .bcPos]
  | .readUe => [.res, .bcByteOff, .bcBitOff, .bcPos]
  | .readSe => [.res, .bcByteOff, .bcBitOff, .bcPos]
  | .getByteOff => [.res]
  | .getBitOff => [.res]
  | .writeBits _ _ => [.bcByteOff, .bcBitOff, .bcLen, .bcPos]
  | .writeUe _ => [.bcByteOff, .bcBitOff, .bcLen, .bcPos]
  | .writeSe _ => [.bcByteOff, .bcBitOff, .bcLen, .bcPos]
  | .writeTrail => [.bcByteOff, .bcBitOff, .bcLen, .bcPos]

/-- The faults a command may raise, for a word that is legal by itself (R235). -/
def mayRaise : Instr → List FaultKind
  | .reset => []
  | .rdReg _ => []
  | .xbClr => []
  | .xbPush _ => [.capacityExceeded]
  | .bufLen _ => []
  | .bufRd _ _ => [.illegalCommand]
  | .nextNal => [.rewindUnderflow, .capacityExceeded]
  | .toRbsp _ _ => [.bufferUnderrun, .malformedSyntax]
  | .toBs _ _ => [.bufferUnderrun, .capacityExceeded]
  | .lpWrap _ => [.malformedSyntax, .capacityExceeded]
  | .bcLoad _ _ => []
  | .readBits _ => [.bufferUnderrun, .illegalCommand]
  | .readUe => [.bufferUnderrun, .malformedSyntax, .illegalCommand]
  | .readSe => [.bufferUnderrun, .malformedSyntax, .illegalCommand]
  | .getByteOff => []
  | .getBitOff => []
  | .writeBits _ _ => [.illegalCommand, .capacityExceeded]
  | .writeUe _ => [.malformedSyntax, .illegalCommand, .capacityExceeded]
  | .writeSe _ => [.malformedSyntax, .illegalCommand, .capacityExceeded]
  | .writeTrail => [.illegalCommand, .capacityExceeded]

/-! ### Legality (R102, R108) -/

/-- The constraint of a row of R102 on the word alone, in numbers. -/
def wordConstraint (w : Word) : Op → Prop
  | .reset => True
  | .rdReg => (nField w).toNat ∈ [0x00, 0x01, 0x10, 0x11, 0x12, 0x13, 0x14, 0x20, 0x21, 0x22, 0x30]
  | .xbClr => True
  | .xbPush => True
  | .bufLen => (nField w).toNat % 8 ≤ 4
  | .bufRd => (nField w).toNat % 8 ≤ 4
  | .nextNal => True
  | .toRbsp => (nField w).toNat % 8 ≤ 4
  | .toBs => (nField w).toNat % 8 ≤ 4 ∧ (nField w).toNat / 16 % 4 ≠ 3
  | .lpWrap => (nField w).toNat % 8 ≤ 4
  | .bcLoad => (nField w).toNat % 8 ≤ 4
  | .readBits => (nField w).toNat ≤ 32
  | .readUe => True
  | .readSe => True
  | .getByteOff => True
  | .getBitOff => True
  | .writeBits => (nField w).toNat ≤ 32
  | .writeUe => True
  | .writeSe => True
  | .writeTrail => True

/-- The constraint of a row of R102 on the state: the index of `BUF_RD` and the cursor mode. -/
def stateConstraint (s : State) (w : Word) : Op → Prop
  | .reset => True
  | .rdReg => True
  | .xbClr => True
  | .xbPush => True
  | .bufLen => True
  | .bufRd => ∃ b : BufId, b.code.toNat = (nField w).toNat % 8 ∧ (vField w).toNat < (s.buf b).length
  | .nextNal => True
  | .toRbsp => True
  | .toBs => True
  | .lpWrap => True
  | .bcLoad => True
  | .readBits => s.bcMode = .rd
  | .readUe => s.bcMode = .rd
  | .readSe => s.bcMode = .rd
  | .getByteOff => True
  | .getBitOff => True
  | .writeBits => s.bcMode = .wr
  | .writeUe => s.bcMode = .wr
  | .writeSe => s.bcMode = .wr
  | .writeTrail => s.bcMode = .wr

/-- A word is an illegal command in a state (R108): it satisfies no row's mask, or the constraint of its row fails. -/
def illegalIn (s : State) (w : Word) : Prop :=
  ∀ o : Op, w &&& o.mask = o.pattern → ¬ (wordConstraint w o ∧ stateConstraint s w o)

/-! ### Sequences of commands -/

/-- Run commands one after another, each after the completion of the one before (R62). -/
def issue : List Instr → State → Result
  | [], s => .next s
  | i :: rest, s =>
    match exec i s with
    | .next t => issue rest t
    | .fault r => .fault r
    | .refused r => .refused r

/-- The completions a sequence of commands hands over, in order. -/
def completionsOf : List Instr → State → List (Option Completion)
  | [], _ => []
  | i :: rest, s =>
    match exec i s with
    | .next t => t.completion :: completionsOf rest t
    | .fault _ => []
    | .refused _ => []

/-! ### Bits and codes -/

/-- The value of the field of `n` bits at `p` by R52's formula. -/
def fieldSum (buf : Buffer) (p n : Nat) : Nat :=
  ∑ i ∈ Finset.range n, (bitAt buf (p + i)).toNat * 2 ^ (n - 1 - i)

/-- The bits at `p` are the code word of R90 with `lz` leading zeros, and it lies in the buffer. -/
def codeWordAt (buf : Buffer) (p lz : Nat) : Prop :=
  p + 2 * lz + 1 ≤ 8 * buf.length ∧ (∀ i < lz, bitAt buf (p + i) = false) ∧ bitAt buf (p + lz) = true

/-- The length in bits of the unsigned code word of `k`, `2·lz + 1` (R90). -/
def ueLength (k : Nat) : Nat := 2 * Nat.log2 (k + 1) + 1

/-- `t` is `s` after the write of the bits `bits`: they stand at `bc_pos` onwards, every bit before is as it was, the buffer
is in write form (R145), nothing else of the machine has changed, and the completion is `OK` 0 (R141). -/
def WroteBits (s t : State) (bits : List Bool) : Prop :=
  t = { s with bCur := t.bCur, bcPos := s.bcPos + bits.length, completion := some (.ok 0) } ∧
  writeForm t.bCur t.bcPos ∧
  (∀ p < s.bcPos, bitAt t.bCur p = bitAt s.bCur p) ∧
  (∀ i (h : i < bits.length), bitAt t.bCur (s.bcPos + i) = bits[i])

/-! ### Payloads and streams -/

/-- The byte at index `i` of a payload is an emulation-prevention byte (R85): a `03` that directly follows two `00`. -/
def isEpbAt (payload : Buffer) (i : Nat) : Bool :=
  2 ≤ i && payload[i]? == some 0x03 && payload[i - 1]? == some 0x00 && payload[i - 2]? == some 0x00

/-- The payload without its emulation-prevention bytes (R86). -/
def withoutEpbs (payload : Buffer) : Buffer :=
  ((List.range payload.length).filter fun i => !isEpbAt payload i).map fun i => payload.getD i 0x00

/-- A canonical payload (R170). -/
def Canonical (payload : Buffer) : Prop :=
  ¬ [0x00, 0x00, 0x00] <:+: payload ∧
  ¬ [0x00, 0x00, 0x01] <:+: payload ∧
  ¬ [0x00, 0x00, 0x02] <:+: payload ∧
  ∀ before after, payload = before ++ [0x00, 0x00, 0x03] ++ after → ∃ b rest, after = b :: rest ∧ b ≤ 0x03

/-- The shortest start code, `00 00 01`; every start code of R81 ends in it. -/
abbrev startCode : Buffer := [0x00, 0x00, 0x01]

/-- `nal` holds no start code and does not end in `00`, so that zeros and a `01` behind it are the next start code and
nothing else (R187). -/
abbrev cleanRun (nal : Buffer) : Prop := ¬ startCode <:+: nal ∧ nal.getLast? ≠ some 0x00

/-- A run of zero bytes. -/
def zeroRun (n : Nat) : Buffer := List.replicate n 0x00

/-- The bytes the Byte Source has not delivered yet. -/
def State.unread (s : State) : Buffer := s.params.srcBytes.drop s.srcPos

/-- A NAL unit of a stream with the zeros of the start code in front of it (R197). -/
structure StreamUnit where
  /-- `m_i`, the zeros of its start code. -/
  zeros : Nat
  /-- `N_i`. -/
  nal : Buffer
deriving DecidableEq, Repr

/-- `S1 ++ N1 ++ S2 ++ N2 ++ …` (R197). -/
def streamOf : List StreamUnit → Buffer
  | [] => []
  | u :: rest => zeroRun u.zeros ++ [0x01] ++ u.nal ++ streamOf rest

/-! ### Writes and the reads that match them (R147) -/

/-- A write command. -/
inductive WriteOp where
  | bits (n : BitVec 8) (v : BitVec 32)
  | ue (v : BitVec 32)
  | se (v : BitVec 32)
  | trail
deriving DecidableEq, Repr

/-- The command of a write. -/
def WriteOp.command : WriteOp → Instr
  | .bits n v => .writeBits n v
  | .ue v => .writeUe v
  | .se v => .writeSe v
  | .trail => .writeTrail

/-- A write whose operands are in range (R141, R142, R143). -/
def WriteOp.inRange : WriteOp → Prop
  | .bits n _ => n.toNat ≤ 32
  | .ue v => v.toNat ≤ 2 ^ 32 - 2
  | .se v => v.toInt ≠ -(2 ^ 31)
  | .trail => True

/-- How many bits a write moves the cursor on from position `p` (R25). -/
def WriteOp.advance (p : Nat) : WriteOp → Nat
  | .bits n _ => n.toNat
  | .ue v => ueLength v.toNat
  | .se v => ueLength (codeOfSigned (sext32 v))
  | .trail => 8 - p % 8

/-- The reads that match a write at position `p`, each with the value it returns (R147). -/
def WriteOp.reads (p : Nat) : WriteOp → List (Instr × Nat)
  | .bits n v => [(.readBits n, v.toNat % 2 ^ n.toNat)]
  | .ue v => [(.readUe, v.toNat)]
  | .se v => [(.readSe, v.toNat)]
  | .trail => [(.readBits 1, 1), (.readBits (BitVec.ofNat 8 (7 - p % 8)), 0)]

/-- The reads that match a sequence of writes begun at `p`. -/
def matchingReads : Nat → List WriteOp → List (Instr × Nat)
  | _, [] => []
  | p, w :: rest => w.reads p ++ matchingReads (p + w.advance p) rest

end Sys2Proof.Machine
end

