-- ==== Sys2Proof/Certificates/Slice0/Obligations.lean ====
section
/-!
DEFINITION. The statements for the provers. Each docstring names the rules of spec/ the statement formalises. Equations of the
form `exec i s = .next …` say that the command completes and give the whole next state, its frame included: every field that
the right-hand side does not name is as in `s`. The Faulted state is the subject of `FaultedBlockRefuses` alone, so the other
statements about commands ask for `ERR.CODE = 0`.
-/

open Sys2Proof Sys2Proof.Machine

/-! ### Encoding -/

/-- R102 to R105: the decoder reads every legal command back from its word, whatever its operands. -/
def Obligations.DecodeInvertsEncode : Prop :=
  ∀ i : Instr, wellFormed i = true → decode (encode i) = .legal i

/-- R102 to R105: a word that decodes to a command is that command's word, so no bit of a legal word is ignored. -/
def Obligations.EncodeInvertsDecode : Prop :=
  ∀ (w : Word) (i : Instr), decode w = .legal i → wellFormed i = true ∧ encode i = w

/-- R102, R105 and the word-only part of R108: a word decodes to a command exactly when it satisfies the mask of a row and the
row's constraint on the word; it satisfies the mask of at most one row; 236 of the 256 opcodes name no row. -/
def Obligations.LegalWordsAreTheOpcodeMap : Prop :=
  (∀ w : Word, (∃ i, decode w = .legal i) ↔ ∃ o : Op, w &&& o.mask = o.pattern ∧ wordConstraint w o) ∧
  (∀ (w : Word) (o o' : Op), w &&& o.mask = o.pattern → w &&& o'.mask = o'.pattern → o = o') ∧
  ((List.range 256).filter fun c => (Op.ofCode (BitVec.ofNat 8 c)).isNone).length = 236

/-- Example words of the command rules R121, R141, R142, R143, R161, R165, R168, R181, R211, R212, R214, R216. -/
def Obligations.ExampleWordsDecode : Prop :=
  decode 0x010000000000 = .legal .reset ∧
  decode 0x021400000000 = .legal (.rdReg .bcPos) ∧
  decode 0x11000000004E = .legal (.xbPush 0x4E) ∧
  decode 0x130200000003 = .legal (.bufRd .bs 3) ∧
  decode 0x200000000000 = .legal .nextNal ∧
  decode 0x301300000000 = .legal (.toRbsp .x true) ∧
  decode 0x312400000000 = .legal (.toBs .cur .sc4) ∧
  decode 0x320200000000 = .legal (.lpWrap .bs) ∧
  decode 0x401300000000 = .legal (.bcLoad .x .wr) ∧
  decode 0x410600000000 = .legal (.readBits 6) ∧
  decode 0x500800000001 = .legal (.writeBits 8 1) ∧
  decode 0x510000000003 = .legal (.writeUe 3) ∧
  decode 0x5200FFFFFFFE = .legal (.writeSe (-2))

/-! ### The step -/

/-- R15, R62: when the next word the host issues decodes to a command, the step takes the word from the host's list and is the
command's meaning on the rest. The list is the model's form of the host (log 1). -/
def Obligations.StepRunsDecodedCommand : Prop :=
  ∀ (s : State) (w : Word) (rest : List Word) (i : Instr), s.commands = w :: rest → decode w = .legal i →
    step s = exec i { s with commands := rest }

/-- R250: between commands the block keeps all state. That a step with no command to issue is such a step is the model's choice
(log 1). -/
def Obligations.IdleStepKeepsState : Prop :=
  ∀ s : State, s.commands = [] → step s = .next s

/-- R241, and R195's first sentence: every step answers a next state; the block has no abort, halt or lock-up. The spec marks
R241 as derived. -/
def Obligations.EveryStepIsSafe : Prop :=
  ∀ s : State, Safe (step s)

/-- R38: its seven invariants hold after power-on with any parameters of R6 and are kept by every step, faulting, refused or
not, from every state that has them. `Inv` joins to them R25's bound on `src_pos` and R6's constraints, which `NEXT_NAL`
needs. The spec marks R38 as derived. -/
def Obligations.StepKeepsInvariants : Prop :=
  (∀ p : Config.Params, p.Valid → Inv (State.launch p)) ∧
  ∀ s t : State, Inv s → step s = .next t → Inv t

/-- R38 at the machine right after reset. The spec marks R38 as derived. -/
def Obligations.ResetHasInvariants : Prop := Inv State.reset

/-- R108: in a block that is not Faulted a command word that is illegal, by the word or in the state, raises `IllegalCommand`
and changes nothing else; a word that is not illegal does not raise it. -/
def Obligations.IllegalCommandExactly : Prop :=
  ∀ (s : State) (w : Word) (rest : List Word), s.err = 0 → s.commands = w :: rest →
    (illegalIn s w → step s = .next (faultState { s with commands := rest } 4 .illegalCommand)) ∧
    (¬ illegalIn s w → ∃ t, step s = .next t ∧ t.completion ≠ some (.fault .illegalCommand))

/-- R234: a block is Faulted exactly when `ERR.CODE` is not 0. It executes `RESET` and every `RD_REG` of a register; `RD_REG`
returns the value in the completion only. Every other word is refused and nothing changes. So `ERR` keeps the first fault
until `RESET`. -/
def Obligations.FaultedBlockRefuses : Prop :=
  (∀ s : State, s.isFaulted = true ↔ s.err ≠ 0) ∧
  ∀ (s : State) (w : Word) (rest : List Word), s.err ≠ 0 → s.commands = w :: rest →
    (w = 0x010000000000 →
      step s = .next { State.launch s.params with
        srcPos := s.srcPos, commands := rest, completion := some (.ok 0) }) ∧
    (∀ r : RegId, w = joinFields 0x02 r.number 0 →
      step s = .next { s with commands := rest, completion := some (.ok (s.reg r)) }) ∧
    (w ≠ 0x010000000000 → (∀ r : RegId, w ≠ joinFields 0x02 r.number 0) →
      step s = .next { s with commands := rest, completion := some .refused }) ∧
    ∀ t, step s = .next t → t.err = s.err ∨ w = 0x010000000000

/-- R233: a step that completes with a fault changes nothing but `ERR.CODE`, which takes the kind's code of R232; only
`NEXT_NAL` keeps what it did to the Byte Source, which stands further on. The host's list and the completion are the model's
own fields (log 1, log 2). -/
def Obligations.FaultChangesOnlyErr : Prop :=
  ∀ (s t : State) (w : Word) (rest : List Word) (k : FaultKind), s.commands = w :: rest → step s = .next t →
    t.completion = some (.fault k) →
    t = { s with
      err := match k with
        | .bufferUnderrun => 1
        | .rewindUnderflow => 2
        | .malformedSyntax => 3
        | .illegalCommand => 4
        | .capacityExceeded => 5,
      completion := some (.fault k), commands := rest, srcPos := t.srcPos } ∧
    s.err = 0 ∧ t.isFaulted = true ∧
    (decode w ≠ .legal .nextNal → t.srcPos = s.srcPos) ∧
    (decode w = .legal .nextNal → s.srcPos < t.srcPos)

/-- R231: every command hands over exactly one completion. `REFUSED` comes exactly in the Faulted state, for every command but
`RESET` and `RD_REG`; `FAULT(kind)` comes with `ERR` set to the kind's code; `OK` leaves `ERR` (but for `RESET`), with the value
in `RES` when the command returns one and the block is not Faulted, and with 0 when it returns none. -/
def Obligations.EveryCommandCompletes : Prop :=
  ∀ (i : Instr) (s : State), ∃ t c, exec i s = .next t ∧ t.completion = some c ∧
    (c = .refused ↔ s.err ≠ 0 ∧ i ≠ .reset ∧ ∀ r, i ≠ .rdReg r) ∧
    (∀ k, c = .fault k → t.err = k.code) ∧
    (∀ v, c = .ok v →
      (t.err = s.err ∨ i = .reset) ∧ (returnsValue i = false → v = 0) ∧
      (returnsValue i = true → s.err = 0 → t.res = v))

/-- R29: `RES` takes the value of a command that returns one and completes without fault in a block that is not Faulted; `RESET`
clears it; everything else leaves it. After a cursor read it is below `2^32`. -/
def Obligations.ResIsLastReturnedValue : Prop :=
  ∀ (i : Instr) (s t : State), exec i s = .next t →
    (i = .reset → t.res = 0) ∧
    (i ≠ .reset → (returnsValue i = false ∨ s.err ≠ 0 ∨ t.err ≠ 0) → t.res = s.res) ∧
    (returnsValue i = true → s.err = 0 → t.err = 0 → t.completion = some (.ok t.res)) ∧
    ((∃ n, i = .readBits n) ∨ i = .readUe ∨ i = .readSe → s.err = 0 → t.err = 0 → t.res < 2 ^ 32)

/-- R22, R25, R27, R50 and R6: what a command leaves as it was, whether it completes, faults or is refused. Every byte of a
buffer that it does not write reads as before; so does every register it does not write, but for `ERR`, which only a fault
and `RESET` change; the Byte Source moves for `NEXT_NAL` only; no command changes the parameters or what the host has still
to issue. -/
def Obligations.OnlyNamedStateChanges : Prop :=
  ∀ (i : Instr) (s t : State), exec i s = .next t →
    (∀ b, b ∉ buffersWritten i → ∀ j : Nat, (t.buf b)[j]? = (s.buf b)[j]?) ∧
    (∀ r, r ∉ registersWritten i → r ≠ .err → t.reg r = s.reg r) ∧
    (t.err ≠ s.err → i = .reset ∨ ∃ k, t.completion = some (.fault k)) ∧
    (i ≠ .nextNal → t.srcPos = s.srcPos) ∧
    t.params = s.params ∧ t.commands = s.commands

/-- R235, with R236 and R188: which command raises which fault; with an infinite `BUF_CAP` none raises `CapacityExceeded`, with
an infinite window none `RewindUnderflow`. The spec marks R235 as derived. -/
def Obligations.CommandsRaiseOnlyTheirFaults : Prop :=
  ∀ (i : Instr) (s t : State) (k : FaultKind), wellFormed i = true → exec i s = .next t →
    t.completion = some (.fault k) →
    k ∈ mayRaise i ∧ (k = .capacityExceeded → s.params.bufCap ≠ none) ∧
    (k = .rewindUnderflow → s.params.rewindWindow ≠ none)

/-! ### Reset, registers and buffers -/

/-- R37: the value of every piece of state after power-on and after `RESET`; `RESET` does not move the Byte Source, a new one
stands at 0. The completion and the host's list are the model's own (log 1, log 2). -/
def Obligations.ResetTable : Prop :=
  (∀ t : State, ((∃ p, t = State.launch p) ∨ ∃ s, exec .reset s = .next t) →
    t.bNal = [] ∧ t.bRbsp = [] ∧ t.bBs = [] ∧ t.bX = [] ∧ t.bCur = [] ∧ t.bcPos = 0 ∧ t.reg .bcByteOff = 0 ∧
    t.reg .bcBitOff = 0 ∧ t.bcMode = .rd ∧ t.reg .bcLen = 0 ∧ t.res = 0 ∧ t.err = 0 ∧ t.dmNalType = 0x40 ∧
    t.nalInvalid = true ∧ t.nalType = 0 ∧ t.dmScLen = 0 ∧ t.dmFlags = 0 ∧ t.eos = false ∧ t.resync = false ∧
    t.termSc = false ∧ t.trScLen = 0) ∧
  (∀ p, (State.launch p).srcPos = 0) ∧
  ∀ s, ∃ t, exec .reset s = .next t ∧ t.srcPos = s.srcPos

/-- R211: `RESET` completes in every state, Faulted or not, and leaves the block as after power-on, the Byte Source as it was. -/
def Obligations.ResetCompletes : Prop :=
  ∀ s : State, exec .reset s = .next { State.launch s.params with
    srcPos := s.srcPos, commands := s.commands, completion := some (.ok 0) }

/-- R212: `RD_REG` of each of the eleven registers returns the register's value; `RES` takes it unless the block is Faulted. -/
def Obligations.RdRegReturnsRegister : Prop :=
  ∀ (s : State) (r : RegId), ∃ v, (r, v) ∈ registerValues s ∧
    exec (.rdReg r) s =
      .next { s with res := if s.err = 0 then v else s.res, completion := some (.ok v) }

/-- R213, R214: `XB_CLR` empties `B_X`; `XB_PUSH` appends its byte when there is room and otherwise raises `CapacityExceeded`. -/
def Obligations.ExchangeBufferCommands : Prop :=
  ∀ (s : State) (b : Byte), s.err = 0 →
    exec .xbClr s = .next { s with bX := [], completion := some (.ok 0) } ∧
    (fits s (s.bX.length + 1) →
      exec (.xbPush b) s = .next { s with bX := s.bX ++ [b], completion := some (.ok 0) }) ∧
    (¬ fits s (s.bX.length + 1) → exec (.xbPush b) s = .next (faultState s 5 .capacityExceeded))

/-- R215, R216: `BUF_LEN` returns the length of a buffer, `BUF_RD` its byte at the index; an index at or beyond the length is an
illegal command. -/
def Obligations.BufferReads : Prop :=
  ∀ (s : State) (src : BufId) (index : BitVec 32), s.err = 0 →
    exec (.bufLen src) s =
      .next { s with res := (s.buf src).length, completion := some (.ok (s.buf src).length) } ∧
    (∀ h : index.toNat < (s.buf src).length, exec (.bufRd src index) s =
      .next { s with res := (s.buf src)[index.toNat].toNat,
                     completion := some (.ok (s.buf src)[index.toNat].toNat) }) ∧
    ((s.buf src).length ≤ index.toNat → exec (.bufRd src index) s = .next (faultState s 4 .illegalCommand))

/-- R111 with R213 and R214: the pseudo-instruction `XB_SET` leaves exactly its bytes in `B_X`. -/
def Obligations.XbSetFillsExchangeBuffer : Prop :=
  ∀ (s : State) (bytes : Buffer), s.err = 0 → fits s bytes.length →
    issue (expandPseudo (.xbSet bytes)) s = .next { s with bX := bytes, completion := some (.ok 0) }

/-! ### The bit cursor, reading -/

/-- R10, R11: the stream bit `p` is bit `7 - (p mod 8)` of byte `p div 8`. PRESUMED by the spec itself (GK1, log 7). -/
def Obligations.StreamBitFormula : Prop :=
  ∀ (buf : Buffer) (p : Nat) (h : p / 8 < buf.length),
    (bitAt buf p).toNat = buf[p / 8].toNat / 2 ^ (7 - p % 8) % 2

/-- R121: `BC_LOAD` copies the whole source, sets the mode, and puts the cursor at bit 0 for reading and at the end for writing. -/
def Obligations.BcLoadAttachesCursor : Prop :=
  ∀ (s : State) (src : BufId) (mode : CursorMode), s.err = 0 →
    exec (.bcLoad src mode) s =
      .next { s with bCur := s.buf src, bcMode := mode,
                     bcPos := if mode = .wr then 8 * (s.buf src).length else 0,
                     completion := some (.ok 0) }

/-- R122 with R52: `READ_BITS n` returns the field's value by R52's sum, below `2^n`, and moves the cursor by `n`; when fewer
than `n` bits remain it raises `BufferUnderrun`. -/
def Obligations.ReadBitsReturnsField : Prop :=
  ∀ (s : State) (n : BitVec 8), s.err = 0 → s.bcMode = .rd → n.toNat ≤ 32 →
    (s.bcPos + n.toNat ≤ 8 * s.bCur.length →
      fieldSum s.bCur s.bcPos n.toNat < 2 ^ n.toNat ∧
      exec (.readBits n) s =
        .next { s with bcPos := s.bcPos + n.toNat, res := fieldSum s.bCur s.bcPos n.toNat,
                       completion := some (.ok (fieldSum s.bCur s.bcPos n.toNat)) }) ∧
    (8 * s.bCur.length < s.bcPos + n.toNat → exec (.readBits n) s = .next (faultState s 1 .bufferUnderrun))

/-- R123 with R90: `READ_UE` on a code word with `lz ≤ 31` leading zeros returns `2^lz - 1 + suffix`, below `2^32 - 1`, and
moves the cursor past its `2·lz + 1` bits. PRESUMED by the spec itself (GK2, log 7). -/
def Obligations.ReadUeReturnsCodeNumber : Prop :=
  ∀ (s : State) (lz : Nat), s.err = 0 → s.bcMode = .rd → codeWordAt s.bCur s.bcPos lz → lz ≤ 31 →
    2 ^ lz - 1 + fieldSum s.bCur (s.bcPos + lz + 1) lz < 2 ^ 32 - 1 ∧
    exec .readUe s =
      .next { s with bcPos := s.bcPos + 2 * lz + 1, res := 2 ^ lz - 1 + fieldSum s.bCur (s.bcPos + lz + 1) lz,
                     completion := some (.ok (2 ^ lz - 1 + fieldSum s.bCur (s.bcPos + lz + 1) lz)) }

/-- R124 with R91: `READ_SE` maps the code number `k` of the code word at the cursor to `(k + 1) div 2` for odd `k` and to
`-(k div 2)` for even `k`, and returns its 32-bit two's complement pattern, which reads back as that number. PRESUMED by the
spec itself (GK3, log 7). -/
def Obligations.ReadSeReturnsSignedPattern : Prop :=
  ∀ (s : State) (lz k : Nat) (z : Int), s.err = 0 → s.bcMode = .rd → codeWordAt s.bCur s.bcPos lz → lz ≤ 31 →
    k = 2 ^ lz - 1 + fieldSum s.bCur (s.bcPos + lz + 1) lz →
    (k % 2 = 1 → z = ((k : Int) + 1) / 2) → (k % 2 = 0 → z = -((k : Int) / 2)) →
    sext32 (BitVec.ofInt 32 z) = z ∧
    exec .readSe s =
      .next { s with bcPos := s.bcPos + 2 * lz + 1, res := (BitVec.ofInt 32 z).toNat,
                     completion := some (.ok (BitVec.ofInt 32 z).toNat) }

/-- R123, R124: the three ways a code word cannot be read: 32 zeros raise `MalformedSyntax`; the buffer ending after fewer
zeros, or inside the suffix, raises `BufferUnderrun`. -/
def Obligations.CodeWordFaults : Prop :=
  ∀ (s : State) (i : Instr), s.err = 0 → s.bcMode = .rd → i = .readUe ∨ i = .readSe →
    (s.bcPos + 32 ≤ 8 * s.bCur.length → (∀ j < 32, bitAt s.bCur (s.bcPos + j) = false) →
      exec i s = .next (faultState s 3 .malformedSyntax)) ∧
    (∀ z ≤ 31, 8 * s.bCur.length ≤ s.bcPos + z → (∀ j < z, bitAt s.bCur (s.bcPos + j) = false) →
      exec i s = .next (faultState s 1 .bufferUnderrun)) ∧
    (∀ lz ≤ 31, s.bcPos + lz < 8 * s.bCur.length → (∀ j < lz, bitAt s.bCur (s.bcPos + j) = false) →
      bitAt s.bCur (s.bcPos + lz) = true → 8 * s.bCur.length < s.bcPos + 2 * lz + 1 →
      exec i s = .next (faultState s 1 .bufferUnderrun))

/-- R125, R126, R127: the two offset accessors complete in both modes, leave the cursor, and together give its position. The
spec marks R127 as derived. -/
def Obligations.OffsetsGiveThePosition : Prop :=
  ∀ s : State, s.err = 0 → ∃ y z, s.bcPos = 8 * y + z ∧ z ≤ 7 ∧
    exec .getByteOff s = .next { s with res := y, completion := some (.ok y) } ∧
    exec .getBitOff s = .next { s with res := z, completion := some (.ok z) }

/-- R129 item 1: two reads that complete are one read of both fields, with the value `first · 2^b + second` and the same
position. The spec marks R129 as derived. -/
def Obligations.SplitReadIsWholeRead : Prop :=
  ∀ (s t u : State) (a b : BitVec 8) (x y : Nat), s.err = 0 → a.toNat + b.toNat ≤ 32 →
    exec (.readBits a) s = .next t → t.completion = some (.ok x) →
    exec (.readBits b) t = .next u → u.completion = some (.ok y) →
    exec (.readBits (a + b)) s =
      .next { s with bcPos := u.bcPos, res := x * 2 ^ b.toNat + y,
                     completion := some (.ok (x * 2 ^ b.toNat + y)) }

/-- R111 with R83: the pseudo-instruction `READ_NAL_HDR` returns the four fields of the 2-byte header. PRESUMED by the spec
itself (GK4, log 12). -/
def Obligations.ReadNalHdrReturnsFields : Prop :=
  ∀ (s : State) (h0 h1 : Byte) (rest : Buffer), s.err = 0 → s.bcMode = .rd → s.bcPos = 0 →
    s.bCur = h0 :: h1 :: rest →
    completionsOf (expandPseudo .readNalHdr) s =
      [some (.ok (h0.toNat / 128)), some (.ok (h0.toNat / 2 % 64)),
       some (.ok (h0.toNat % 2 * 32 + h1.toNat / 8)), some (.ok (h1.toNat % 8))]

/-- R108, R120, R140: a cursor command in the wrong mode is illegal and does not touch the cursor. -/
def Obligations.WrongModeIsIllegal : Prop :=
  ∀ (s : State) (i : Instr), s.err = 0 →
    (s.bcMode = .wr ∧ ((∃ n, i = .readBits n) ∨ i = .readUe ∨ i = .readSe) ∨
      s.bcMode = .rd ∧ ((∃ n v, i = .writeBits n v) ∨ (∃ v, i = .writeUe v) ∨ (∃ v, i = .writeSe v) ∨ i = .writeTrail)) →
    exec i s = .next (faultState s 4 .illegalCommand)

/-! ### The bit cursor, writing -/

/-- R141, R145: `WRITE_BITS v, n` appends the low `n` bits of `v`, most significant first, ignoring the others. -/
def Obligations.WriteBitsAppendsField : Prop :=
  ∀ (s : State) (n : BitVec 8) (v : BitVec 32), s.err = 0 → s.bcMode = .wr → writeForm s.bCur s.bcPos → n.toNat ≤ 32 →
    fits s ((s.bcPos + n.toNat + 7) / 8) →
    ∃ t, exec (.writeBits n v) s = .next t ∧
      WroteBits s t ((List.range n.toNat).map fun i => v.toNat.testBit (n.toNat - 1 - i))

/-- R142 with R90: `WRITE_UE v` appends `lz` zeros and the `lz + 1` binary digits of `v + 1`. PRESUMED by the spec itself (GK2,
log 7). -/
def Obligations.WriteUeAppendsCodeWord : Prop :=
  ∀ (s : State) (v : BitVec 32) (lz : Nat), s.err = 0 → s.bcMode = .wr → writeForm s.bCur s.bcPos →
    v.toNat ≤ 2 ^ 32 - 2 → 2 ^ lz ≤ v.toNat + 1 → v.toNat + 1 < 2 ^ (lz + 1) →
    fits s ((s.bcPos + (2 * lz + 1) + 7) / 8) →
    ∃ t, exec (.writeUe v) s = .next t ∧
      WroteBits s t (List.replicate lz false ++ (List.range (lz + 1)).map fun i => (v.toNat + 1).testBit (lz - i))

/-- R143 with R91: `WRITE_SE v` appends the code word of `2·s - 1` for a positive `s = sext_32(v)` and of `-2·s` otherwise.
PRESUMED by the spec itself (GK2, GK3, log 7). -/
def Obligations.WriteSeAppendsCodeWord : Prop :=
  ∀ (s : State) (v : BitVec 32) (k lz : Nat), s.err = 0 → s.bcMode = .wr → writeForm s.bCur s.bcPos →
    v.toInt ≠ -(2 ^ 31) → (0 < v.toInt → (k : Int) = 2 * v.toInt - 1) → (v.toInt ≤ 0 → (k : Int) = -2 * v.toInt) →
    2 ^ lz ≤ k + 1 → k + 1 < 2 ^ (lz + 1) → fits s ((s.bcPos + (2 * lz + 1) + 7) / 8) →
    k ≤ 2 ^ 32 - 2 ∧
    ∃ t, exec (.writeSe v) s = .next t ∧
      WroteBits s t (List.replicate lz false ++ (List.range (lz + 1)).map fun i => (k + 1).testBit (lz - i))

/-- R144 with R87: `WRITE_TRAIL` appends a 1 and then zeros up to the next multiple of 8 strictly above the position. -/
def Obligations.WriteTrailClosesByte : Prop :=
  ∀ s : State, s.err = 0 → s.bcMode = .wr → writeForm s.bCur s.bcPos → fits s (s.bcPos / 8 + 1) →
    ∃ t, exec .writeTrail s = .next t ∧ WroteBits s t (true :: List.replicate (7 - s.bcPos % 8) false) ∧
      t.bcPos = 8 * (s.bcPos / 8 + 1)

/-- R141, R236: a write in range that needs a byte beyond `BUF_CAP` raises `CapacityExceeded` and appends nothing. -/
def Obligations.WriteBeyondCapacityFaults : Prop :=
  ∀ (s : State) (op : WriteOp), s.err = 0 → s.bcMode = .wr → writeForm s.bCur s.bcPos → op.inRange →
    fits s s.bCur.length → ¬ fits s ((s.bcPos + op.advance s.bcPos + 7) / 8) →
    exec op.command s = .next (faultState s 5 .capacityExceeded)

/-- R142, R143, R237: the two operands without a code word raise `MalformedSyntax`, whatever the capacity. -/
def Obligations.UnencodableValueFaults : Prop :=
  ∀ s : State, s.err = 0 → s.bcMode = .wr →
    exec (.writeUe 0xFFFFFFFF) s = .next (faultState s 3 .malformedSyntax) ∧
    exec (.writeSe 0x80000000) s = .next (faultState s 3 .malformedSyntax)

/-- R147: after `BC_LOAD src, wr` and writes that complete without fault, `BC_LOAD CUR, rd`, the reads of the bytes copied and
the matching reads complete without fault, return the written values and end at the written position. The spec marks R147 as
derived. -/
def Obligations.WritesReadBack : Prop :=
  ∀ (s t : State) (src : BufId) (ops : List WriteOp), s.err = 0 →
    issue (.bcLoad src .wr :: ops.map WriteOp.command) s = .next t →
    (∀ c ∈ completionsOf (.bcLoad src .wr :: ops.map WriteOp.command) s, c = some (.ok 0)) →
    ∃ u, issue (.bcLoad .cur .rd :: List.replicate (s.buf src).length (.readBits 8) ++
          (matchingReads (8 * (s.buf src).length) ops).map Prod.fst) t = .next u ∧
      completionsOf (.bcLoad .cur .rd :: List.replicate (s.buf src).length (.readBits 8) ++
          (matchingReads (8 * (s.buf src).length) ops).map Prod.fst) t =
        some (.ok 0) :: (s.buf src).map (fun b => some (.ok b.toNat)) ++
          (matchingReads (8 * (s.buf src).length) ops).map (fun r => some (.ok r.2)) ∧
      u.bcPos = t.bcPos

/-! ### The transcoder -/

/-- R161: `TO_RBSP` with no start code declared, and with one of `z ≥ 2` zeros: the header verbatim, the removal scan over the
rest from `Copying`, and the length of the start code. -/
def Obligations.ToRbspCompletes : Prop :=
  ∀ (s : State) (src : BufId) (h0 h1 : Byte) (payload : Buffer), s.err = 0 →
    (s.buf src = h0 :: h1 :: payload →
      exec (.toRbsp src false) s =
        .next { s with bRbsp := h0 :: h1 :: removeEpb s.params.thirdZero .copying payload, trScLen := 0,
                       completion := some (.ok 0) }) ∧
    ∀ z, 2 ≤ z → s.buf src = zeroRun z ++ 0x01 :: h0 :: h1 :: payload →
      exec (.toRbsp src true) s =
        .next { s with bRbsp := h0 :: h1 :: removeEpb s.params.thirdZero .copying payload, trScLen := z + 1,
                       completion := some (.ok 0) }

/-- R161, R237: a declared start code that is not there raises `MalformedSyntax`, before the header is looked for; fewer than
two bytes for the header raise `BufferUnderrun`. -/
def Obligations.ToRbspFaults : Prop :=
  ∀ (s : State) (src : BufId), s.err = 0 →
    ((¬ ∃ z rest, 2 ≤ z ∧ s.buf src = zeroRun z ++ 0x01 :: rest) →
      exec (.toRbsp src true) s = .next (faultState s 3 .malformedSyntax)) ∧
    (∀ z rest, 2 ≤ z → s.buf src = zeroRun z ++ 0x01 :: rest → rest.length < 2 →
      exec (.toRbsp src true) s = .next (faultState s 1 .bufferUnderrun)) ∧
    ((s.buf src).length < 2 → exec (.toRbsp src false) s = .next (faultState s 1 .bufferUnderrun))

/-- R162 with R163: the rows of the removal scan's table, with the three readings of a third zero. -/
def Obligations.RemovalScanRows : Prop :=
  ∀ (tz : Config.ThirdZero) (b : Byte) (rest : Buffer), b ≠ 0x00 →
    (∀ st, removeEpb tz st [] = []) ∧
    removeEpb tz .copying (0x00 :: rest) = 0x00 :: removeEpb tz .oneZeroSeen rest ∧
    removeEpb tz .copying (b :: rest) = b :: removeEpb tz .copying rest ∧
    removeEpb tz .oneZeroSeen (0x00 :: rest) = 0x00 :: removeEpb tz .twoZerosSeen rest ∧
    removeEpb tz .oneZeroSeen (b :: rest) = b :: removeEpb tz .copying rest ∧
    removeEpb tz .twoZerosSeen (0x03 :: rest) = removeEpb tz .copying rest ∧
    (b ≠ 0x03 → removeEpb tz .twoZerosSeen (b :: rest) = b :: removeEpb tz .copying rest) ∧
    removeEpb .stayTwo .twoZerosSeen (0x00 :: rest) = 0x00 :: removeEpb .stayTwo .twoZerosSeen rest ∧
    removeEpb .toOne .twoZerosSeen (0x00 :: rest) = 0x00 :: removeEpb .toOne .oneZeroSeen rest ∧
    removeEpb .toCopy .twoZerosSeen (0x00 :: rest) = 0x00 :: removeEpb .toCopy .copying rest

/-- R85, R86: at the default of `EPB_THIRD_ZERO` the removal scan drops exactly the emulation-prevention bytes, each `03` that
directly follows two `00`. -/
def Obligations.RemovalDropsExactlyEpbs : Prop :=
  ∀ payload : Buffer, removeEpb .stayTwo .copying payload = withoutEpbs payload

/-- R163: the three readings of a third zero agree on every payload without three zeros in a row, and differ on R163's examples
as its table says. -/
def Obligations.ThirdZeroReadingsAgree : Prop :=
  (∀ (tz : Config.ThirdZero) (payload : Buffer), ¬ [0x00, 0x00, 0x00] <:+: payload →
    removeEpb tz .copying payload = removeEpb .stayTwo .copying payload) ∧
  removeEpb .stayTwo .copying [0x00, 0x00, 0x00, 0x03] = [0x00, 0x00, 0x00] ∧
  removeEpb .toOne .copying [0x00, 0x00, 0x00, 0x03] = [0x00, 0x00, 0x00, 0x03] ∧
  removeEpb .toOne .copying [0x00, 0x00, 0x00, 0x00, 0x03] = [0x00, 0x00, 0x00, 0x00] ∧
  removeEpb .toCopy .copying [0x00, 0x00, 0x00, 0x03] = [0x00, 0x00, 0x00, 0x03] ∧
  removeEpb .toCopy .copying [0x00, 0x00, 0x00, 0x00, 0x03] = [0x00, 0x00, 0x00, 0x00, 0x03]

/-- R166: one step of the insertion scan after `z` zeros. -/
def Obligations.InsertionScanRows : Prop :=
  ∀ (z : Nat) (b : Byte) (rest : Buffer),
    insertEpb z [] = [] ∧
    (2 ≤ z → b.toNat ≤ 3 →
      insertEpb z (b :: rest) = 0x03 :: b :: insertEpb (if b = 0x00 then 1 else 0) rest) ∧
    (z < 2 ∨ 3 < b.toNat → insertEpb z (b :: rest) = b :: insertEpb (if b = 0x00 then z + 1 else 0) rest)

/-- R165: `TO_BS` puts the start code of its operand in front, copies the header verbatim and inserts emulation-prevention bytes
into the payload from a zero count of 0; it raises `BufferUnderrun` without a header and `CapacityExceeded` without room. -/
def Obligations.ToBsCompletesOrFaults : Prop :=
  ∀ (s : State) (src : BufId) (sc : ScForm) (code : Buffer), s.err = 0 →
    (sc, code) ∈ [(ScForm.noSc, []), (.sc3, [0x00, 0x00, 0x01]), (.sc4, [0x00, 0x00, 0x00, 0x01])] →
    (∀ h0 h1 payload, s.buf src = h0 :: h1 :: payload →
      (fits s (code ++ h0 :: h1 :: insertEpb 0 payload).length →
        exec (.toBs src sc) s =
          .next { s with bBs := code ++ h0 :: h1 :: insertEpb 0 payload, completion := some (.ok 0) }) ∧
      (¬ fits s (code ++ h0 :: h1 :: insertEpb 0 payload).length →
        exec (.toBs src sc) s = .next (faultState s 5 .capacityExceeded))) ∧
    ((s.buf src).length < 2 → exec (.toBs src sc) s = .next (faultState s 1 .bufferUnderrun))

/-- R167: the payload `TO_BS` puts out holds none of `00 00 00`, `00 00 01`, `00 00 02`; every `00 00 03` in it is followed by a
byte of at most `03`; at most `(L - 1) div 2` bytes are inserted, and an all-zero payload meets the bound. The spec marks
R167 as derived. -/
def Obligations.ToBsPayloadIsCanonical : Prop :=
  (∀ payload : Buffer, Canonical (insertEpb 0 payload) ∧
    payload.length ≤ (insertEpb 0 payload).length ∧
    (insertEpb 0 payload).length ≤ payload.length + (payload.length - 1) / 2) ∧
  ∀ n, (insertEpb 0 (zeroRun n)).length = n + (n - 1) / 2

/-- R169: removal undoes insertion. Whenever `TO_BS` completes, which it always does at the default `BUF_CAP`, the `TO_RBSP` of
its output completes, gives the source buffer back, and reports the start code's length; for every `EPB_THIRD_ZERO`. The
spec marks R169 as derived. -/
def Obligations.RemovalUndoesInsertion : Prop :=
  ∀ (s : State) (src : BufId) (sc : ScForm), s.err = 0 → 2 ≤ (s.buf src).length →
    (s.params.bufCap = none → ∃ t, exec (.toBs src sc) s = .next t ∧ t.completion = some (.ok 0)) ∧
    ∀ t, exec (.toBs src sc) s = .next t → t.completion = some (.ok 0) →
      ∃ u, exec (.toRbsp .bs (sc ≠ .noSc)) t = .next u ∧ u.completion = some (.ok 0) ∧ u.bRbsp = s.buf src ∧
        (sc, u.trScLen) ∈ [(ScForm.noSc, 0), (.sc3, 3), (.sc4, 4)]

/-- R170: on a NAL unit with the start code of `sc` (or none) in front, `TO_RBSP` and then `TO_BS` with the same start code give
the bytes back exactly when the payload is canonical; for every `EPB_THIRD_ZERO`. Both complete at the default `BUF_CAP`.
The spec marks R170 as derived. -/
def Obligations.InsertionUndoesRemovalIffCanonical : Prop :=
  ∀ (s : State) (src : BufId) (sc : ScForm) (h0 h1 : Byte) (payload : Buffer), s.err = 0 →
    s.buf src = startCodeBytes sc ++ h0 :: h1 :: payload →
    ∃ t, exec (.toRbsp src (sc ≠ .noSc)) s = .next t ∧ t.completion = some (.ok 0) ∧
      t.trScLen = (startCodeBytes sc).length ∧
      (s.params.bufCap = none → ∃ u, exec (.toBs .rbsp sc) t = .next u ∧ u.completion = some (.ok 0)) ∧
      ∀ u, exec (.toBs .rbsp sc) t = .next u → u.completion = some (.ok 0) →
        (u.bBs = s.buf src ↔ Canonical payload)

/-- R168 with R51 and R88: `LP_WRAP` puts the length in front as four bytes, most significant first; a length of `2^32` or more
raises `MalformedSyntax`, before the capacity is looked at. -/
def Obligations.LpWrapPrependsLength : Prop :=
  ∀ (s : State) (src : BufId), s.err = 0 →
    ((s.buf src).length < 2 ^ 32 → fits s ((s.buf src).length + 4) →
      ∃ b3 b2 b1 b0 : Byte,
        b3.toNat * 2 ^ 24 + b2.toNat * 2 ^ 16 + b1.toNat * 2 ^ 8 + b0.toNat = (s.buf src).length ∧
        exec (.lpWrap src) s =
          .next { s with bBs := [b3, b2, b1, b0] ++ s.buf src, completion := some (.ok 0) }) ∧
    ((s.buf src).length < 2 ^ 32 → ¬ fits s ((s.buf src).length + 4) →
      exec (.lpWrap src) s = .next (faultState s 5 .capacityExceeded)) ∧
    (2 ^ 32 ≤ (s.buf src).length → exec (.lpWrap src) s = .next (faultState s 3 .malformedSyntax))

/-! ### The demuxer -/

/-- R56, R57, R58: the three calls of the Byte Source. A call past the end answers `00` and does not move; a failed rewind
answers no position. -/
def Obligations.ByteSourceCalls : Prop :=
  ∀ (p : Config.Params) (pos n : Nat), 1 ≤ n →
    (srcEof p pos = true ↔ p.srcBytes.length ≤ pos) ∧
    (∀ h : pos < p.srcBytes.length, srcGetNextByte p pos = (p.srcBytes[pos], pos + 1)) ∧
    (p.srcBytes.length ≤ pos → srcGetNextByte p pos = (0x00, pos)) ∧
    ((∀ w ∈ p.rewindWindow, n ≤ w) → n ≤ pos → srcRewind p pos n = some (pos - n)) ∧
    (¬ ((∀ w ∈ p.rewindWindow, n ≤ w) ∧ n ≤ pos) → srcRewind p pos n = none)

/-- R181 with R184 to R189 and R194: a NAL unit that the next start code ends. `junk` is what stands in front of its own start
code (R185), `m` the zeros of that start code, `z` those of the next one, which are trimmed from the NAL unit and rewound
over. -/
def Obligations.NextNalTerminatedUnit : Prop :=
  ∀ (s : State) (junk nal rest : Buffer) (h0 : Byte) (m z : Nat), s.err = 0 → 2 ≤ m → 2 ≤ z →
    s.unread = junk ++ zeroRun m ++ [0x01] ++ nal ++ zeroRun z ++ [0x01] ++ rest →
    cleanRun junk → cleanRun nal → nal.head? = some h0 → windowAllows s (z + 1) → fits s (nal.length + z) →
    exec .nextNal s =
      .next { s with bNal := nal, dmNalType := BitVec.ofNat 7 (h0.toNat / 2 % 64), dmScLen := m + 1,
                     dmFlags := if junk = [] then 4 else 6, res := h0.toNat / 2 % 64,
                     srcPos := s.srcPos + junk.length + (m + 1) + nal.length,
                     completion := some (.ok (h0.toNat / 2 % 64)) }

/-- R191: the last NAL unit, which the end of the source ends; it is delivered untrimmed. A start code at the very end delivers
no NAL unit but its own length. -/
def Obligations.NextNalFinalUnit : Prop :=
  ∀ (s : State) (junk nal : Buffer) (m type : Nat), s.err = 0 → 2 ≤ m →
    s.unread = junk ++ zeroRun m ++ [0x01] ++ nal → cleanRun junk → ¬ startCode <:+: nal → fits s nal.length →
    (∀ h0 ∈ nal.head?, type = h0.toNat / 2 % 64) → (nal = [] → type = 0x40) →
    exec .nextNal s =
      .next { s with bNal := nal, dmNalType := BitVec.ofNat 7 type, dmScLen := m + 1,
                     dmFlags := if junk = [] then 1 else 3, res := type, srcPos := s.params.srcBytes.length,
                     completion := some (.ok type) }

/-- R192 with R184 and R185: no start code is left. `RESYNC` tells whether a byte other than `00` was discarded. -/
def Obligations.NextNalNothingLeft : Prop :=
  ∀ s : State, s.err = 0 → s.srcPos ≤ s.params.srcBytes.length → ¬ startCode <:+: s.unread →
    exec .nextNal s =
      .next { s with bNal := [], dmNalType := 0x40, dmScLen := 0,
                     dmFlags := if ∃ b ∈ s.unread, b ≠ 0x00 then 3 else 1, res := 0x40,
                     srcPos := s.params.srcBytes.length, completion := some (.ok 0x40) }

/-- R190: an empty NAL unit between two start codes is skipped: the command does what it would do from the second start code,
and reports `RESYNC` when it completes. The `z` zeros of the second start code pass through the accumulated NAL unit (R181),
so they have to fit `BUF_CAP`. -/
def Obligations.NextNalSkipsEmptyUnit : Prop :=
  ∀ (s : State) (m z : Nat) (rest : Buffer), s.err = 0 → 2 ≤ m → 2 ≤ z →
    s.unread = zeroRun m ++ [0x01] ++ zeroRun z ++ [0x01] ++ rest → windowAllows s (z + 1) → fits s z →
    ∃ u, exec .nextNal { s with srcPos := s.srcPos + (m + 1) } = .next u ∧
      exec .nextNal s = .next (if u.err = 0 then { u with dmFlags := u.dmFlags ||| 2 } else u)

/-- R188: a next start code longer than the window. The NAL unit is lost and the Byte Source stands just after the `01`. -/
def Obligations.NextNalRewindUnderflow : Prop :=
  ∀ (s : State) (junk nal rest : Buffer) (m z : Nat), s.err = 0 → 2 ≤ m → 2 ≤ z →
    s.unread = junk ++ zeroRun m ++ [0x01] ++ nal ++ zeroRun z ++ [0x01] ++ rest →
    cleanRun junk → cleanRun nal → ¬ windowAllows s (z + 1) → fits s (nal.length + z) →
    exec .nextNal s =
      .next (faultState { s with srcPos := s.srcPos + junk.length + (m + 1) + nal.length + (z + 1) } 2
        .rewindUnderflow)

/-- R236, R237: a NAL unit that outgrows a finite `BUF_CAP`. The command faults on the byte that would be the one too many,
before any trim, and the Byte Source stands just after it. -/
def Obligations.NextNalCapacityExceeded : Prop :=
  ∀ (s : State) (junk body rest : Buffer) (m cap : Nat), s.err = 0 → 2 ≤ m → s.params.bufCap = some cap →
    s.unread = junk ++ zeroRun m ++ [0x01] ++ body ++ rest → cleanRun junk → ¬ startCode <:+: body →
    body.length = cap + 1 →
    exec .nextNal s =
      .next (faultState { s with srcPos := s.srcPos + junk.length + (m + 1) + (cap + 1) } 5 .capacityExceeded)

/-- R195: every `NEXT_NAL` completes and, if a byte was unread and it does not fault, moves the Byte Source on; so repeating it
reaches `EOS = 1`, or a fault, after at most as many commands as the stream has bytes (one, for an empty stream). The spec
marks R195 as derived. -/
def Obligations.NextNalProgress : Prop :=
  ∀ s : State, s.err = 0 →
    (∃ t, exec .nextNal s = .next t ∧
      (s.srcPos < s.params.srcBytes.length → t.err = 0 → s.srcPos < t.srcPos)) ∧
    ∃ k, 1 ≤ k ∧ k ≤ max 1 s.params.srcBytes.length ∧ ∃ t,
      issue (List.replicate k .nextNal) s = .next t ∧ (t.eos = true ∨ t.err ≠ 0)

/-- R197: the sequence law. On a stream of NAL units behind start codes, from `src_pos = 0`, the `i`-th `NEXT_NAL` delivers the
`i`-th NAL unit and leaves the Byte Source at the next start code; the one after the last delivers nothing. The premise on
`BUF_CAP` holds of itself at the default, for which R197 is stated (R23). The spec marks R197 as derived. -/
def Obligations.SequenceLaw : Prop :=
  ∀ (s : State) (units : List StreamUnit), s.err = 0 → s.srcPos = 0 → s.params.srcBytes = streamOf units → units ≠ [] →
    (∀ u ∈ units, 2 ≤ u.zeros ∧ u.nal ≠ [] ∧ ¬ startCode <:+: u.nal) →
    (∀ u ∈ units.dropLast, u.nal.getLast? ≠ some 0x00) →
    (∀ u ∈ units.tail, windowAllows s (u.zeros + 1)) →
    (∀ i (h : i < units.length), fits s (units[i].nal.length + ((units[i + 1]?).map StreamUnit.zeros).getD 0)) →
    (∀ i (h : i < units.length), ∃ t h0,
      issue (List.replicate (i + 1) .nextNal) s = .next t ∧ units[i].nal.head? = some h0 ∧
      t.completion = some (.ok (h0.toNat / 2 % 64)) ∧ t.err = 0 ∧ t.bNal = units[i].nal ∧
      t.res = h0.toNat / 2 % 64 ∧ t.dmScLen = units[i].zeros + 1 ∧ t.resync = false ∧
      t.termSc = decide (i + 1 < units.length) ∧ t.eos = decide (i + 1 = units.length) ∧
      t.srcPos = (streamOf (units.take (i + 1))).length) ∧
    ∃ t, issue (List.replicate (units.length + 1) .nextNal) s = .next t ∧ t.completion = some (.ok 0x40) ∧
      t.err = 0 ∧ t.bNal = [] ∧ t.dmNalType = 0x40 ∧ t.dmScLen = 0 ∧ t.dmFlags = 1 ∧ t.res = 0x40 ∧
      t.srcPos = s.params.srcBytes.length
end

