-- ==== Sys2Proof/Laws/State.lean ====
section
/-!
SUPPORT. What each named update of the state does to each field, one lemma a field; every other lemma about an update follows
from these.
-/

namespace Sys2Proof.Machine

/-! ### `complete` -/

@[simp] theorem complete_bNal (s : State) (c : Completion) : (s.complete c).bNal = s.bNal := rfl
@[simp] theorem complete_bRbsp (s : State) (c : Completion) : (s.complete c).bRbsp = s.bRbsp := rfl
@[simp] theorem complete_bBs (s : State) (c : Completion) : (s.complete c).bBs = s.bBs := rfl
@[simp] theorem complete_bX (s : State) (c : Completion) : (s.complete c).bX = s.bX := rfl
@[simp] theorem complete_bCur (s : State) (c : Completion) : (s.complete c).bCur = s.bCur := rfl
@[simp] theorem complete_bcPos (s : State) (c : Completion) : (s.complete c).bcPos = s.bcPos := rfl
@[simp] theorem complete_bcMode (s : State) (c : Completion) : (s.complete c).bcMode = s.bcMode := rfl
@[simp] theorem complete_res (s : State) (c : Completion) : (s.complete c).res = s.res := rfl
@[simp] theorem complete_err (s : State) (c : Completion) : (s.complete c).err = s.err := rfl
@[simp] theorem complete_dmNalType (s : State) (c : Completion) : (s.complete c).dmNalType = s.dmNalType := rfl
@[simp] theorem complete_dmScLen (s : State) (c : Completion) : (s.complete c).dmScLen = s.dmScLen := rfl
@[simp] theorem complete_dmFlags (s : State) (c : Completion) : (s.complete c).dmFlags = s.dmFlags := rfl
@[simp] theorem complete_trScLen (s : State) (c : Completion) : (s.complete c).trScLen = s.trScLen := rfl
@[simp] theorem complete_srcPos (s : State) (c : Completion) : (s.complete c).srcPos = s.srcPos := rfl
@[simp] theorem complete_params (s : State) (c : Completion) : (s.complete c).params = s.params := rfl
@[simp] theorem complete_commands (s : State) (c : Completion) : (s.complete c).commands = s.commands := rfl
@[simp] theorem complete_completion (s : State) (c : Completion) : (s.complete c).completion = some c := rfl

/-! ### `finish` -/

@[simp] theorem finish_bNal (s : State) : (s.finish).bNal = s.bNal := rfl
@[simp] theorem finish_bRbsp (s : State) : (s.finish).bRbsp = s.bRbsp := rfl
@[simp] theorem finish_bBs (s : State) : (s.finish).bBs = s.bBs := rfl
@[simp] theorem finish_bX (s : State) : (s.finish).bX = s.bX := rfl
@[simp] theorem finish_bCur (s : State) : (s.finish).bCur = s.bCur := rfl
@[simp] theorem finish_bcPos (s : State) : (s.finish).bcPos = s.bcPos := rfl
@[simp] theorem finish_bcMode (s : State) : (s.finish).bcMode = s.bcMode := rfl
@[simp] theorem finish_res (s : State) : (s.finish).res = s.res := rfl
@[simp] theorem finish_err (s : State) : (s.finish).err = s.err := rfl
@[simp] theorem finish_dmNalType (s : State) : (s.finish).dmNalType = s.dmNalType := rfl
@[simp] theorem finish_dmScLen (s : State) : (s.finish).dmScLen = s.dmScLen := rfl
@[simp] theorem finish_dmFlags (s : State) : (s.finish).dmFlags = s.dmFlags := rfl
@[simp] theorem finish_trScLen (s : State) : (s.finish).trScLen = s.trScLen := rfl
@[simp] theorem finish_srcPos (s : State) : (s.finish).srcPos = s.srcPos := rfl
@[simp] theorem finish_params (s : State) : (s.finish).params = s.params := rfl
@[simp] theorem finish_commands (s : State) : (s.finish).commands = s.commands := rfl
@[simp] theorem finish_completion (s : State) : (s.finish).completion = some (.ok 0) := rfl

/-! ### `returnValue` -/

@[simp] theorem returnValue_bNal (s : State) (v : Nat) : (s.returnValue v).bNal = s.bNal := rfl
@[simp] theorem returnValue_bRbsp (s : State) (v : Nat) : (s.returnValue v).bRbsp = s.bRbsp := rfl
@[simp] theorem returnValue_bBs (s : State) (v : Nat) : (s.returnValue v).bBs = s.bBs := rfl
@[simp] theorem returnValue_bX (s : State) (v : Nat) : (s.returnValue v).bX = s.bX := rfl
@[simp] theorem returnValue_bCur (s : State) (v : Nat) : (s.returnValue v).bCur = s.bCur := rfl
@[simp] theorem returnValue_bcPos (s : State) (v : Nat) : (s.returnValue v).bcPos = s.bcPos := rfl
@[simp] theorem returnValue_bcMode (s : State) (v : Nat) : (s.returnValue v).bcMode = s.bcMode := rfl
@[simp] theorem returnValue_res (s : State) (v : Nat) : (s.returnValue v).res = v := rfl
@[simp] theorem returnValue_err (s : State) (v : Nat) : (s.returnValue v).err = s.err := rfl
@[simp] theorem returnValue_dmNalType (s : State) (v : Nat) : (s.returnValue v).dmNalType = s.dmNalType := rfl
@[simp] theorem returnValue_dmScLen (s : State) (v : Nat) : (s.returnValue v).dmScLen = s.dmScLen := rfl
@[simp] theorem returnValue_dmFlags (s : State) (v : Nat) : (s.returnValue v).dmFlags = s.dmFlags := rfl
@[simp] theorem returnValue_trScLen (s : State) (v : Nat) : (s.returnValue v).trScLen = s.trScLen := rfl
@[simp] theorem returnValue_srcPos (s : State) (v : Nat) : (s.returnValue v).srcPos = s.srcPos := rfl
@[simp] theorem returnValue_params (s : State) (v : Nat) : (s.returnValue v).params = s.params := rfl
@[simp] theorem returnValue_commands (s : State) (v : Nat) : (s.returnValue v).commands = s.commands := rfl
@[simp] theorem returnValue_completion (s : State) (v : Nat) : (s.returnValue v).completion = some (.ok v) := rfl

/-! ### `refuse` -/

@[simp] theorem refuse_bNal (s : State) : (s.refuse).bNal = s.bNal := rfl
@[simp] theorem refuse_bRbsp (s : State) : (s.refuse).bRbsp = s.bRbsp := rfl
@[simp] theorem refuse_bBs (s : State) : (s.refuse).bBs = s.bBs := rfl
@[simp] theorem refuse_bX (s : State) : (s.refuse).bX = s.bX := rfl
@[simp] theorem refuse_bCur (s : State) : (s.refuse).bCur = s.bCur := rfl
@[simp] theorem refuse_bcPos (s : State) : (s.refuse).bcPos = s.bcPos := rfl
@[simp] theorem refuse_bcMode (s : State) : (s.refuse).bcMode = s.bcMode := rfl
@[simp] theorem refuse_res (s : State) : (s.refuse).res = s.res := rfl
@[simp] theorem refuse_err (s : State) : (s.refuse).err = s.err := rfl
@[simp] theorem refuse_dmNalType (s : State) : (s.refuse).dmNalType = s.dmNalType := rfl
@[simp] theorem refuse_dmScLen (s : State) : (s.refuse).dmScLen = s.dmScLen := rfl
@[simp] theorem refuse_dmFlags (s : State) : (s.refuse).dmFlags = s.dmFlags := rfl
@[simp] theorem refuse_trScLen (s : State) : (s.refuse).trScLen = s.trScLen := rfl
@[simp] theorem refuse_srcPos (s : State) : (s.refuse).srcPos = s.srcPos := rfl
@[simp] theorem refuse_params (s : State) : (s.refuse).params = s.params := rfl
@[simp] theorem refuse_commands (s : State) : (s.refuse).commands = s.commands := rfl
@[simp] theorem refuse_completion (s : State) : (s.refuse).completion = some .refused := rfl

/-! ### `takeFault` -/

@[simp] theorem takeFault_bNal (s : State) (k : FaultKind) : (takeFault k s).bNal = s.bNal := rfl
@[simp] theorem takeFault_bRbsp (s : State) (k : FaultKind) : (takeFault k s).bRbsp = s.bRbsp := rfl
@[simp] theorem takeFault_bBs (s : State) (k : FaultKind) : (takeFault k s).bBs = s.bBs := rfl
@[simp] theorem takeFault_bX (s : State) (k : FaultKind) : (takeFault k s).bX = s.bX := rfl
@[simp] theorem takeFault_bCur (s : State) (k : FaultKind) : (takeFault k s).bCur = s.bCur := rfl
@[simp] theorem takeFault_bcPos (s : State) (k : FaultKind) : (takeFault k s).bcPos = s.bcPos := rfl
@[simp] theorem takeFault_bcMode (s : State) (k : FaultKind) : (takeFault k s).bcMode = s.bcMode := rfl
@[simp] theorem takeFault_res (s : State) (k : FaultKind) : (takeFault k s).res = s.res := rfl
@[simp] theorem takeFault_err (s : State) (k : FaultKind) : (takeFault k s).err = k.code := rfl
@[simp] theorem takeFault_dmNalType (s : State) (k : FaultKind) : (takeFault k s).dmNalType = s.dmNalType := rfl
@[simp] theorem takeFault_dmScLen (s : State) (k : FaultKind) : (takeFault k s).dmScLen = s.dmScLen := rfl
@[simp] theorem takeFault_dmFlags (s : State) (k : FaultKind) : (takeFault k s).dmFlags = s.dmFlags := rfl
@[simp] theorem takeFault_trScLen (s : State) (k : FaultKind) : (takeFault k s).trScLen = s.trScLen := rfl
@[simp] theorem takeFault_srcPos (s : State) (k : FaultKind) : (takeFault k s).srcPos = s.srcPos := rfl
@[simp] theorem takeFault_params (s : State) (k : FaultKind) : (takeFault k s).params = s.params := rfl
@[simp] theorem takeFault_commands (s : State) (k : FaultKind) : (takeFault k s).commands = s.commands := rfl
@[simp] theorem takeFault_completion (s : State) (k : FaultKind) : (takeFault k s).completion = some (.fault k) := rfl

/-! ### `resetBlock` -/

@[simp] theorem resetBlock_bNal (s : State) : (s.resetBlock).bNal = [] := rfl
@[simp] theorem resetBlock_bRbsp (s : State) : (s.resetBlock).bRbsp = [] := rfl
@[simp] theorem resetBlock_bBs (s : State) : (s.resetBlock).bBs = [] := rfl
@[simp] theorem resetBlock_bX (s : State) : (s.resetBlock).bX = [] := rfl
@[simp] theorem resetBlock_bCur (s : State) : (s.resetBlock).bCur = [] := rfl
@[simp] theorem resetBlock_bcPos (s : State) : (s.resetBlock).bcPos = 0 := rfl
@[simp] theorem resetBlock_bcMode (s : State) : (s.resetBlock).bcMode = .rd := rfl
@[simp] theorem resetBlock_res (s : State) : (s.resetBlock).res = 0 := rfl
@[simp] theorem resetBlock_err (s : State) : (s.resetBlock).err = 0 := rfl
@[simp] theorem resetBlock_dmNalType (s : State) : (s.resetBlock).dmNalType = invalidNalType := rfl
@[simp] theorem resetBlock_dmScLen (s : State) : (s.resetBlock).dmScLen = 0 := rfl
@[simp] theorem resetBlock_dmFlags (s : State) : (s.resetBlock).dmFlags = 0 := rfl
@[simp] theorem resetBlock_trScLen (s : State) : (s.resetBlock).trScLen = 0 := rfl
@[simp] theorem resetBlock_srcPos (s : State) : (s.resetBlock).srcPos = s.srcPos := rfl
@[simp] theorem resetBlock_params (s : State) : (s.resetBlock).params = s.params := rfl
@[simp] theorem resetBlock_commands (s : State) : (s.resetBlock).commands = s.commands := rfl
@[simp] theorem resetBlock_completion (s : State) : (s.resetBlock).completion = s.completion := rfl

/-! ### `setBX` -/

@[simp] theorem setBX_bNal (s : State) (d : Buffer) : (s.setBX d).bNal = s.bNal := rfl
@[simp] theorem setBX_bRbsp (s : State) (d : Buffer) : (s.setBX d).bRbsp = s.bRbsp := rfl
@[simp] theorem setBX_bBs (s : State) (d : Buffer) : (s.setBX d).bBs = s.bBs := rfl
@[simp] theorem setBX_bX (s : State) (d : Buffer) : (s.setBX d).bX = d := rfl
@[simp] theorem setBX_bCur (s : State) (d : Buffer) : (s.setBX d).bCur = s.bCur := rfl
@[simp] theorem setBX_bcPos (s : State) (d : Buffer) : (s.setBX d).bcPos = s.bcPos := rfl
@[simp] theorem setBX_bcMode (s : State) (d : Buffer) : (s.setBX d).bcMode = s.bcMode := rfl
@[simp] theorem setBX_res (s : State) (d : Buffer) : (s.setBX d).res = s.res := rfl
@[simp] theorem setBX_err (s : State) (d : Buffer) : (s.setBX d).err = s.err := rfl
@[simp] theorem setBX_dmNalType (s : State) (d : Buffer) : (s.setBX d).dmNalType = s.dmNalType := rfl
@[simp] theorem setBX_dmScLen (s : State) (d : Buffer) : (s.setBX d).dmScLen = s.dmScLen := rfl
@[simp] theorem setBX_dmFlags (s : State) (d : Buffer) : (s.setBX d).dmFlags = s.dmFlags := rfl
@[simp] theorem setBX_trScLen (s : State) (d : Buffer) : (s.setBX d).trScLen = s.trScLen := rfl
@[simp] theorem setBX_srcPos (s : State) (d : Buffer) : (s.setBX d).srcPos = s.srcPos := rfl
@[simp] theorem setBX_params (s : State) (d : Buffer) : (s.setBX d).params = s.params := rfl
@[simp] theorem setBX_commands (s : State) (d : Buffer) : (s.setBX d).commands = s.commands := rfl
@[simp] theorem setBX_completion (s : State) (d : Buffer) : (s.setBX d).completion = s.completion := rfl

/-! ### `setBBs` -/

@[simp] theorem setBBs_bNal (s : State) (d : Buffer) : (s.setBBs d).bNal = s.bNal := rfl
@[simp] theorem setBBs_bRbsp (s : State) (d : Buffer) : (s.setBBs d).bRbsp = s.bRbsp := rfl
@[simp] theorem setBBs_bBs (s : State) (d : Buffer) : (s.setBBs d).bBs = d := rfl
@[simp] theorem setBBs_bX (s : State) (d : Buffer) : (s.setBBs d).bX = s.bX := rfl
@[simp] theorem setBBs_bCur (s : State) (d : Buffer) : (s.setBBs d).bCur = s.bCur := rfl
@[simp] theorem setBBs_bcPos (s : State) (d : Buffer) : (s.setBBs d).bcPos = s.bcPos := rfl
@[simp] theorem setBBs_bcMode (s : State) (d : Buffer) : (s.setBBs d).bcMode = s.bcMode := rfl
@[simp] theorem setBBs_res (s : State) (d : Buffer) : (s.setBBs d).res = s.res := rfl
@[simp] theorem setBBs_err (s : State) (d : Buffer) : (s.setBBs d).err = s.err := rfl
@[simp] theorem setBBs_dmNalType (s : State) (d : Buffer) : (s.setBBs d).dmNalType = s.dmNalType := rfl
@[simp] theorem setBBs_dmScLen (s : State) (d : Buffer) : (s.setBBs d).dmScLen = s.dmScLen := rfl
@[simp] theorem setBBs_dmFlags (s : State) (d : Buffer) : (s.setBBs d).dmFlags = s.dmFlags := rfl
@[simp] theorem setBBs_trScLen (s : State) (d : Buffer) : (s.setBBs d).trScLen = s.trScLen := rfl
@[simp] theorem setBBs_srcPos (s : State) (d : Buffer) : (s.setBBs d).srcPos = s.srcPos := rfl
@[simp] theorem setBBs_params (s : State) (d : Buffer) : (s.setBBs d).params = s.params := rfl
@[simp] theorem setBBs_commands (s : State) (d : Buffer) : (s.setBBs d).commands = s.commands := rfl
@[simp] theorem setBBs_completion (s : State) (d : Buffer) : (s.setBBs d).completion = s.completion := rfl

/-! ### `setRbsp` -/

@[simp] theorem setRbsp_bNal (s : State) (d : Buffer) (n : Nat) : (s.setRbsp d n).bNal = s.bNal := rfl
@[simp] theorem setRbsp_bRbsp (s : State) (d : Buffer) (n : Nat) : (s.setRbsp d n).bRbsp = d := rfl
@[simp] theorem setRbsp_bBs (s : State) (d : Buffer) (n : Nat) : (s.setRbsp d n).bBs = s.bBs := rfl
@[simp] theorem setRbsp_bX (s : State) (d : Buffer) (n : Nat) : (s.setRbsp d n).bX = s.bX := rfl
@[simp] theorem setRbsp_bCur (s : State) (d : Buffer) (n : Nat) : (s.setRbsp d n).bCur = s.bCur := rfl
@[simp] theorem setRbsp_bcPos (s : State) (d : Buffer) (n : Nat) : (s.setRbsp d n).bcPos = s.bcPos := rfl
@[simp] theorem setRbsp_bcMode (s : State) (d : Buffer) (n : Nat) : (s.setRbsp d n).bcMode = s.bcMode := rfl
@[simp] theorem setRbsp_res (s : State) (d : Buffer) (n : Nat) : (s.setRbsp d n).res = s.res := rfl
@[simp] theorem setRbsp_err (s : State) (d : Buffer) (n : Nat) : (s.setRbsp d n).err = s.err := rfl
@[simp] theorem setRbsp_dmNalType (s : State) (d : Buffer) (n : Nat) : (s.setRbsp d n).dmNalType = s.dmNalType := rfl
@[simp] theorem setRbsp_dmScLen (s : State) (d : Buffer) (n : Nat) : (s.setRbsp d n).dmScLen = s.dmScLen := rfl
@[simp] theorem setRbsp_dmFlags (s : State) (d : Buffer) (n : Nat) : (s.setRbsp d n).dmFlags = s.dmFlags := rfl
@[simp] theorem setRbsp_trScLen (s : State) (d : Buffer) (n : Nat) : (s.setRbsp d n).trScLen = n := rfl
@[simp] theorem setRbsp_srcPos (s : State) (d : Buffer) (n : Nat) : (s.setRbsp d n).srcPos = s.srcPos := rfl
@[simp] theorem setRbsp_params (s : State) (d : Buffer) (n : Nat) : (s.setRbsp d n).params = s.params := rfl
@[simp] theorem setRbsp_commands (s : State) (d : Buffer) (n : Nat) : (s.setRbsp d n).commands = s.commands := rfl
@[simp] theorem setRbsp_completion (s : State) (d : Buffer) (n : Nat) : (s.setRbsp d n).completion = s.completion := rfl

/-! ### `attachCursor` -/

@[simp] theorem attachCursor_bNal (s : State) (d : Buffer) (m : CursorMode) : (s.attachCursor d m).bNal = s.bNal := rfl
@[simp] theorem attachCursor_bRbsp (s : State) (d : Buffer) (m : CursorMode) : (s.attachCursor d m).bRbsp = s.bRbsp := rfl
@[simp] theorem attachCursor_bBs (s : State) (d : Buffer) (m : CursorMode) : (s.attachCursor d m).bBs = s.bBs := rfl
@[simp] theorem attachCursor_bX (s : State) (d : Buffer) (m : CursorMode) : (s.attachCursor d m).bX = s.bX := rfl
@[simp] theorem attachCursor_bCur (s : State) (d : Buffer) (m : CursorMode) : (s.attachCursor d m).bCur = d := rfl
@[simp] theorem attachCursor_bcPos (s : State) (d : Buffer) (m : CursorMode) : (s.attachCursor d m).bcPos = (match m with | .rd => 0 | .wr => 8 * d.length) := rfl
@[simp] theorem attachCursor_bcMode (s : State) (d : Buffer) (m : CursorMode) : (s.attachCursor d m).bcMode = m := rfl
@[simp] theorem attachCursor_res (s : State) (d : Buffer) (m : CursorMode) : (s.attachCursor d m).res = s.res := rfl
@[simp] theorem attachCursor_err (s : State) (d : Buffer) (m : CursorMode) : (s.attachCursor d m).err = s.err := rfl
@[simp] theorem attachCursor_dmNalType (s : State) (d : Buffer) (m : CursorMode) : (s.attachCursor d m).dmNalType = s.dmNalType := rfl
@[simp] theorem attachCursor_dmScLen (s : State) (d : Buffer) (m : CursorMode) : (s.attachCursor d m).dmScLen = s.dmScLen := rfl
@[simp] theorem attachCursor_dmFlags (s : State) (d : Buffer) (m : CursorMode) : (s.attachCursor d m).dmFlags = s.dmFlags := rfl
@[simp] theorem attachCursor_trScLen (s : State) (d : Buffer) (m : CursorMode) : (s.attachCursor d m).trScLen = s.trScLen := rfl
@[simp] theorem attachCursor_srcPos (s : State) (d : Buffer) (m : CursorMode) : (s.attachCursor d m).srcPos = s.srcPos := rfl
@[simp] theorem attachCursor_params (s : State) (d : Buffer) (m : CursorMode) : (s.attachCursor d m).params = s.params := rfl
@[simp] theorem attachCursor_commands (s : State) (d : Buffer) (m : CursorMode) : (s.attachCursor d m).commands = s.commands := rfl
@[simp] theorem attachCursor_completion (s : State) (d : Buffer) (m : CursorMode) : (s.attachCursor d m).completion = s.completion := rfl

/-! ### `moveCursor` -/

@[simp] theorem moveCursor_bNal (s : State) (n : Nat) : (s.moveCursor n).bNal = s.bNal := rfl
@[simp] theorem moveCursor_bRbsp (s : State) (n : Nat) : (s.moveCursor n).bRbsp = s.bRbsp := rfl
@[simp] theorem moveCursor_bBs (s : State) (n : Nat) : (s.moveCursor n).bBs = s.bBs := rfl
@[simp] theorem moveCursor_bX (s : State) (n : Nat) : (s.moveCursor n).bX = s.bX := rfl
@[simp] theorem moveCursor_bCur (s : State) (n : Nat) : (s.moveCursor n).bCur = s.bCur := rfl
@[simp] theorem moveCursor_bcPos (s : State) (n : Nat) : (s.moveCursor n).bcPos = n := rfl
@[simp] theorem moveCursor_bcMode (s : State) (n : Nat) : (s.moveCursor n).bcMode = s.bcMode := rfl
@[simp] theorem moveCursor_res (s : State) (n : Nat) : (s.moveCursor n).res = s.res := rfl
@[simp] theorem moveCursor_err (s : State) (n : Nat) : (s.moveCursor n).err = s.err := rfl
@[simp] theorem moveCursor_dmNalType (s : State) (n : Nat) : (s.moveCursor n).dmNalType = s.dmNalType := rfl
@[simp] theorem moveCursor_dmScLen (s : State) (n : Nat) : (s.moveCursor n).dmScLen = s.dmScLen := rfl
@[simp] theorem moveCursor_dmFlags (s : State) (n : Nat) : (s.moveCursor n).dmFlags = s.dmFlags := rfl
@[simp] theorem moveCursor_trScLen (s : State) (n : Nat) : (s.moveCursor n).trScLen = s.trScLen := rfl
@[simp] theorem moveCursor_srcPos (s : State) (n : Nat) : (s.moveCursor n).srcPos = s.srcPos := rfl
@[simp] theorem moveCursor_params (s : State) (n : Nat) : (s.moveCursor n).params = s.params := rfl
@[simp] theorem moveCursor_commands (s : State) (n : Nat) : (s.moveCursor n).commands = s.commands := rfl
@[simp] theorem moveCursor_completion (s : State) (n : Nat) : (s.moveCursor n).completion = s.completion := rfl

/-! ### `setCursor` -/

@[simp] theorem setCursor_bNal (s : State) (d : Buffer) (n : Nat) : (s.setCursor d n).bNal = s.bNal := rfl
@[simp] theorem setCursor_bRbsp (s : State) (d : Buffer) (n : Nat) : (s.setCursor d n).bRbsp = s.bRbsp := rfl
@[simp] theorem setCursor_bBs (s : State) (d : Buffer) (n : Nat) : (s.setCursor d n).bBs = s.bBs := rfl
@[simp] theorem setCursor_bX (s : State) (d : Buffer) (n : Nat) : (s.setCursor d n).bX = s.bX := rfl
@[simp] theorem setCursor_bCur (s : State) (d : Buffer) (n : Nat) : (s.setCursor d n).bCur = d := rfl
@[simp] theorem setCursor_bcPos (s : State) (d : Buffer) (n : Nat) : (s.setCursor d n).bcPos = n := rfl
@[simp] theorem setCursor_bcMode (s : State) (d : Buffer) (n : Nat) : (s.setCursor d n).bcMode = s.bcMode := rfl
@[simp] theorem setCursor_res (s : State) (d : Buffer) (n : Nat) : (s.setCursor d n).res = s.res := rfl
@[simp] theorem setCursor_err (s : State) (d : Buffer) (n : Nat) : (s.setCursor d n).err = s.err := rfl
@[simp] theorem setCursor_dmNalType (s : State) (d : Buffer) (n : Nat) : (s.setCursor d n).dmNalType = s.dmNalType := rfl
@[simp] theorem setCursor_dmScLen (s : State) (d : Buffer) (n : Nat) : (s.setCursor d n).dmScLen = s.dmScLen := rfl
@[simp] theorem setCursor_dmFlags (s : State) (d : Buffer) (n : Nat) : (s.setCursor d n).dmFlags = s.dmFlags := rfl
@[simp] theorem setCursor_trScLen (s : State) (d : Buffer) (n : Nat) : (s.setCursor d n).trScLen = s.trScLen := rfl
@[simp] theorem setCursor_srcPos (s : State) (d : Buffer) (n : Nat) : (s.setCursor d n).srcPos = s.srcPos := rfl
@[simp] theorem setCursor_params (s : State) (d : Buffer) (n : Nat) : (s.setCursor d n).params = s.params := rfl
@[simp] theorem setCursor_commands (s : State) (d : Buffer) (n : Nat) : (s.setCursor d n).commands = s.commands := rfl
@[simp] theorem setCursor_completion (s : State) (d : Buffer) (n : Nat) : (s.setCursor d n).completion = s.completion := rfl

/-! ### `moveSource` -/

@[simp] theorem moveSource_bNal (s : State) (n : Nat) : (s.moveSource n).bNal = s.bNal := rfl
@[simp] theorem moveSource_bRbsp (s : State) (n : Nat) : (s.moveSource n).bRbsp = s.bRbsp := rfl
@[simp] theorem moveSource_bBs (s : State) (n : Nat) : (s.moveSource n).bBs = s.bBs := rfl
@[simp] theorem moveSource_bX (s : State) (n : Nat) : (s.moveSource n).bX = s.bX := rfl
@[simp] theorem moveSource_bCur (s : State) (n : Nat) : (s.moveSource n).bCur = s.bCur := rfl
@[simp] theorem moveSource_bcPos (s : State) (n : Nat) : (s.moveSource n).bcPos = s.bcPos := rfl
@[simp] theorem moveSource_bcMode (s : State) (n : Nat) : (s.moveSource n).bcMode = s.bcMode := rfl
@[simp] theorem moveSource_res (s : State) (n : Nat) : (s.moveSource n).res = s.res := rfl
@[simp] theorem moveSource_err (s : State) (n : Nat) : (s.moveSource n).err = s.err := rfl
@[simp] theorem moveSource_dmNalType (s : State) (n : Nat) : (s.moveSource n).dmNalType = s.dmNalType := rfl
@[simp] theorem moveSource_dmScLen (s : State) (n : Nat) : (s.moveSource n).dmScLen = s.dmScLen := rfl
@[simp] theorem moveSource_dmFlags (s : State) (n : Nat) : (s.moveSource n).dmFlags = s.dmFlags := rfl
@[simp] theorem moveSource_trScLen (s : State) (n : Nat) : (s.moveSource n).trScLen = s.trScLen := rfl
@[simp] theorem moveSource_srcPos (s : State) (n : Nat) : (s.moveSource n).srcPos = n := rfl
@[simp] theorem moveSource_params (s : State) (n : Nat) : (s.moveSource n).params = s.params := rfl
@[simp] theorem moveSource_commands (s : State) (n : Nat) : (s.moveSource n).commands = s.commands := rfl
@[simp] theorem moveSource_completion (s : State) (n : Nat) : (s.moveSource n).completion = s.completion := rfl

/-! ### `deliver` -/

@[simp] theorem deliver_bNal (s : State) (d : Buffer) (n : Nat) (e r t : Bool) : (s.deliver d n e r t).bNal = d := rfl
@[simp] theorem deliver_bRbsp (s : State) (d : Buffer) (n : Nat) (e r t : Bool) : (s.deliver d n e r t).bRbsp = s.bRbsp := rfl
@[simp] theorem deliver_bBs (s : State) (d : Buffer) (n : Nat) (e r t : Bool) : (s.deliver d n e r t).bBs = s.bBs := rfl
@[simp] theorem deliver_bX (s : State) (d : Buffer) (n : Nat) (e r t : Bool) : (s.deliver d n e r t).bX = s.bX := rfl
@[simp] theorem deliver_bCur (s : State) (d : Buffer) (n : Nat) (e r t : Bool) : (s.deliver d n e r t).bCur = s.bCur := rfl
@[simp] theorem deliver_bcPos (s : State) (d : Buffer) (n : Nat) (e r t : Bool) : (s.deliver d n e r t).bcPos = s.bcPos := rfl
@[simp] theorem deliver_bcMode (s : State) (d : Buffer) (n : Nat) (e r t : Bool) : (s.deliver d n e r t).bcMode = s.bcMode := rfl
@[simp] theorem deliver_res (s : State) (d : Buffer) (n : Nat) (e r t : Bool) : (s.deliver d n e r t).res = (nalTypeOf d).toNat := rfl
@[simp] theorem deliver_err (s : State) (d : Buffer) (n : Nat) (e r t : Bool) : (s.deliver d n e r t).err = s.err := rfl
@[simp] theorem deliver_dmNalType (s : State) (d : Buffer) (n : Nat) (e r t : Bool) : (s.deliver d n e r t).dmNalType = nalTypeOf d := rfl
@[simp] theorem deliver_dmScLen (s : State) (d : Buffer) (n : Nat) (e r t : Bool) : (s.deliver d n e r t).dmScLen = n := rfl
@[simp] theorem deliver_dmFlags (s : State) (d : Buffer) (n : Nat) (e r t : Bool) : (s.deliver d n e r t).dmFlags = packDmFlags e r t := rfl
@[simp] theorem deliver_trScLen (s : State) (d : Buffer) (n : Nat) (e r t : Bool) : (s.deliver d n e r t).trScLen = s.trScLen := rfl
@[simp] theorem deliver_srcPos (s : State) (d : Buffer) (n : Nat) (e r t : Bool) : (s.deliver d n e r t).srcPos = s.srcPos := rfl
@[simp] theorem deliver_params (s : State) (d : Buffer) (n : Nat) (e r t : Bool) : (s.deliver d n e r t).params = s.params := rfl
@[simp] theorem deliver_commands (s : State) (d : Buffer) (n : Nat) (e r t : Bool) : (s.deliver d n e r t).commands = s.commands := rfl
@[simp] theorem deliver_completion (s : State) (d : Buffer) (n : Nat) (e r t : Bool) : (s.deliver d n e r t).completion = some (.ok (nalTypeOf d).toNat) := rfl

end Sys2Proof.Machine
end

