-- ==== Sys2Proof/Laws/Ops.lean ====
section
/-!
SUPPORT. One lemma for each shared operation of Ops and Flags saying what it can do: how a command ends, limits, the packed
registers, the Byte Source's calls, the next command word.
-/

namespace Sys2Proof.Machine

/-! ### Faulted -/

theorem isFaulted_iff (s : State) : s.isFaulted = true ↔ s.err ≠ 0 := by simp [State.isFaulted]

@[simp] theorem isFaulted_of_zero {s : State} (h : s.err = 0) : s.isFaulted = false := by simp [State.isFaulted, h]

theorem isFaulted_of_ne {s : State} (h : s.err ≠ 0) : s.isFaulted = true := (isFaulted_iff s).2 h

/-- Every kind has a code from 1 to 5 (R232). -/
theorem FaultKind_code_range (k : FaultKind) : k.code ≠ 0 ∧ k.code.toNat ≤ 5 := by cases k <;> decide

/-- A code tells its kind. -/
theorem FaultKind_code_injective {k l : FaultKind} (h : k.code = l.code) : k = l := by
  revert h; cases k <;> cases l <;> decide

/-! ### How a command ends -/

theorem runCommand_ok {s t : State} (h : s.err = 0) : runCommand s (.ok t) = .next t := by simp [runCommand, h]

theorem runCommand_error {s : State} {k : FaultKind} (h : s.err = 0) :
    runCommand s (.error k) = .next (takeFault k s) := by simp [runCommand, h]

theorem runCommand_faulted {s : State} {body : Except FaultKind State} (h : s.err ≠ 0) :
    runCommand s body = .next s.refuse := by simp [runCommand, isFaulted_of_ne h]

/-- Everything `runCommand` can answer. -/
theorem runCommand_cases {s t : State} {body : Except FaultKind State} (h : runCommand s body = .next t) :
    (s.err ≠ 0 ∧ t = s.refuse) ∨ (s.err = 0 ∧ body = .ok t) ∨ ∃ k, s.err = 0 ∧ body = .error k ∧ t = takeFault k s := by
  by_cases he : s.err = 0
  · cases body with
    | ok u => rw [runCommand_ok he] at h; cases h; exact .inr (.inl ⟨he, rfl⟩)
    | error k => rw [runCommand_error he] at h; cases h; exact .inr (.inr ⟨k, he, rfl, rfl⟩)
  · rw [runCommand_faulted he] at h; cases h; exact .inl ⟨he, rfl⟩

/-- `runCommand` always answers a next state. -/
theorem runCommand_next (s : State) (body : Except FaultKind State) : ∃ t, runCommand s body = .next t := by
  by_cases he : s.err = 0
  · cases body with
    | ok u => exact ⟨_, runCommand_ok he⟩
    | error k => exact ⟨_, runCommand_error he⟩
  · exact ⟨_, runCommand_faulted he⟩

/-! ### Limits -/

@[simp] theorem withinLimit_none (n : Nat) : withinLimit none n = true := rfl
@[simp] theorem withinLimit_some (c n : Nat) : withinLimit (some c) n = decide (n ≤ c) := rfl

theorem withinLimit_mono {cap : Option Nat} {m n : Nat} (hmn : m ≤ n) (h : withinLimit cap n = true) :
    withinLimit cap m = true := by
  cases cap with
  | none => rfl
  | some c => simp at h ⊢; omega

/-- The empty buffer fits every capacity. -/
@[simp] theorem withinLimit_zero (cap : Option Nat) : withinLimit cap 0 = true := by cases cap <;> simp

/-! ### Packed registers -/

@[simp] theorem packDmFlags_eos (e r t : Bool) : (packDmFlags e r t).getLsbD 0 = e := by cases e <;> cases r <;> cases t <;> rfl
@[simp] theorem packDmFlags_resync (e r t : Bool) : (packDmFlags e r t).getLsbD 1 = r := by cases e <;> cases r <;> cases t <;> rfl
@[simp] theorem packDmFlags_termSc (e r t : Bool) : (packDmFlags e r t).getLsbD 2 = t := by cases e <;> cases r <;> cases t <;> rfl

/-- `DM_FLAGS = EOS + 2·RESYNC + 4·TERM_SC` (R212). -/
theorem packDmFlags_toNat (e r t : Bool) : (packDmFlags e r t).toNat = e.toNat + 2 * r.toNat + 4 * t.toNat := by
  cases e <;> cases r <;> cases t <;> rfl

/-- The type formula in numbers (R84). -/
theorem nalUnitType_toNat (h0 : Byte) : (nalUnitType h0).toNat = h0.toNat / 2 % 64 := by
  have h := Nat.and_two_pow_sub_one_eq_mod (h0.toNat / 2) 6
  simpa [nalUnitType, BitVec.toNat_ushiftRight, Nat.shiftRight_eq_div_pow] using h

theorem nalTypeOf_cons_toNat (h0 : Byte) (rest : Buffer) : (nalTypeOf (h0 :: rest)).toNat = h0.toNat / 2 % 64 := by
  have h := nalUnitType_toNat h0
  simp only [nalTypeOf, BitVec.toNat_setWidth, h]
  omega

/-- `INVALID` is set exactly for the empty NAL unit (R31). -/
theorem nalTypeOf_invalid_iff (nal : Buffer) : (nalTypeOf nal).getLsbD 6 = true ↔ nal = [] := by
  cases nal with
  | nil => simp [nalTypeOf, invalidNalType]
  | cons h0 rest =>
    have h := nalTypeOf_cons_toNat h0 rest
    have h2 : (nalTypeOf (h0 :: rest)).toNat.testBit 6 = false := by
      rw [h]; exact Nat.testBit_lt_two_pow (by omega)
    simp only [BitVec.getLsbD, h2]
    simp

/-! ### The Byte Source's calls -/

theorem srcEof_iff (p : Config.Params) (pos : Nat) : srcEof p pos = true ↔ p.srcBytes.length ≤ pos := by simp [srcEof]

/-- A byte that remains is returned and passed (R57). -/
theorem srcGetNextByte_of_getElem? {p : Config.Params} {pos : Nat} {b : Byte} (h : p.srcBytes[pos]? = some b) :
    srcGetNextByte p pos = (b, pos + 1) := by simp [srcGetNextByte, h]

/-- With no unread byte the call answers 0 and does not move (R57). -/
theorem srcGetNextByte_at_end {p : Config.Params} {pos : Nat} (h : p.srcBytes.length ≤ pos) :
    srcGetNextByte p pos = (0x00, pos) := by
  simp [srcGetNextByte, List.getElem?_eq_none h]

/-- Everything a rewind can do (R58). -/
theorem srcRewind_eq_some {p : Config.Params} {pos n back : Nat} :
    srcRewind p pos n = some back ↔ withinLimit p.rewindWindow n = true ∧ n ≤ pos ∧ back = pos - n := by
  unfold srcRewind
  split
  · rename_i h
    simp only [Bool.and_eq_true, decide_eq_true_eq] at h
    simp only [Option.some.injEq, h.1, h.2, true_and]
    exact eq_comm
  · rename_i h
    simp only [Bool.and_eq_true, decide_eq_true_eq] at h
    simp only [reduceCtorEq, false_iff]
    exact fun hc => h ⟨hc.1, hc.2.1⟩

theorem srcRewind_eq_none {p : Config.Params} {pos n : Nat} :
    srcRewind p pos n = none ↔ withinLimit p.rewindWindow n = false ∨ pos < n := by
  unfold srcRewind
  split
  · rename_i h
    simp only [Bool.and_eq_true, decide_eq_true_eq] at h
    simp only [reduceCtorEq, false_iff, h.1, Bool.true_eq_false, false_or]
    omega
  · rename_i h
    simp only [Bool.and_eq_true, decide_eq_true_eq, not_and_or, Bool.not_eq_true] at h
    simp only [true_iff]
    exact h.imp id (by omega)

/-! ### The next command word -/

@[simp] theorem fetchCommand_nil {s : State} (h : s.commands = []) : fetchCommand s = none := by simp [fetchCommand, h]
@[simp] theorem fetchCommand_cons {s : State} {w : Word} {rest : List Word} (h : s.commands = w :: rest) :
    fetchCommand s = some (w, { s with commands := rest }) := by simp [fetchCommand, h]

end Sys2Proof.Machine
end

