-- ==== Sys2Proof/Laws/Bits.lean ====
section
/-!
SUPPORT. The bit level of the cursor: what a field read gives, what the prefix scan finds, what appending bits does to the
buffer and when it faults, and that reading the bits of a written value gives the value.
-/

namespace Sys2Proof.Machine

/-! ### Fields -/

theorem readField_lt (buf : Buffer) (p n : Nat) : readField buf p n < 2 ^ n := by
  induction n with
  | zero => simp [readField]
  | succ n ih =>
    have : (bitAt buf (p + n)).toNat ≤ 1 := Bool.toNat_le _
    simp only [readField, pow_succ]; omega

/-- A field is its first part followed by its second (R129 item 1). -/
theorem readField_add (buf : Buffer) (p a b : Nat) :
    readField buf p (a + b) = readField buf p a * 2 ^ b + readField buf (p + a) b := by
  induction b with
  | zero => simp [readField]
  | succ b ih => rw [← Nat.add_assoc]; simp only [readField, ih, pow_succ, ← Nat.add_assoc]; ring

/-- A field depends on its own bits only. -/
theorem readField_congr {buf buf' : Buffer} {p p' n : Nat} (h : ∀ i < n, bitAt buf (p + i) = bitAt buf' (p' + i)) :
    readField buf p n = readField buf' p' n := by
  induction n with
  | zero => rfl
  | succ n ih => simp only [readField, ih fun i hi => h i (by omega), h n (by omega)]

/-- A field whose bits are those of `v` has the value `v mod 2^n`. -/
theorem readField_eq_mod {buf : Buffer} {p n v : Nat} (h : ∀ i < n, bitAt buf (p + i) = v.testBit (n - 1 - i)) :
    readField buf p n = v % 2 ^ n := by
  induction n generalizing v with
  | zero => simp [readField, Nat.mod_one]
  | succ n ih =>
    have h1 : readField buf p n = v / 2 % 2 ^ n := by
      refine ih fun i hi => ?_
      rw [h i (by omega), Nat.testBit_div_two, show n + 1 - 1 - i = n - 1 - i + 1 by omega]
    have h2 : (bitAt buf (p + n)).toNat = v % 2 := by
      rw [h n (by omega)]; simp only [Nat.add_sub_cancel, Nat.sub_self, Nat.testBit_zero]
      rcases Nat.mod_two_eq_zero_or_one v with h | h <;> simp [h]
    simp only [readField, h1, h2, Nat.pow_succ']
    rw [Nat.mod_mul]; omega

/-! ### The prefix scan -/

/-- The scan answers a prefix length exactly when the zeros from `lz` up to it and the 1 after them are there and fewer than
`left` zeros follow `lz`. -/
theorem scanPrefix_eq_ok {buf : Buffer} {pos left lz z : Nat} :
    scanPrefix buf pos left lz = .ok z ↔
      lz ≤ z ∧ z < lz + left ∧ pos + z < 8 * buf.length ∧ (∀ i, lz ≤ i → i < z → bitAt buf (pos + i) = false) ∧
        bitAt buf (pos + z) = true := by
  induction left generalizing lz with
  | zero => simp only [scanPrefix, reduceCtorEq, false_iff]; rintro ⟨_, _, _⟩; omega
  | succ left ih =>
    unfold scanPrefix
    split
    · split
      · rename_i h1 h2
        constructor
        · intro h; cases h; exact ⟨le_rfl, by omega, h1, fun i _ _ => by omega, h2⟩
        · rintro ⟨h3, _, _, h4, _⟩
          by_cases hz : z = lz
          · rw [hz]
          · simp [h4 lz le_rfl (by omega)] at h2
      · rename_i h1 h2
        rw [ih]
        constructor
        · rintro ⟨h3, h4, h5, h6, h7⟩
          refine ⟨by omega, by omega, h5, fun i hi hz => ?_, h7⟩
          by_cases hl : i = lz
          · subst hl; simpa using h2
          · exact h6 i (by omega) hz
        · rintro ⟨h3, h4, h5, h6, h7⟩
          have : z ≠ lz := by rintro rfl; exact h2 h7
          exact ⟨by omega, by omega, h5, fun i hi hz => h6 i (by omega) hz, h7⟩
    · simp only [reduceCtorEq, false_iff]; rintro ⟨_, _, _, _, _⟩; omega

/-- The scan meets the end of the buffer first exactly when, after fewer than `left` zeros, no bit is left. -/
theorem scanPrefix_eq_underrun {buf : Buffer} {pos left lz : Nat} :
    scanPrefix buf pos left lz = .error .bufferUnderrun ↔
      ∃ z, lz ≤ z ∧ z < lz + left ∧ 8 * buf.length ≤ pos + z ∧
        ∀ i, lz ≤ i → i < z → pos + i < 8 * buf.length ∧ bitAt buf (pos + i) = false := by
  induction left generalizing lz with
  | zero =>
    simp only [scanPrefix, Except.error.injEq, reduceCtorEq, false_iff]
    rintro ⟨z, _, _, _⟩; omega
  | succ left ih =>
    unfold scanPrefix
    split
    · rename_i h1
      split
      · rename_i h2
        simp only [reduceCtorEq, false_iff]
        rintro ⟨z, h3, _, h4, h5⟩
        have := (h5 lz le_rfl (by omega)).2
        simp [h2] at this
      · rename_i h2
        rw [ih]
        constructor
        · rintro ⟨z, h3, h4, h5, h6⟩
          refine ⟨z, by omega, by omega, h5, fun i hi hz => ?_⟩
          by_cases hl : i = lz
          · subst hl; exact ⟨h1, by simpa using h2⟩
          · exact h6 i (by omega) hz
        · rintro ⟨z, h3, h4, h5, h6⟩
          have : z ≠ lz := by rintro rfl; omega
          exact ⟨z, by omega, by omega, h5, fun i hi hz => h6 i (by omega) hz⟩
    · rename_i h1
      simp only [true_iff]
      exact ⟨lz, le_rfl, by omega, by omega, fun i _ _ => by omega⟩

/-- The scan reads one zero too many exactly when `left` zeros stand at `lz` onwards. -/
theorem scanPrefix_eq_malformed {buf : Buffer} {pos left lz : Nat} :
    scanPrefix buf pos left lz = .error .malformedSyntax ↔
      ∀ i, lz ≤ i → i < lz + left → pos + i < 8 * buf.length ∧ bitAt buf (pos + i) = false := by
  induction left generalizing lz with
  | zero => simp only [scanPrefix, true_iff]; intro i _ _; omega
  | succ left ih =>
    unfold scanPrefix
    split
    · rename_i h1
      split
      · rename_i h2
        simp only [reduceCtorEq, false_iff]
        intro h; have := (h lz le_rfl (by omega)).2; simp [h2] at this
      · rename_i h2
        rw [ih]
        constructor
        · intro h i hi hl
          by_cases he : i = lz
          · subst he; exact ⟨h1, by simpa using h2⟩
          · exact h i (by omega) (by omega)
        · intro h i hi hl; exact h i (by omega) (by omega)
    · rename_i h1
      simp only [Except.error.injEq, reduceCtorEq, false_iff]
      intro h; exact h1 (h lz le_rfl (by omega)).1

/-- Reading a code word that stands at `pos` (R123). -/
theorem readUeAt_of_codeWord {buf : Buffer} {pos lz : Nat} (h : codeWordAt buf pos lz) (hz : lz ≤ 31) :
    readUeAt buf pos = .ok (2 ^ lz - 1 + readField buf (pos + lz + 1) lz, pos + 2 * lz + 1) := by
  obtain ⟨h1, h2, h3⟩ := h
  have h4 : scanPrefix buf pos (maxPrefixZeros + 1) 0 = .ok lz :=
    scanPrefix_eq_ok.2 ⟨Nat.zero_le _, by simp only [maxPrefixZeros]; omega, by omega, fun i _ hi => h2 i hi, h3⟩
  simp [readUeAt, h4, h1]

/-- What `readUeAt` answers, when it answers. -/
theorem readUeAt_eq_ok {buf : Buffer} {pos k next : Nat} (h : readUeAt buf pos = .ok (k, next)) :
    ∃ lz ≤ 31, codeWordAt buf pos lz ∧ k = 2 ^ lz - 1 + readField buf (pos + lz + 1) lz ∧ next = pos + 2 * lz + 1 := by
  unfold readUeAt at h
  split at h
  · cases h
  · rename_i lz hs
    obtain ⟨_, h1, h2, h3, h4⟩ := scanPrefix_eq_ok.1 hs
    split at h
    · rename_i h5
      cases h
      exact ⟨lz, by simp only [maxPrefixZeros] at h1; omega, ⟨h5, fun i hi => h3 i (Nat.zero_le _) hi, h4⟩, rfl, rfl⟩
    · cases h

/-! ### The bits of a number -/

@[simp] theorem fieldBits_length (v n : Nat) : (fieldBits v n).length = n := by
  induction n with
  | zero => rfl
  | succ n ih => simp [fieldBits, ih]

theorem fieldBits_getElem (v n i : Nat) (h : i < (fieldBits v n).length) :
    (fieldBits v n)[i] = v.testBit (n - 1 - i) := by
  induction n generalizing i with
  | zero => simp at h
  | succ n ih =>
    cases i with
    | zero => simp [fieldBits]
    | succ i =>
      simp only [fieldBits, List.getElem_cons_succ]
      rw [ih]; congr 1; omega

@[simp] theorem ueBits_length (k : Nat) : (ueBits k).length = ueLength k := by
  simp only [ueBits, ueLength, List.length_append, List.length_replicate, fieldBits_length]; omega

@[simp] theorem trailingBits_length (p : Nat) : (trailingBits p).length = 8 - p % 8 := by
  simp only [trailingBits, List.length_cons, List.length_replicate]; omega

/-! ### Appending bits -/

/-- R38 item 2 in terms of stream bits (R145): the bits from the position on are 0. -/
theorem writeForm_iff {buf : Buffer} {pos : Nat} :
    writeForm buf pos ↔ buf.length = (pos + 7) / 8 ∧ ∀ p, pos ≤ p → bitAt buf p = false := by
  refine and_congr_right fun hlen => ?_
  have hlast : pos % 8 ≠ 0 → buf.getLast? = some (buf.getD (pos / 8) 0) := fun hp => by
    have : pos / 8 < buf.length := by omega
    rw [List.getLast?_eq_getElem?, List.getD_eq_getElem?_getD, show buf.length - 1 = pos / 8 by omega,
      List.getElem?_eq_getElem this]
    rfl
  have key : ∀ (b : Byte) (j : Nat), b.toNat % 2 ^ j = 0 ↔ ∀ i < j, b.getLsbD i = false := by
    intro b j
    constructor
    · intro h i hi
      have := congrArg (Nat.testBit · i) h
      simpa [Nat.testBit_mod_two_pow, hi, BitVec.getLsbD] using this
    · intro h
      apply Nat.eq_of_testBit_eq
      intro i
      simp only [Nat.testBit_mod_two_pow, Nat.zero_testBit, Bool.and_eq_false_iff, decide_eq_false_iff_not]
      by_cases hi : i < j
      · exact .inr (h i hi)
      · exact .inl hi
  constructor
  · intro h p hp
    unfold bitAt
    by_cases hq : p / 8 < buf.length
    · have h8 : pos % 8 ≠ 0 := by omega
      have h9 := (key _ _).1 (h h8 _ (hlast h8)) (7 - p % 8) (by omega)
      rwa [show p / 8 = pos / 8 by omega]
    · simp [List.getElem?_eq_none (by omega : buf.length ≤ p / 8)]
  · intro h h8 b hb
    rw [hlast h8] at hb
    cases hb
    refine (key _ _).2 fun i hi => ?_
    have := h (8 * (pos / 8) + (7 - i)) (by omega)
    unfold bitAt at this
    rwa [show (8 * (pos / 8) + (7 - i)) / 8 = pos / 8 by omega, show 7 - (8 * (pos / 8) + (7 - i)) % 8 = i by omega] at this

/-- The bit `7 - j` of the byte `1 << (7 - j)`. -/
theorem getLsbD_one_shiftLeft (i j : Nat) (hi : i < 8) : ((0x01 : Byte) <<< j).getLsbD i = decide (i = j) := by
  rw [BitVec.getLsbD_shiftLeft]
  by_cases h : i < j
  · simp [h, hi]; omega
  · by_cases h2 : i = j
    · subst h2; simp [hi]
    · simp [h, hi, h2, show ¬ (i - j = 0) by omega]

/-- Everything `append_bit` can do on a buffer in write form (R141). -/
theorem appendBit_eq {cap : Option Nat} {c : WriteCursor} {b : Bool} (h : writeForm c.buf c.pos) :
    (appendBit cap c b = .error .capacityExceeded ∧ c.pos % 8 = 0 ∧ withinLimit cap (c.buf.length + 1) = false) ∨
    ∃ buf, appendBit cap c b = .ok { buf := buf, pos := c.pos + 1 } ∧ writeForm buf (c.pos + 1) ∧
      (c.pos % 8 = 0 → withinLimit cap (c.buf.length + 1) = true) ∧ bitAt buf c.pos = b ∧
      ∀ p < c.pos, bitAt buf p = bitAt c.buf p := by
  obtain ⟨hlen, hzero⟩ := writeForm_iff.1 h
  unfold appendBit
  split
  · rename_i hc
    simp only [Bool.and_eq_true, decide_eq_true_eq, Bool.not_eq_true', ] at hc
    exact .inl ⟨rfl, hc.1, hc.2⟩
  · rename_i hc
    simp only [Bool.and_eq_true, decide_eq_true_eq, Bool.not_eq_true', not_and, Bool.not_eq_false] at hc
    refine .inr ⟨_, rfl, ?_⟩
    set grown : Buffer := if c.pos % 8 = 0 then c.buf ++ [0x00] else c.buf with hg
    have hglen : grown.length = c.pos / 8 + 1 := by
      rw [hg]; split
      · simp only [List.length_append, List.length_cons, List.length_nil]; omega
      · omega
    have hgbit : ∀ p, bitAt grown p = bitAt c.buf p := by
      intro p
      rw [hg]; split
      · unfold bitAt
        congr 1
        simp only [List.getD_eq_getElem?_getD]
        by_cases hp : p / 8 < c.buf.length
        · rw [List.getElem?_append_left hp]
        · rw [List.getElem?_append_right (by omega), List.getElem?_eq_none (by omega : c.buf.length ≤ p / 8)]
          cases hk : p / 8 - c.buf.length <;> simp
      · rfl
    have hwrite : ∀ p, bitAt (grown.modify (c.pos / 8) (· ||| ((0x01 : Byte) <<< (7 - c.pos % 8)))) p =
        (bitAt grown p || decide (p = c.pos)) := by
      intro p
      unfold bitAt
      simp only [List.getD_eq_getElem?_getD, List.getElem?_modify]
      by_cases hp : c.pos / 8 = p / 8
      · have : p / 8 < grown.length := by omega
        simp only [hp, if_true, List.getElem?_eq_getElem this, Option.map_eq_map, Option.map_some, Option.getD_some,
          BitVec.getLsbD_or]
        rw [getLsbD_one_shiftLeft _ _ (by omega)]
        congr 1
        simp only [decide_eq_decide]
        omega
      · have : p ≠ c.pos := by rintro rfl; exact hp rfl
        simp [hp, this]
    have hall : ∀ p, bitAt (if b = true then grown.modify (c.pos / 8) (· ||| ((0x01 : Byte) <<< (7 - c.pos % 8))) else grown) p =
        (bitAt c.buf p || (b && decide (p = c.pos))) := by
      intro p
      cases b
      · simp [hgbit]
      · rw [if_pos rfl, hwrite, hgbit, Bool.true_and]
    refine ⟨writeForm_iff.2 ⟨?_, ?_⟩, hc, ?_, ?_⟩
    · split <;> simp only [List.length_modify, hglen] <;> omega
    · intro p hp
      rw [hall, hzero p (by omega)]
      simp [show p ≠ c.pos by omega]
    · rw [hall, hzero _ le_rfl]; simp
    · intro p hp
      rw [hall]; simp [show p ≠ c.pos by omega]

/-- Appending bits succeeds exactly when every byte it needs fits; then it has done this (R141, R145). -/
theorem appendBits_eq {cap : Option Nat} {c : WriteCursor} (bits : List Bool) (h : writeForm c.buf c.pos) :
    (appendBits cap c bits = .error .capacityExceeded ∧ c.buf.length < (c.pos + bits.length + 7) / 8 ∧
        withinLimit cap ((c.pos + bits.length + 7) / 8) = false) ∨
    ∃ buf, appendBits cap c bits = .ok { buf := buf, pos := c.pos + bits.length } ∧ writeForm buf (c.pos + bits.length) ∧
      (c.buf.length < (c.pos + bits.length + 7) / 8 → withinLimit cap ((c.pos + bits.length + 7) / 8) = true) ∧
      (∀ p < c.pos, bitAt buf p = bitAt c.buf p) ∧ ∀ i (hi : i < bits.length), bitAt buf (c.pos + i) = bits[i] := by
  induction bits generalizing c with
  | nil =>
    refine .inr ⟨c.buf, rfl, h, ?_, fun _ _ => rfl, fun i hi => by simp at hi⟩
    intro hlt; have := h.1; simp only [List.length_nil] at hlt; omega
  | cons b bits ih =>
    have hlen := h.1
    rcases appendBit_eq (cap := cap) (b := b) h with ⟨he, h8, hc⟩ | ⟨buf, he, hw, hc, hb, hp⟩
    · refine .inl ⟨by simp [appendBits, he], by simp only [List.length_cons]; omega, ?_⟩
      cases hl : withinLimit cap ((c.pos + (b :: bits).length + 7) / 8) with
      | false => rfl
      | true =>
        rw [withinLimit_mono (by simp only [List.length_cons]; omega) hl] at hc
        cases hc
    · have hlen2 := hw.1
      rcases ih (c := { buf := buf, pos := c.pos + 1 }) hw with ⟨he2, h1, h2⟩ | ⟨buf2, he2, hw2, hc2, hp2, hb2⟩
      · refine .inl ⟨by simp [appendBits, he, he2], ?_, ?_⟩
        · simp only [List.length_cons] at h1 ⊢; omega
        · rw [← h2]; simp only [List.length_cons]; congr 2; omega
      · refine .inr ⟨buf2, ?_, ?_, ?_, ?_, ?_⟩
        · simp [appendBits, he, he2, Nat.add_comm, Nat.add_left_comm]
        · simpa [Nat.add_comm, Nat.add_left_comm] using hw2
        · intro hlt
          simp only [List.length_cons] at hlt hc2 hlen2 ⊢
          by_cases hm : buf.length < (c.pos + 1 + bits.length + 7) / 8
          · rw [show c.pos + (bits.length + 1) + 7 = c.pos + 1 + bits.length + 7 by omega]
            exact hc2 hm
          · have h8 : c.pos % 8 = 0 := by omega
            have := hc h8
            rwa [show (c.pos + (bits.length + 1) + 7) / 8 = c.buf.length + 1 by omega]
        · intro p hlt
          rw [hp2 p (by simp only; omega), hp p hlt]
        · intro i hi
          cases i with
          | zero => rw [Nat.add_zero, hp2 _ (by simp only; omega)]; simpa using hb
          | succ i =>
            have := hb2 i (by simpa using hi)
            simpa [Nat.add_comm, Nat.add_left_comm] using this

/-- Appending bits in write form faults with nothing but `CapacityExceeded`. -/
theorem appendBits_error {cap : Option Nat} {c : WriteCursor} {bits : List Bool} {k : FaultKind}
    (h : appendBits cap c bits = .error k) : k = .capacityExceeded := by
  induction bits generalizing c with
  | nil => cases h
  | cons b bits ih =>
    unfold appendBits at h
    split at h
    · exact ih h
    · rename_i k' he
      cases h
      unfold appendBit at he
      split at he <;> simp_all

end Sys2Proof.Machine
end

