-- ==== Sys2Proof/Laws/Decode.lean ====
section
/-!
SUPPORT. The fields of a joined word and of a buffer operand, the operand codes and their inverses, and the opcode map.
-/

namespace Sys2Proof

/-! ### Fields -/

@[simp] theorem opField_joinFields (op n : BitVec 8) (v : BitVec 32) : opField (joinFields op n v) = op := by
  unfold opField joinFields
  ext i hi
  simp only [BitVec.getElem_extractLsb', BitVec.getLsbD_append]
  have h1 : ¬ 40 + i < 32 := by omega
  have h2 : ¬ 40 + i - 32 < 8 := by omega
  simp only [h1, h2, if_false]
  rw [show 40 + i - 32 - 8 = i by omega, BitVec.getLsbD_eq_getElem hi]

@[simp] theorem nField_joinFields (op n : BitVec 8) (v : BitVec 32) : nField (joinFields op n v) = n := by
  unfold nField joinFields
  ext i hi
  simp only [BitVec.getElem_extractLsb', BitVec.getLsbD_append]
  have h1 : ¬ 32 + i < 32 := by omega
  have h2 : 32 + i - 32 < 8 := by omega
  simp only [h1, h2, if_false, if_true]
  rw [show 32 + i - 32 = i by omega, BitVec.getLsbD_eq_getElem hi]

@[simp] theorem vField_joinFields (op n : BitVec 8) (v : BitVec 32) : vField (joinFields op n v) = v := by
  unfold vField joinFields
  ext i hi
  simp only [BitVec.getElem_extractLsb', BitVec.getLsbD_append]
  have h1 : 0 + i < 32 := by omega
  simp only [h1, if_true]
  rw [show 0 + i = i by omega, BitVec.getLsbD_eq_getElem hi]

/-- A word is its three fields. -/
theorem joinFields_fields (w : Word) : joinFields (opField w) (nField w) (vField w) = w := by
  unfold joinFields opField nField vField
  ext i hi
  simp only [BitVec.getElem_append, BitVec.getElem_extractLsb']
  split
  · rw [show 0 + i = i by omega, BitVec.getLsbD_eq_getElem hi]
  · split
    · rw [show 32 + (i - 32) = i by omega, BitVec.getLsbD_eq_getElem hi]
    · rw [show 40 + (i - 32 - 8) = i by omega, BitVec.getLsbD_eq_getElem hi]

/-- Masking acts field by field. -/
theorem joinFields_and (op n op' n' : BitVec 8) (v v' : BitVec 32) :
    joinFields op n v &&& joinFields op' n' v' = joinFields (op &&& op') (n &&& n') (v &&& v') := by
  show (op ++ n ++ v : BitVec (8 + 8 + 32)) &&& (op' ++ n' ++ v') = (op &&& op') ++ (n &&& n') ++ (v &&& v')
  rw [BitVec.and_append, BitVec.and_append]

/-- Words are equal exactly when their fields are. -/
theorem joinFields_inj {op n op' n' : BitVec 8} {v v' : BitVec 32} :
    joinFields op n v = joinFields op' n' v' ↔ op = op' ∧ n = n' ∧ v = v' := by
  constructor
  · intro h
    exact ⟨by simpa using congrArg opField h, by simpa using congrArg nField h, by simpa using congrArg vField h⟩
  · rintro ⟨rfl, rfl, rfl⟩; rfl

/-! ### Operand codes -/

@[simp] theorem BufId_ofCode_code (b : BufId) : BufId.ofCode b.code = some b := by cases b <;> rfl
@[simp] theorem RegId_ofNumber_number (r : RegId) : RegId.ofNumber r.number = some r := by cases r <;> rfl
@[simp] theorem CursorMode_ofCode_code (m : CursorMode) : CursorMode.ofCode m.code = m := by cases m <;> rfl
@[simp] theorem ScForm_ofCode_code (f : ScForm) : ScForm.ofCode f.code = some f := by cases f <;> rfl
@[simp] theorem Op_ofCode_code (o : Op) : Op.ofCode o.code = some o := by cases o <;> rfl

theorem BufId_code_of_ofCode {c : BitVec 3} {b : BufId} (h : BufId.ofCode c = some b) : b.code = c := by
  simpa using List.find?_some h

theorem RegId_number_of_ofNumber {c : BitVec 8} {r : RegId} (h : RegId.ofNumber c = some r) : r.number = c := by
  simpa using List.find?_some h

theorem ScForm_code_of_ofCode {c : BitVec 2} {f : ScForm} (h : ScForm.ofCode c = some f) : f.code = c := by
  simpa using List.find?_some h

theorem Op_code_of_ofCode {c : BitVec 8} {o : Op} (h : Op.ofCode c = some o) : o.code = c := by
  simpa using List.find?_some h

theorem CursorMode_code_ofCode (c : BitVec 1) : (CursorMode.ofCode c).code = c := by
  rcases BitVec.eq_zero_or_eq_one c with h | h <;> subst h <;> rfl

/-! ### The opcode map -/

/-- The masks of R102 by field. -/
theorem Op_mask_fields (o : Op) : o.mask = joinFields 0xFF (nField o.mask) (vField o.mask) := by cases o <;> decide

/-- Every `match` of R102 is its opcode with zero operand fields. -/
theorem Op_pattern_fields (o : Op) : o.pattern = joinFields o.code 0 0 := by cases o <;> decide

/-- A word satisfies a row's mask exactly when its opcode is the row's and its masked operand bits are 0. -/
theorem mask_iff (o : Op) (op n : BitVec 8) (v : BitVec 32) :
    joinFields op n v &&& o.mask = o.pattern ↔ op = o.code ∧ n &&& nField o.mask = 0 ∧ v &&& vField o.mask = 0 := by
  rw [Op_mask_fields o, Op_pattern_fields o, joinFields_and, joinFields_inj, nField_joinFields, vField_joinFields]
  rw [show op &&& 0xFF = op from BitVec.and_allOnes]

end Sys2Proof
end

