-- ==== Sys2Proof/Laws/Demuxer.lean ====
section
/-!
SUPPORT. The demuxer's scans: one turn of each loop, that no loop reaches its bound, and where each leaves the Byte Source.
-/

namespace Sys2Proof.Machine

/-! ### One turn of phase A -/

theorem findStartCode_at_end {p : Config.Params} {bound pos z : Nat} {r : Bool} (h : p.srcBytes.length ≤ pos) :
    findStartCode p (bound + 1) pos z r = .ended pos r := by
  simp [findStartCode, srcEof, h]

theorem findStartCode_byte {p : Config.Params} {bound pos z : Nat} {r : Bool} {b : Byte} (h : p.srcBytes[pos]? = some b) :
    findStartCode p (bound + 1) pos z r =
      if b = 0x00 then findStartCode p bound (pos + 1) (z + 1) r
      else if b = 0x01 ∧ 2 ≤ z then .found (pos + 1) (z + 1) r
      else findStartCode p bound (pos + 1) 0 true := by
  have hlt : ¬ p.srcBytes.length ≤ pos := by
    have := (List.getElem?_eq_some_iff.1 h).1; omega
  simp [findStartCode, srcEof, hlt, srcGetNextByte_of_getElem? h, Config.scTerm, Config.scMinZeros]

/-- What phase A does when its bound allows a read of every unread byte: it never reaches the bound, and it leaves the Byte
Source at its end, or just after a start code of at least 3 bytes, every one of them read or counted before. -/
theorem findStartCode_spec {p : Config.Params} {bound pos z : Nat} {r : Bool} (hb : p.srcBytes.length - pos < bound) :
    (∃ pos' r', findStartCode p bound pos z r = .ended pos' r' ∧ p.srcBytes.length ≤ pos' ∧ pos ≤ pos' ∧
        (pos ≤ p.srcBytes.length → pos' = p.srcBytes.length)) ∨
    ∃ pos' sc r', findStartCode p bound pos z r = .found pos' sc r' ∧ 3 ≤ sc ∧ pos < pos' ∧
        pos' ≤ p.srcBytes.length ∧ sc ≤ z + (pos' - pos) := by
  induction bound generalizing pos z r with
  | zero => omega
  | succ bound ih =>
    by_cases h : p.srcBytes.length ≤ pos
    · exact .inl ⟨pos, r, findStartCode_at_end h, h, le_rfl, fun _ => by omega⟩
    · have hg : p.srcBytes[pos]? = some p.srcBytes[pos] := List.getElem?_eq_getElem (by omega)
      rw [findStartCode_byte hg]
      have next : ∀ z' r', (z' ≤ z + 1) →
          (∃ pos' r'', findStartCode p bound (pos + 1) z' r' = .ended pos' r'' ∧ p.srcBytes.length ≤ pos' ∧ pos ≤ pos' ∧
            (pos ≤ p.srcBytes.length → pos' = p.srcBytes.length)) ∨
          ∃ pos' sc r'', findStartCode p bound (pos + 1) z' r' = .found pos' sc r'' ∧ 3 ≤ sc ∧ pos < pos' ∧
            pos' ≤ p.srcBytes.length ∧ sc ≤ z + (pos' - pos) := by
        intro z' r' hz
        rcases ih (pos := pos + 1) (z := z') (r := r') (by omega) with ⟨q, r2, e, h1, h2, h3⟩ | ⟨q, sc, r2, e, h1, h2, h3, h4⟩
        · exact .inl ⟨q, r2, e, h1, by omega, fun _ => h3 (by omega)⟩
        · exact .inr ⟨q, sc, r2, e, h1, by omega, h3, by omega⟩
      split
      · exact next _ _ le_rfl
      · split
        · rename_i h2
          exact .inr ⟨pos + 1, z + 1, r, rfl, by omega, by omega, by omega, by omega⟩
        · exact next _ _ (by omega)

/-! ### One turn of phase B -/

theorem accumulate_at_end {p : Config.Params} {bound pos zeros : Nat} {nal : Buffer} (h : p.srcBytes.length ≤ pos) :
    accumulate p (bound + 1) pos nal zeros = .ended pos nal := by
  simp [accumulate, srcEof, h]

theorem accumulate_byte {p : Config.Params} {bound pos zeros : Nat} {nal : Buffer} {b : Byte}
    (h : p.srcBytes[pos]? = some b) :
    accumulate p (bound + 1) pos nal zeros =
      if b = 0x01 ∧ 2 ≤ zeros then
        match srcRewind p (pos + 1) (zeros + 1) with
        | some back => .startCode back (nal.take (nal.length - zeros))
        | none => .faulted (pos + 1) .rewindUnderflow
      else if withinLimit p.bufCap (nal.length + 1) then
        accumulate p bound (pos + 1) (nal ++ [b]) (if b = 0x00 then zeros + 1 else 0)
      else .faulted (pos + 1) .capacityExceeded := by
  have hlt : ¬ p.srcBytes.length ≤ pos := by
    have := (List.getElem?_eq_some_iff.1 h).1; omega
  simp only [accumulate, srcEof, hlt, srcGetNextByte_of_getElem? h, Config.scTerm, Config.scMinZeros, decide_false,
    Bool.false_eq_true, if_false] <;> rfl

/-- What phase B does from a position `pos` reached by reading `nal`, when its bound allows a read of every unread byte: it
never reaches the bound; it ends at the end of the source with everything read, or in front of the next start code with the
NAL unit read up to there, or in a fault; and what it accumulates fits `BUF_CAP`. -/
theorem accumulate_spec {p : Config.Params} {bound pos zeros : Nat} {nal : Buffer} (hb : p.srcBytes.length - pos < bound)
    (hz : zeros ≤ nal.length) (hn : nal.length ≤ pos) (hcap : withinLimit p.bufCap nal.length = true) :
    (∃ pos' nal', accumulate p bound pos nal zeros = .ended pos' nal' ∧ p.srcBytes.length ≤ pos' ∧ pos ≤ pos' ∧
        (pos ≤ p.srcBytes.length → pos' = p.srcBytes.length) ∧ withinLimit p.bufCap nal'.length = true) ∨
    (∃ back nal', accumulate p bound pos nal zeros = .startCode back nal' ∧ back = pos - nal.length + nal'.length ∧
        back + 3 ≤ p.srcBytes.length ∧ withinLimit p.bufCap nal'.length = true) ∨
    ∃ pos' k, accumulate p bound pos nal zeros = .faulted pos' k ∧ pos < pos' ∧ pos' ≤ p.srcBytes.length ∧
        (k = .rewindUnderflow ∨ k = .capacityExceeded) := by
  induction bound generalizing pos zeros nal with
  | zero => omega
  | succ bound ih =>
    by_cases h : p.srcBytes.length ≤ pos
    · exact .inl ⟨pos, nal, accumulate_at_end h, h, le_rfl, fun _ => by omega, hcap⟩
    · have hg : p.srcBytes[pos]? = some p.srcBytes[pos] := List.getElem?_eq_getElem (by omega)
      rw [accumulate_byte hg]
      split
      · rename_i h1
        split
        · rename_i back hr
          obtain ⟨_, h3, rfl⟩ := srcRewind_eq_some.1 hr
          refine .inr (.inl ⟨_, _, rfl, ?_, by omega, withinLimit_mono (by simp) hcap⟩)
          simp only [List.length_take]; omega
        · exact .inr (.inr ⟨_, _, rfl, by omega, by omega, .inl rfl⟩)
      · split
        · rename_i h1 h2
          have hz' : (if p.srcBytes[pos] = 0x00 then zeros + 1 else 0) ≤ (nal ++ [p.srcBytes[pos]]).length := by
            simp only [List.length_append, List.length_cons, List.length_nil]; split <;> omega
          have hl : (nal ++ [p.srcBytes[pos]]).length = nal.length + 1 := by simp
          rcases ih (pos := pos + 1) (nal := nal ++ [p.srcBytes[pos]]) (by omega) hz' (by omega) (by rw [hl]; exact h2) with
            ⟨q, n, e, h3, h4, h5, h6⟩ | ⟨q, n, e, h3, h4, h5⟩ | ⟨q, k, e, h3, h4, h5⟩
          · exact .inl ⟨q, n, e, h3, by omega, fun _ => h5 (by omega), h6⟩
          · exact .inr (.inl ⟨q, n, e, by rw [h3, hl]; omega, h4, h5⟩)
          · exact .inr (.inr ⟨q, k, e, by omega, h4, h5⟩)
        · exact .inr (.inr ⟨_, _, rfl, by omega, by omega, .inr rfl⟩)

/-! ### The whole scan -/

/-- What a `NEXT_NAL` scan does when its bound allows one round for each unread byte: it is never stuck (R195); it leaves
the Byte Source within the stream and, if a byte was unread and no fault was raised, further on than it was; a delivered
start code has at least 3 bytes, a delivered NAL unit fits `BUF_CAP` and is not empty when the next start code ended it; and
the only faults are those of R235. -/
theorem nalRounds_spec {p : Config.Params} {bound pos : Nat} {r : Bool} (hb : p.srcBytes.length - pos < bound) :
    (∃ pos' r', nalRounds p bound pos r = .nothing pos' r' ∧ p.srcBytes.length ≤ pos' ∧ pos ≤ pos' ∧
        (pos ≤ p.srcBytes.length → pos' = p.srcBytes.length)) ∨
    (∃ pos' nal sc r' t, nalRounds p bound pos r = .delivered pos' nal sc r' t ∧ 3 ≤ sc ∧ pos < pos' ∧
        pos' ≤ p.srcBytes.length ∧ withinLimit p.bufCap nal.length = true ∧ (t = true → nal ≠ []) ∧
        (t = false → pos' = p.srcBytes.length)) ∨
    ∃ pos' k, nalRounds p bound pos r = .faulted pos' k ∧ pos < pos' ∧ pos' ≤ p.srcBytes.length ∧
        (k = .rewindUnderflow ∨ k = .capacityExceeded) := by
  induction bound generalizing pos r with
  | zero => omega
  | succ bound ih =>
    unfold nalRounds
    rcases findStartCode_spec (p := p) (bound := scanBound p pos) (pos := pos) (z := 0) (r := r)
        (by simp only [scanBound]; omega) with ⟨q, r2, e, h1, h2, h3⟩ | ⟨q, sc, r2, e, h1, h2, h3, h4⟩
    · rw [e]; exact .inl ⟨q, r2, rfl, h1, h2, h3⟩
    · rw [e]
      simp only
      rcases accumulate_spec (p := p) (bound := scanBound p q) (pos := q) (zeros := 0) (nal := [])
          (by simp only [scanBound]; omega) le_rfl (Nat.zero_le _) (by simp) with
        ⟨q2, n, e2, h5, h6, h7, h8⟩ | ⟨q2, n, e2, h5, h6, h7⟩ | ⟨q2, k, e2, h5, h6, h7⟩
      · rw [e2]
        refine .inr (.inl ⟨q2, n, sc, r2, false, rfl, h1, by omega, ?_, h8, by simp, fun _ => h7 h3⟩)
        rw [h7 h3]
      · rw [e2]
        simp only
        split
        · rename_i hn
          simp only [hn, List.length_nil] at h5
          rcases ih (pos := q2) (r := true) (by omega) with ⟨a, b, e3, g⟩ | ⟨a, b, c, d, t, e3, g1, g2, g3⟩ | ⟨a, b, e3, g1, g2⟩
          · rw [e3]; exact .inl ⟨a, b, rfl, g.1, by omega, fun _ => g.2.2 (by omega)⟩
          · rw [e3]; exact .inr (.inl ⟨a, b, c, d, t, rfl, g1, by omega, g3⟩)
          · rw [e3]; exact .inr (.inr ⟨a, b, rfl, by omega, g2⟩)
        · rename_i hn
          simp only [List.length_nil] at h5
          exact .inr (.inl ⟨q2, n, sc, r2, true, rfl, h1, by omega, by omega, h7, fun _ => hn, by simp⟩)
      · rw [e2]
        exact .inr (.inr ⟨q2, k, rfl, by omega, h6, h7⟩)

/-- `NEXT_NAL` always answers a next state (R195). -/
theorem execNextNal_next (s : State) : ∃ t, execNextNal s = .next t := by
  unfold execNextNal scanNal
  split
  · exact ⟨_, rfl⟩
  · rcases nalRounds_spec (p := s.params) (bound := scanBound s.params s.srcPos) (pos := s.srcPos) (r := false)
      (by simp only [scanBound]; omega) with ⟨_, _, e, _⟩ | ⟨_, _, _, _, _, e, _⟩ | ⟨_, _, e, _⟩ <;>
      rw [e] <;> exact ⟨_, rfl⟩

end Sys2Proof.Machine
end

