-- ==== Sys2Proof/Laws/Transcoder.lean ====
section
/-!
SUPPORT. The transcoder's scans: lengths, what stripping a start code does, how the scans run over a concatenation of their
input, and the two ways of writing `B_BS`.
-/

namespace Sys2Proof.Machine

/-! ### The removal scan -/

@[simp] theorem removeEpb_nil (tz : Config.ThirdZero) (st : ScanState) : removeEpb tz st [] = [] := rfl

theorem removeEpb_cons (tz : Config.ThirdZero) (st : ScanState) (b : Byte) (rest : Buffer) :
    removeEpb tz st (b :: rest) = (removalStep tz st b).1 ++ removeEpb tz (removalStep tz st b).2 rest := rfl

/-- A row of R162's table puts out the input byte or nothing. -/
theorem removalStep_fst (tz : Config.ThirdZero) (st : ScanState) (b : Byte) :
    (removalStep tz st b).1 = [b] ∨ ((removalStep tz st b).1 = [] ∧ st = .twoZerosSeen ∧ b = 0x03) := by
  unfold removalStep
  cases st <;> dsimp only <;> repeat' split
  all_goals first | exact .inl rfl | exact .inr ⟨rfl, rfl, by assumption⟩

/-- The output is no longer than the input (R161). -/
theorem removeEpb_length_le (tz : Config.ThirdZero) (st : ScanState) (payload : Buffer) :
    (removeEpb tz st payload).length ≤ payload.length := by
  induction payload generalizing st with
  | nil => simp
  | cons b rest ih =>
    have h := ih (removalStep tz st b).2
    rcases removalStep_fst tz st b with h1 | ⟨h1, _, _⟩ <;>
      simp only [removeEpb_cons, h1, List.length_append, List.length_cons, List.length_nil] <;> omega

/-! ### The insertion scan -/

@[simp] theorem insertEpb_nil (z : Nat) : insertEpb z [] = [] := rfl

theorem insertEpb_cons (z : Nat) (b : Byte) (rest : Buffer) :
    insertEpb z (b :: rest) = (insertionStep z b).1 ++ insertEpb (insertionStep z b).2 rest := rfl

/-- A step after fewer than two zeros, or on a byte above `03`, puts out the byte alone. -/
theorem insertionStep_plain {z : Nat} {b : Byte} (h : z < 2 ∨ ¬ b ≤ 0x03) :
    insertionStep z b = ([b], if b = 0x00 then z + 1 else 0) := by
  unfold insertionStep
  rw [if_neg]
  rintro ⟨h1, h2⟩
  rcases h with h | h
  · omega
  · exact h h2

/-- A step after two zeros on a byte of at most `03` puts an emulation-prevention byte in front. -/
theorem insertionStep_escape {z : Nat} {b : Byte} (hz : 2 ≤ z) (hb : b ≤ 0x03) :
    insertionStep z b = ([0x03, b], if b = 0x00 then 1 else 0) := by
  unfold insertionStep
  rw [if_pos ⟨hz, hb⟩]; rfl

/-- The output is at least as long as the input. -/
theorem length_le_insertEpb (z : Nat) (payload : Buffer) : payload.length ≤ (insertEpb z payload).length := by
  induction payload generalizing z with
  | nil => simp
  | cons b rest ih =>
    have h := ih (insertionStep z b).2
    by_cases hz : 2 ≤ z ∧ b ≤ 0x03
    · have h1 := insertionStep_escape hz.1 hz.2
      simp only [insertEpb_cons, h1, List.length_append, List.length_cons, List.length_nil] at h ⊢; omega
    · have h1 := insertionStep_plain (z := z) (b := b) (by rcases not_and_or.1 hz with h | h <;> [left; right] <;> [omega; exact h])
      simp only [insertEpb_cons, h1, List.length_append, List.length_cons, List.length_nil] at h ⊢; omega

/-! ### Stripping a start code -/

/-- A buffer is its leading zeros and the rest. -/
theorem leadingZeros_append_drop (buf : Buffer) :
    List.replicate (leadingZeros buf) 0x00 ++ buf.drop (leadingZeros buf) = buf := by
  induction buf with
  | nil => rfl
  | cons b rest ih =>
    unfold leadingZeros
    split
    · rename_i h; subst h; simpa [List.replicate_succ] using ih
    · rfl

/-- The byte after the leading zeros is not zero. -/
theorem drop_leadingZeros_ne (buf rest : Buffer) : buf.drop (leadingZeros buf) ≠ 0x00 :: rest := by
  induction buf with
  | nil => simp [leadingZeros]
  | cons b tail ih =>
    unfold leadingZeros
    split
    · simpa using ih
    · rename_i h
      intro hc
      exact h (List.cons.inj hc).1

/-- The leading zeros of a run of zeros and a byte that is none. -/
theorem leadingZeros_replicate (z : Nat) {b : Byte} (hb : b ≠ 0x00) (rest : Buffer) :
    leadingZeros (List.replicate z 0x00 ++ b :: rest) = z := by
  induction z with
  | zero => exact if_neg hb
  | succ z ih =>
    show (if (0x00 : Byte) = 0x00 then leadingZeros (List.replicate z 0x00 ++ b :: rest) + 1 else 0) = z + 1
    rw [if_pos rfl, ih]

/-- Everything `stripStartCode` can answer with a start code declared (R161). -/
theorem stripStartCode_true {data rest : Buffer} {n : Nat} :
    stripStartCode true data = some (n, rest) ↔ ∃ z, 2 ≤ z ∧ n = z + 1 ∧ data = List.replicate z 0x00 ++ 0x01 :: rest := by
  constructor
  · intro h
    simp only [stripStartCode, if_true] at h
    split at h
    · cases h
    · rename_i b tail hd
      split at h
      · rename_i hc
        cases h
        refine ⟨leadingZeros data, hc.2, rfl, ?_⟩
        have := leadingZeros_append_drop data
        rw [hd, hc.1] at this
        exact this.symm
      · cases h
  · rintro ⟨z, hz, rfl, rfl⟩
    have h1 := leadingZeros_replicate z (b := 0x01) (by decide) rest
    simp only [stripStartCode, if_true, h1, List.drop_left' (List.length_replicate ..)]
    rw [if_pos ⟨rfl, hz⟩]

@[simp] theorem stripStartCode_false (data : Buffer) : stripStartCode false data = some (0, data) := rfl

/-- What is left after stripping is no longer than the buffer. -/
theorem stripStartCode_length_le {hasSc : Bool} {data rest : Buffer} {n : Nat}
    (h : stripStartCode hasSc data = some (n, rest)) : rest.length ≤ data.length := by
  cases hasSc with
  | false => cases h; exact le_rfl
  | true =>
    obtain ⟨z, _, _, rfl⟩ := stripStartCode_true.1 h
    simp only [List.length_append, List.length_replicate, List.length_cons]; omega

/-! ### The two conversions -/

/-- Everything `toRbspBytes` can answer. -/
theorem toRbspBytes_eq_ok {tz : Config.ThirdZero} {data out : Buffer} :
    toRbspBytes tz data = .ok out ↔
      ∃ h0 h1 payload, data = h0 :: h1 :: payload ∧ out = h0 :: h1 :: removeEpb tz .copying payload := by
  match data with
  | [] => simp [toRbspBytes]
  | [_] => simp [toRbspBytes]
  | h0 :: h1 :: payload =>
    simp only [toRbspBytes, Except.ok.injEq, List.cons.injEq]
    constructor
    · rintro rfl; exact ⟨h0, h1, payload, ⟨rfl, rfl, rfl⟩, rfl⟩
    · rintro ⟨_, _, _, ⟨rfl, rfl, rfl⟩, rfl⟩; rfl

theorem toRbspBytes_error {tz : Config.ThirdZero} {data : Buffer} (h : data.length < 2) :
    toRbspBytes tz data = .error .bufferUnderrun := by
  match data with
  | [] => rfl
  | [_] => rfl
  | _ :: _ :: _ => simp at h

/-- Everything `toBsBytes` can answer. -/
theorem toBsBytes_eq_ok {sc : ScForm} {data out : Buffer} :
    toBsBytes sc data = .ok out ↔
      ∃ h0 h1 payload, data = h0 :: h1 :: payload ∧ out = startCodeBytes sc ++ h0 :: h1 :: insertEpb 0 payload := by
  match data with
  | [] => simp [toBsBytes]
  | [_] => simp [toBsBytes]
  | h0 :: h1 :: payload =>
    simp only [toBsBytes, Except.ok.injEq, List.cons.injEq]
    constructor
    · rintro rfl; exact ⟨h0, h1, payload, ⟨rfl, rfl, rfl⟩, rfl⟩
    · rintro ⟨_, _, _, ⟨rfl, rfl, rfl⟩, rfl⟩; rfl

theorem toBsBytes_error {sc : ScForm} {data : Buffer} (h : data.length < 2) :
    toBsBytes sc data = .error .bufferUnderrun := by
  match data with
  | [] => rfl
  | [_] => rfl
  | _ :: _ :: _ => simp at h

/-- Everything a write of `B_BS` can do. -/
theorem writeBBs_eq_ok {s t : State} {out : Buffer} :
    writeBBs s out = .ok t ↔ withinLimit s.params.bufCap out.length = true ∧ t = (s.setBBs out).finish := by
  unfold writeBBs
  split
  · rename_i h; simp [h, eq_comm]
  · rename_i h; simp [h]

@[simp] theorem be32_length (n : Nat) : (be32 n).length = 4 := rfl

end Sys2Proof.Machine
end

