-- ==== Sys2Proof/Laws/Memory.lean ====
section
/-!
SUPPORT. The form of the memory (R38 item 6): each named update of a buffer keeps it when the new content fits, the updates
that touch no buffer keep it as it is, and the machine after power-on has it.
-/

namespace Sys2Proof.Machine

/-- The form buffer by buffer. -/
theorem Memory_wf_iff {s : State} : Memory.wf s ↔ ∀ b : BufId, withinLimit s.params.bufCap (s.buf b).length = true := by
  constructor
  · intro h b; exact h b (by cases b <;> simp)
  · intro h b _; exact h b

/-- The form depends on the five buffers and the capacity only. -/
theorem Memory_wf_congr {s t : State} (hp : t.params = s.params) (hb : ∀ b, t.buf b = s.buf b) :
    Memory.wf t ↔ Memory.wf s := by
  simp only [Memory_wf_iff, hp, hb]

theorem Memory_wf_complete {s : State} (h : Memory.wf s) (c : Completion) : Memory.wf (s.complete c) :=
  (Memory_wf_congr (s := s) rfl fun b => by cases b <;> rfl).2 h

theorem Memory_wf_finish {s : State} (h : Memory.wf s) : Memory.wf s.finish := Memory_wf_complete h _

theorem Memory_wf_returnValue {s : State} (h : Memory.wf s) (v : Nat) : Memory.wf (s.returnValue v) :=
  (Memory_wf_congr (s := s) rfl fun b => by cases b <;> rfl).2 h

theorem Memory_wf_refuse {s : State} (h : Memory.wf s) : Memory.wf s.refuse := Memory_wf_complete h _

theorem Memory_wf_takeFault {s : State} (h : Memory.wf s) (k : FaultKind) : Memory.wf (takeFault k s) :=
  (Memory_wf_congr (s := s) rfl fun b => by cases b <;> rfl).2 h

theorem Memory_wf_moveCursor {s : State} (h : Memory.wf s) (pos : Nat) : Memory.wf (s.moveCursor pos) :=
  (Memory_wf_congr (s := s) rfl fun b => by cases b <;> rfl).2 h

theorem Memory_wf_moveSource {s : State} (h : Memory.wf s) (pos : Nat) : Memory.wf (s.moveSource pos) :=
  (Memory_wf_congr (s := s) rfl fun b => by cases b <;> rfl).2 h

theorem Memory_wf_resetBlock (s : State) : Memory.wf s.resetBlock :=
  Memory_wf_iff.2 fun b => by cases b <;> exact withinLimit_zero _

theorem Memory_wf_setBX {s : State} (h : Memory.wf s) {data : Buffer}
    (hd : withinLimit s.params.bufCap data.length = true) : Memory.wf (s.setBX data) :=
  Memory_wf_iff.2 fun b => by
    have hb := Memory_wf_iff.1 h b
    cases b <;> first | exact hd | exact hb

theorem Memory_wf_setBBs {s : State} (h : Memory.wf s) {data : Buffer}
    (hd : withinLimit s.params.bufCap data.length = true) : Memory.wf (s.setBBs data) :=
  Memory_wf_iff.2 fun b => by
    have hb := Memory_wf_iff.1 h b
    cases b <;> first | exact hd | exact hb

theorem Memory_wf_setRbsp {s : State} (h : Memory.wf s) {data : Buffer} (n : Nat)
    (hd : withinLimit s.params.bufCap data.length = true) : Memory.wf (s.setRbsp data n) :=
  Memory_wf_iff.2 fun b => by
    have hb := Memory_wf_iff.1 h b
    cases b <;> first | exact hd | exact hb

theorem Memory_wf_attachCursor {s : State} (h : Memory.wf s) {data : Buffer} (mode : CursorMode)
    (hd : withinLimit s.params.bufCap data.length = true) : Memory.wf (s.attachCursor data mode) :=
  Memory_wf_iff.2 fun b => by
    have hb := Memory_wf_iff.1 h b
    cases b <;> first | exact hd | exact hb

theorem Memory_wf_setCursor {s : State} (h : Memory.wf s) {data : Buffer} (pos : Nat)
    (hd : withinLimit s.params.bufCap data.length = true) : Memory.wf (s.setCursor data pos) :=
  Memory_wf_iff.2 fun b => by
    have hb := Memory_wf_iff.1 h b
    cases b <;> first | exact hd | exact hb

theorem Memory_wf_deliver {s : State} (h : Memory.wf s) {nal : Buffer} (scLen : Nat) (eos resync termSc : Bool)
    (hd : withinLimit s.params.bufCap nal.length = true) : Memory.wf (s.deliver nal scLen eos resync termSc) :=
  Memory_wf_iff.2 fun b => by
    have hb := Memory_wf_iff.1 h b
    cases b <;> first | exact hd | exact hb

/-- The memory after power-on has the form. -/
theorem Memory_wf_launch (p : Config.Params) : Memory.wf (State.launch p) :=
  Memory_wf_iff.2 fun b => by cases b <;> exact withinLimit_zero _

theorem Memory_wf_reset : Memory.wf State.reset := Memory_wf_launch _

end Sys2Proof.Machine
end

