-- ==== Sys2Proof/Laws/PerInstr.lean ====
section
/-!
SUPPORT. The family `OpcodeRow`: every command's word lies in the command's own row of R102.
-/

namespace Sys2Proof.Laws

/-- The word of a command satisfies the mask and match of its row, and its opcode selects that row. -/
def OpcodeRow.Statement (i : Instr) : Prop :=
  encode i &&& i.op.mask = i.op.pattern ∧ Op.ofCode (opField (encode i)) = some i.op

/-- What is left of the statement for a command with row `o` and operand fields `n` and `v`: the must-be-zero bits. -/
theorem opcodeRow_of_zero_bits (o : Op) (n : BitVec 8) (v : BitVec 32) {i : Instr} (ho : i.op = o) (hi : i.nOperand = n)
    (hj : i.vOperand = v) (hn : n &&& nField o.mask = 0) (hv : v &&& vField o.mask = 0) : OpcodeRow.Statement i := by
  subst ho hi hj
  exact ⟨(mask_iff _ _ _ _).2 ⟨rfl, hn, hv⟩, by simp [encode]⟩

/-- A mask field that is all zeros leaves nothing to check. -/
theorem and_zero_field {w : Nat} {x m : BitVec w} (h : m = 0) : x &&& m = 0 := by simp [h]

/-- `v[31:8]` of `XB_PUSH` is 0. -/
theorem xbPush_high_zero (b : Byte) : (0#24 ++ b : BitVec 32) &&& vField (Op.mask .xbPush) = 0 := by
  rw [show vField (Op.mask .xbPush) = (0xFFFFFF#24 ++ 0#8 : BitVec 32) by decide]
  show (0#24 ++ b : BitVec (24 + 8)) &&& (0xFFFFFF#24 ++ 0#8) = 0
  rw [BitVec.and_append]; simp

theorem OpcodeRow.reset : OpcodeRow.Statement .reset :=
  opcodeRow_of_zero_bits .reset 0 0 rfl rfl rfl (by decide) (by decide)
theorem OpcodeRow.rdReg (r : RegId) : OpcodeRow.Statement (.rdReg r) :=
  opcodeRow_of_zero_bits .rdReg r.number 0 rfl rfl rfl (and_zero_field (by decide)) (by decide)
theorem OpcodeRow.xbClr : OpcodeRow.Statement .xbClr :=
  opcodeRow_of_zero_bits .xbClr 0 0 rfl rfl rfl (by decide) (by decide)
theorem OpcodeRow.xbPush (b : Byte) : OpcodeRow.Statement (.xbPush b) :=
  opcodeRow_of_zero_bits .xbPush 0 (0#24 ++ b) rfl rfl rfl (by decide) (xbPush_high_zero b)
theorem OpcodeRow.bufLen (src : BufId) : OpcodeRow.Statement (.bufLen src) :=
  opcodeRow_of_zero_bits .bufLen (bufOperand 0 src) 0 rfl rfl rfl (by cases src <;> decide) (by decide)
theorem OpcodeRow.bufRd (src : BufId) (index : BitVec 32) : OpcodeRow.Statement (.bufRd src index) :=
  opcodeRow_of_zero_bits .bufRd (bufOperand 0 src) index rfl rfl rfl (by cases src <;> decide) (and_zero_field (by decide))
theorem OpcodeRow.nextNal : OpcodeRow.Statement .nextNal :=
  opcodeRow_of_zero_bits .nextNal 0 0 rfl rfl rfl (by decide) (by decide)
theorem OpcodeRow.toRbsp (src : BufId) (hasSc : Bool) : OpcodeRow.Statement (.toRbsp src hasSc) :=
  opcodeRow_of_zero_bits .toRbsp (bufOperand (0#3 ++ BitVec.ofBool hasSc) src) 0 rfl rfl rfl (by cases src <;> cases hasSc <;> decide) (by decide)
theorem OpcodeRow.toBs (src : BufId) (sc : ScForm) : OpcodeRow.Statement (.toBs src sc) :=
  opcodeRow_of_zero_bits .toBs (bufOperand (0#2 ++ sc.code) src) 0 rfl rfl rfl (by cases src <;> cases sc <;> decide) (by decide)
theorem OpcodeRow.lpWrap (src : BufId) : OpcodeRow.Statement (.lpWrap src) :=
  opcodeRow_of_zero_bits .lpWrap (bufOperand 0 src) 0 rfl rfl rfl (by cases src <;> decide) (by decide)
theorem OpcodeRow.bcLoad (src : BufId) (mode : CursorMode) : OpcodeRow.Statement (.bcLoad src mode) :=
  opcodeRow_of_zero_bits .bcLoad (bufOperand (0#3 ++ mode.code) src) 0 rfl rfl rfl (by cases src <;> cases mode <;> decide) (by decide)
theorem OpcodeRow.readBits (n : BitVec 8) : OpcodeRow.Statement (.readBits n) :=
  opcodeRow_of_zero_bits .readBits n 0 rfl rfl rfl (and_zero_field (by decide)) (by decide)
theorem OpcodeRow.readUe : OpcodeRow.Statement .readUe :=
  opcodeRow_of_zero_bits .readUe 0 0 rfl rfl rfl (by decide) (by decide)
theorem OpcodeRow.readSe : OpcodeRow.Statement .readSe :=
  opcodeRow_of_zero_bits .readSe 0 0 rfl rfl rfl (by decide) (by decide)
theorem OpcodeRow.getByteOff : OpcodeRow.Statement .getByteOff :=
  opcodeRow_of_zero_bits .getByteOff 0 0 rfl rfl rfl (by decide) (by decide)
theorem OpcodeRow.getBitOff : OpcodeRow.Statement .getBitOff :=
  opcodeRow_of_zero_bits .getBitOff 0 0 rfl rfl rfl (by decide) (by decide)
theorem OpcodeRow.writeBits (n : BitVec 8) (v : BitVec 32) : OpcodeRow.Statement (.writeBits n v) :=
  opcodeRow_of_zero_bits .writeBits n v rfl rfl rfl (and_zero_field (by decide)) (and_zero_field (by decide))
theorem OpcodeRow.writeUe (v : BitVec 32) : OpcodeRow.Statement (.writeUe v) :=
  opcodeRow_of_zero_bits .writeUe 0 v rfl rfl rfl (by decide) (and_zero_field (by decide))
theorem OpcodeRow.writeSe (v : BitVec 32) : OpcodeRow.Statement (.writeSe v) :=
  opcodeRow_of_zero_bits .writeSe 0 v rfl rfl rfl (by decide) (and_zero_field (by decide))
theorem OpcodeRow.writeTrail : OpcodeRow.Statement .writeTrail :=
  opcodeRow_of_zero_bits .writeTrail 0 0 rfl rfl rfl (by decide) (by decide)

end Sys2Proof.Laws
end

