-- ==== Sys2Proof/Tests/Slice0.lean ====
section
/-!
SUPPORT. Tests: the well-formedness check, the word of every command written out from R102 to R104, one step of each command on
a small state with the result the spec's own examples give, and a concrete state for the hypotheses of every statement that
has some.
-/

namespace Sys2Proof.Tests

open Sys2Proof Sys2Proof.Machine

/-! ### Well-formedness (R102, R108) -/

theorem test_wellFormed_readBits_32 : wellFormed (.readBits 32) = true := by decide
theorem test_wellFormed_refuses_readBits_33 : wellFormed (.readBits 33) = false := by decide
theorem test_wellFormed_refuses_writeBits_33 : wellFormed (.writeBits 33 0) = false := by decide

/-! ### Decoding: words written out from the fields of R100, the rows of R102 and the sub-fields of R103 -/

theorem test_decode_reset : decode 0x010000000000 = .legal .reset := by decide
/-- R212. -/
theorem test_decode_rdReg : decode 0x021400000000 = .legal (.rdReg .bcPos) := by decide
theorem test_decode_rdReg_last : decode 0x023000000000 = .legal (.rdReg .trScLen) := by decide
theorem test_decode_xbClr : decode 0x100000000000 = .legal .xbClr := by decide
/-- R214. -/
theorem test_decode_xbPush : decode 0x11000000004E = .legal (.xbPush 0x4E) := by decide
/-- R215. -/
theorem test_decode_bufLen : decode 0x120200000000 = .legal (.bufLen .bs) := by decide
/-- R216. -/
theorem test_decode_bufRd : decode 0x130200000003 = .legal (.bufRd .bs 3) := by decide
theorem test_decode_nextNal : decode 0x200000000000 = .legal .nextNal := by decide
/-- R161. -/
theorem test_decode_toRbsp : decode 0x301300000000 = .legal (.toRbsp .x true) := by decide
/-- R165. -/
theorem test_decode_toBs : decode 0x312400000000 = .legal (.toBs .cur .sc4) := by decide
/-- R168. -/
theorem test_decode_lpWrap : decode 0x320200000000 = .legal (.lpWrap .bs) := by decide
/-- R121. -/
theorem test_decode_bcLoad_rd : decode 0x400100000000 = .legal (.bcLoad .rbsp .rd) := by decide
theorem test_decode_bcLoad_wr : decode 0x401300000000 = .legal (.bcLoad .x .wr) := by decide
/-- R122. -/
theorem test_decode_readBits : decode 0x410600000000 = .legal (.readBits 6) := by decide
theorem test_decode_readUe : decode 0x420000000000 = .legal .readUe := by decide
theorem test_decode_readSe : decode 0x430000000000 = .legal .readSe := by decide
theorem test_decode_getByteOff : decode 0x440000000000 = .legal .getByteOff := by decide
theorem test_decode_getBitOff : decode 0x450000000000 = .legal .getBitOff := by decide
/-- R141. -/
theorem test_decode_writeBits : decode 0x500800000001 = .legal (.writeBits 8 1) := by decide
/-- R142. -/
theorem test_decode_writeUe : decode 0x510000000003 = .legal (.writeUe 3) := by decide
/-- R143. -/
theorem test_decode_writeSe : decode 0x5200FFFFFFFE = .legal (.writeSe (-2)) := by decide
theorem test_decode_writeTrail : decode 0x530000000000 = .legal .writeTrail := by decide

/-! The illegal words of R108, each reason once. -/

theorem test_decode_no_opcode : decode 0x000000000000 = .illegal .unknownOpcode := by decide
theorem test_decode_reset_n : decode 0x010100000000 = .illegal .mustBeZero := by decide
theorem test_decode_xbPush_256 : decode 0x110000000100 = .illegal .mustBeZero := by decide
theorem test_decode_toRbsp_n5 : decode 0x302000000000 = .illegal .mustBeZero := by decide
theorem test_decode_no_register : decode 0x020200000000 = .illegal .noSuchRegister := by decide
theorem test_decode_buffer_5 : decode 0x120500000000 = .illegal .noSuchBuffer := by decide
theorem test_decode_toBs_sc3 : decode 0x313400000000 = .illegal .noSuchStartCode := by decide
theorem test_decode_readBits_33 : decode 0x412100000000 = .illegal .countTooLarge := by decide

/-! ### Small states -/

/-- The next state of an answer. `Host.Outcome` has no decidable equality, `Option State` has. -/
def nextOf : Result → Option State
  | .next t => some t
  | .fault _ => none
  | .refused _ => none

/-- The machine at power-on with a stream, a window and a capacity. -/
def launched (stream : Buffer) (window cap : Option Nat) : State :=
  State.launch { srcBytes := stream, rewindWindow := window, thirdZero := .stayTwo, bufCap := cap }

/-- The cursor over `buf` at `pos`, with a capacity. -/
def cursor (buf : Buffer) (mode : CursorMode) (pos : Nat) (cap : Option Nat) : State :=
  { launched [] none cap with bCur := buf, bcMode := mode, bcPos := pos }

/-- A machine with one buffer filled, `B_X`, and a capacity. -/
def withX (buf : Buffer) (cap : Option Nat) : State := { launched [] none cap with bX := buf }

/-- A Faulted machine whose host issues `w` next. -/
def faultedBefore (w : Word) : State := { withX [0x42] none with err := 1, res := 7, commands := [w] }

/-! ### One step of each command, with the results of the rules' examples -/

/-- R211's example. -/
theorem test_reset_leaves_faulted :
    nextOf (step (faultedBefore 0x010000000000)) = some { launched [] none none with completion := some (.ok 0) } := by decide
/-- R212's example: `bc_pos = 21`. -/
theorem test_rdReg_byteOff :
    nextOf (exec (.rdReg .bcByteOff) (cursor [1, 2, 3] .rd 21 none)) =
      some { cursor [1, 2, 3] .rd 21 none with res := 2, completion := some (.ok 2) } := by decide
/-- R213's example. -/
theorem test_xbClr : nextOf (exec .xbClr (withX [0x4E, 0x01] none)) = some { withX [] none with completion := some (.ok 0) } := by decide
/-- R214's example. -/
theorem test_xbPush :
    nextOf (exec (.xbPush 0x01) (withX [0x42] none)) = some { withX [0x42, 0x01] none with completion := some (.ok 0) } := by decide
/-- R216's example. -/
theorem test_bufRd :
    nextOf (exec (.bufRd .x 3) (withX [0, 0, 0, 8, 0x42, 0x01] none)) =
      some { withX [0, 0, 0, 8, 0x42, 0x01] none with res := 8, completion := some (.ok 8) } := by decide
theorem test_bufLen :
    nextOf (exec (.bufLen .x) (withX [0x42, 0x01] none)) =
      some { withX [0x42, 0x01] none with res := 2, completion := some (.ok 2) } := by decide
/-- R181's example. -/
theorem test_nextNal :
    nextOf (exec .nextNal (launched [0, 0, 0, 1, 0x40, 1, 0x0C, 0, 0, 1, 0x42, 1, 1] none none)) =
      some { launched [0, 0, 0, 1, 0x40, 1, 0x0C, 0, 0, 1, 0x42, 1, 1] none none with
        bNal := [0x40, 1, 0x0C], dmNalType := 0x20, dmScLen := 4, dmFlags := 4, res := 32, srcPos := 7,
        completion := some (.ok 32) } := by decide
/-- R190's example. -/
theorem test_nextNal_empty_units :
    nextOf (exec .nextNal (launched [0, 0, 1, 0, 0, 1, 0, 0, 0, 1, 0x40, 1] none none)) =
      some { launched [0, 0, 1, 0, 0, 1, 0, 0, 0, 1, 0x40, 1] none none with
        bNal := [0x40, 1], dmNalType := 0x20, dmScLen := 4, dmFlags := 3, res := 32, srcPos := 12,
        completion := some (.ok 32) } := by decide
/-- R161's example. -/
theorem test_toRbsp :
    nextOf (exec (.toRbsp .x false) (withX [0x42, 1, 0, 0, 3, 1, 0x21, 0x70] none)) =
      some { withX [0x42, 1, 0, 0, 3, 1, 0x21, 0x70] none with
        bRbsp := [0x42, 1, 0, 0, 1, 0x21, 0x70], completion := some (.ok 0) } := by decide
/-- R161's fault order. -/
theorem test_toRbsp_malformed_first :
    nextOf (exec (.toRbsp .x true) (withX [0, 0, 2, 1, 0x42, 1] none)) =
      some { withX [0, 0, 2, 1, 0x42, 1] none with err := 3, completion := some (.fault .malformedSyntax) } := by decide
/-- R165's example. -/
theorem test_toBs :
    nextOf (exec (.toBs .x .sc4) (withX [0x42, 1, 0, 0, 1, 0x21, 0x70] none)) =
      some { withX [0x42, 1, 0, 0, 1, 0x21, 0x70] none with
        bBs := [0, 0, 0, 1, 0x42, 1, 0, 0, 3, 1, 0x21, 0x70], completion := some (.ok 0) } := by decide
/-- R166's example. -/
theorem test_toBs_five_zeros :
    nextOf (exec (.toBs .x .noSc) (withX [0x40, 1, 0, 0, 0, 0, 0] none)) =
      some { withX [0x40, 1, 0, 0, 0, 0, 0] none with
        bBs := [0x40, 1, 0, 0, 3, 0, 0, 3, 0], completion := some (.ok 0) } := by decide
/-- R168's example. -/
theorem test_lpWrap :
    nextOf (exec (.lpWrap .x) (withX [0x42, 1, 0, 0, 3, 1, 0x21, 0x70] none)) =
      some { withX [0x42, 1, 0, 0, 3, 1, 0x21, 0x70] none with
        bBs := [0, 0, 0, 8, 0x42, 1, 0, 0, 3, 1, 0x21, 0x70], completion := some (.ok 0) } := by decide
/-- R121's example, and its write mode. -/
theorem test_bcLoad_wr :
    nextOf (exec (.bcLoad .x .wr) (withX [0x42, 1, 1] none)) =
      some { withX [0x42, 1, 1] none with
        bCur := [0x42, 1, 1], bcMode := .wr, bcPos := 24, completion := some (.ok 0) } := by decide
/-- R122's example. -/
theorem test_readBits :
    nextOf (exec (.readBits 3) (cursor [0xA5, 0x3C, 0xFF, 0x00, 0x81] .rd 1 none)) =
      some { cursor [0xA5, 0x3C, 0xFF, 0x00, 0x81] .rd 4 none with res := 2, completion := some (.ok 2) } := by decide
/-- R123's example. -/
theorem test_readUe :
    nextOf (exec .readUe (cursor [0x20] .rd 0 none)) =
      some { cursor [0x20] .rd 5 none with res := 3, completion := some (.ok 3) } := by decide
/-- R123: exactly 32 zero bits. -/
theorem test_readUe_32_zeros :
    nextOf (exec .readUe (cursor [0, 0, 0, 0] .rd 0 none)) =
      some { cursor [0, 0, 0, 0] .rd 0 none with err := 3, completion := some (.fault .malformedSyntax) } := by decide
/-- R124's example. -/
theorem test_readSe :
    nextOf (exec .readSe (cursor [0x28] .rd 0 none)) =
      some { cursor [0x28] .rd 5 none with res := 0xFFFFFFFE, completion := some (.ok 0xFFFFFFFE) } := by decide
/-- R125's example. -/
theorem test_getByteOff :
    nextOf (exec .getByteOff (cursor [] .rd 51 none)) =
      some { cursor [] .rd 51 none with res := 6, completion := some (.ok 6) } := by decide
/-- R126's example. -/
theorem test_getBitOff :
    nextOf (exec .getBitOff (cursor [] .rd 51 none)) =
      some { cursor [] .rd 51 none with res := 3, completion := some (.ok 3) } := by decide
/-- R141's example, its second command. -/
theorem test_writeBits :
    nextOf (exec (.writeBits 3 5) (cursor [0xF0] .wr 4 none)) =
      some { cursor [0xFA] .wr 7 none with completion := some (.ok 0) } := by decide +kernel
/-- R142: `v = 2^32 - 2` from a byte boundary. -/
theorem test_writeUe_largest :
    nextOf (exec (.writeUe 0xFFFFFFFE) (cursor [] .wr 0 none)) =
      some { cursor [0, 0, 0, 1, 0xFF, 0xFF, 0xFF, 0xFE] .wr 63 none with completion := some (.ok 0) } := by
  decide +kernel
/-- R143's example, on a byte boundary: `00101`. -/
theorem test_writeSe :
    nextOf (exec (.writeSe (-2)) (cursor [] .wr 0 none)) =
      some { cursor [0x28] .wr 5 none with completion := some (.ok 0) } := by decide +kernel
/-- R144's example. -/
theorem test_writeTrail :
    nextOf (exec .writeTrail (cursor [0xFA] .wr 7 none)) =
      some { cursor [0xFB] .wr 8 none with completion := some (.ok 0) } := by decide +kernel
theorem test_writeTrail_on_boundary :
    nextOf (exec .writeTrail (cursor [0xFB] .wr 8 none)) =
      some { cursor [0xFB, 0x80] .wr 16 none with completion := some (.ok 0) } := by decide +kernel

/-! ### Witnesses: for each statement with hypotheses, a concrete state and operands that meet them, each clause at a boundary -/

theorem witness_DecodeInvertsEncode : wellFormed (.writeBits 32 0xFFFFFFFF) = true := by decide

theorem witness_EncodeInvertsDecode : decode 0x502000000001 = .legal (.writeBits 32 1) := by decide

theorem witness_LegalWordsAreTheOpcodeMap :
    (0x412000000000 : Word) &&& Op.readBits.mask = Op.readBits.pattern ∧
    wordConstraint 0x412000000000 .readBits := by
  refine ⟨by decide, ?_⟩
  show (nField 0x412000000000).toNat ≤ 32
  decide

/-- A machine whose host issues one word. -/
def issuing (w : Word) (s : State) : State := { s with commands := [w] }

theorem witness_StepRunsDecodedCommand :
    (issuing 0x410600000000 State.reset).commands = 0x410600000000 :: [] ∧
    decode 0x410600000000 = .legal (.readBits 6) := by decide

theorem witness_IdleStepKeepsState : (withX [0x42] none).commands = [] := by decide

/-- A machine that has delivered a NAL unit and stands in write mode in the middle of a byte. -/
def midWrite : State :=
  { cursor [0x42, 0xA0] .wr 11 (some 8) with
    bNal := [0x42, 0x01], dmNalType := 0x21, dmScLen := 3, dmFlags := 4, commands := [0x500800000001] }

theorem witness_StepKeepsInvariants : midWrite.params.Valid ∧ Inv midWrite ∧ ∃ t, step midWrite = .next t := by
  refine ⟨⟨?_, ?_⟩, ?_, _, rfl⟩
  · intro w h; cases h
  · intro c h; cases h; decide
  · exact
      { readBound := by decide
        writeShape := by decide
        invalidIff := by decide
        typeOfFirst := fun _ => ⟨0x42, [0x01], by decide, by decide⟩
        termScImplies := by decide
        buffersFit := by decide
        errLegal := by decide
        srcBound := by decide
        paramsValid := ⟨fun w h => (by cases h), fun c h => (by cases h; decide)⟩ }

/-- A read in write mode is illegal by the state alone. -/
theorem witness_IllegalCommandExactly_illegal :
    (issuing 0x420000000000 (cursor [0x80] .wr 8 none)).err = 0 ∧
    illegalIn (issuing 0x420000000000 (cursor [0x80] .wr 8 none)) 0x420000000000 := by
  refine ⟨by decide, ?_⟩
  intro o h
  have ho : o = .readUe := by revert h; cases o <;> decide
  subst ho
  rintro ⟨_, hm⟩
  exact absurd (show CursorMode.wr = CursorMode.rd from hm) (by decide)

theorem witness_IllegalCommandExactly_legal :
    (issuing 0x420000000000 (cursor [0x80] .rd 0 none)).err = 0 ∧
    ¬ illegalIn (issuing 0x420000000000 (cursor [0x80] .rd 0 none)) 0x420000000000 :=
  ⟨by decide, fun h => h .readUe (by decide) ⟨trivial, rfl⟩⟩

/-- The three kinds of word in the Faulted state; a `RESET` with an operand is none of the two that run. -/
theorem witness_FaultedBlockRefuses :
    (faultedBefore 0x010000000000).err ≠ 0 ∧
    (0x020100000000 : Word) = joinFields 0x02 RegId.res.number 0 ∧
    (0x010100000000 : Word) ≠ 0x010000000000 ∧ ∀ r : RegId, (0x010100000000 : Word) ≠ joinFields 0x02 r.number 0 := by
  refine ⟨by decide, by decide, by decide, ?_⟩
  intro r; cases r <;> decide

/-- A fault of the cursor, and one of `NEXT_NAL`, which moves the Byte Source. -/
theorem witness_FaultChangesOnlyErr :
    (nextOf (step (issuing 0x410100000000 State.reset))).bind State.completion = some (.fault .bufferUnderrun) ∧
    (nextOf (step (issuing 0x200000000000 (launched [0, 0, 1, 9, 0, 0, 0, 0, 1] (some 4) none)))).bind State.completion =
      some (.fault .rewindUnderflow) ∧ decode 0x200000000000 = .legal .nextNal ∧
    decode 0x410100000000 ≠ .legal .nextNal := by decide

/-- A command that returns a value, one that does not, and a cursor read; each completes. -/
theorem witness_ResIsLastReturnedValue :
    (nextOf (exec .reset (faultedBefore 0))).isSome ∧
    (nextOf (exec (.readBits 8) (cursor [0xFF] .rd 0 none))).map State.err = some 0 ∧
    returnsValue (.readBits 8) = true ∧ returnsValue .xbClr = false ∧
    (nextOf (exec .xbClr (withX [1] none))).isSome := by decide

theorem witness_OnlyNamedStateChanges :
    (nextOf (exec (.lpWrap .x) (withX [1] none))).isSome ∧ BufId.x ∉ buffersWritten (.lpWrap .x) ∧
    RegId.res ∉ registersWritten (.lpWrap .x) ∧
    (nextOf (exec .readUe (cursor [] .rd 0 none))).map State.err ≠ some (cursor [] .rd 0 none).err := by decide

theorem witness_CommandsRaiseOnlyTheirFaults :
    wellFormed (.xbPush 0) = true ∧
    (nextOf (exec (.xbPush 0) (withX [1, 2, 3, 4, 5, 6, 7, 8] (some 8)))).bind State.completion =
      some (.fault .capacityExceeded) := by decide

theorem witness_ResetTable : ∃ s t, s.err ≠ 0 ∧ exec .reset s = .next t :=
  ⟨faultedBefore 0, _, by decide, rfl⟩

/-- `B_X` one byte short of its capacity, and full. -/
theorem witness_ExchangeBufferCommands :
    (withX [1, 2, 3, 4, 5, 6, 7] (some 8)).err = 0 ∧
    fits (withX [1, 2, 3, 4, 5, 6, 7] (some 8)) (7 + 1) ∧
    ¬ fits (withX [1, 2, 3, 4, 5, 6, 7, 8] (some 8)) (8 + 1) := by decide

/-- The last index, and the first beyond it. -/
theorem witness_BufferReads :
    (withX [7, 9] none).err = 0 ∧ (1#32).toNat < ((withX [7, 9] none).buf .x).length ∧
    ((withX [7, 9] none).buf .x).length ≤ (2#32).toNat := by decide

theorem witness_XbSetFillsExchangeBuffer :
    (withX [7] (some 8)).err = 0 ∧ fits (withX [7] (some 8)) [1, 2, 3, 4, 5, 6, 7, 8].length := by decide

theorem witness_StreamBitFormula : 15 / 8 < ([0x42, 0x01] : Buffer).length := by decide

theorem witness_BcLoadAttachesCursor : (withX [0x42] none).err = 0 := by decide

/-- A read to the very end, one bit beyond it, and no bits at the end. -/
theorem witness_ReadBitsReturnsField :
    (cursor [0xA5, 0x3C] .rd 10 none).err = 0 ∧ (cursor [0xA5, 0x3C] .rd 10 none).bcMode = .rd ∧
    10 + (6#8).toNat ≤ 8 * (cursor [0xA5, 0x3C] .rd 10 none).bCur.length ∧
    8 * (cursor [0xA5, 0x3C] .rd 10 none).bCur.length < 10 + (7#8).toNat ∧
    16 + (0#8).toNat ≤ 8 * (cursor [0xA5, 0x3C] .rd 16 none).bCur.length ∧ (32#8).toNat ≤ 32 := by decide

/-- The shortest code word, a single 1 at the end of the buffer, and the longest. -/
theorem witness_ReadUeReturnsCodeNumber :
    (cursor [0x01] .rd 7 none).err = 0 ∧ (cursor [0x01] .rd 7 none).bcMode = .rd ∧ codeWordAt [0x01] 7 0 ∧
    codeWordAt [0, 0, 0, 1, 0xFF, 0xFF, 0xFF, 0xFE] 0 31 :=
  ⟨by decide, by decide, ⟨by decide, by decide, by decide⟩, ⟨by decide, by decide, by decide⟩⟩

/-- An odd and an even code number: `010` is 1, `011` is 2. -/
theorem witness_ReadSeReturnsSignedPattern :
    (cursor [0x40] .rd 0 none).err = 0 ∧ (cursor [0x40] .rd 0 none).bcMode = .rd ∧ codeWordAt [0x40] 0 1 ∧
    1 = 2 ^ 1 - 1 + fieldSum [0x40] (0 + 1 + 1) 1 ∧ codeWordAt [0x60] 0 1 ∧
    2 = 2 ^ 1 - 1 + fieldSum [0x60] (0 + 1 + 1) 1 :=
  ⟨by decide, by decide, ⟨by decide, by decide, by decide⟩, by decide, ⟨by decide, by decide, by decide⟩, by decide⟩

/-- 32 zeros and no more; 31 zeros and no more; a suffix one bit short. -/
theorem witness_CodeWordFaults :
    (cursor [0, 0, 0, 0] .rd 0 none).err = 0 ∧ (cursor [0, 0, 0, 0] .rd 0 none).bcMode = .rd ∧
    0 + 32 ≤ 8 * ([0, 0, 0, 0] : Buffer).length ∧ (∀ j < 32, bitAt [0, 0, 0, 0] (0 + j) = false) ∧
    8 * ([0, 0, 0, 0] : Buffer).length ≤ 1 + 31 ∧ (∀ j < 31, bitAt [0, 0, 0, 0] (1 + j) = false) ∧
    6 + 1 < 8 * ([0x01] : Buffer).length ∧ (∀ j < 1, bitAt [0x01] (6 + j) = false) ∧ bitAt [0x01] (6 + 1) = true ∧
    8 * ([0x01] : Buffer).length < 6 + 2 * 1 + 1 := by decide

theorem witness_OffsetsGiveThePosition : (cursor [1] .wr 8 none).err = 0 := by decide

theorem witness_SplitReadIsWholeRead :
    (cursor [1, 2, 3, 4] .rd 0 none).err = 0 ∧
    (3#8).toNat + (29#8).toNat ≤ 32 ∧
    nextOf (exec (.readBits 3) (cursor [1, 2, 3, 4] .rd 0 none)) =
      some { cursor [1, 2, 3, 4] .rd 3 none with completion := some (.ok 0) } ∧
    nextOf (exec (.readBits 29) { cursor [1, 2, 3, 4] .rd 3 none with completion := some (.ok 0) }) =
      some { cursor [1, 2, 3, 4] .rd 32 none with res := 0x1020304, completion := some (.ok 0x1020304) } := by decide

theorem witness_ReadNalHdrReturnsFields :
    (cursor [0x42, 0x01] .rd 0 none).err = 0 ∧ (cursor [0x42, 0x01] .rd 0 none).bcMode = .rd ∧
    (cursor [0x42, 0x01] .rd 0 none).bcPos = 0 ∧ (cursor [0x42, 0x01] .rd 0 none).bCur = 0x42 :: 0x01 :: [] := by decide

theorem witness_WrongModeIsIllegal :
    (cursor [] .wr 0 none).err = 0 ∧ (cursor [] .wr 0 none).bcMode = .wr ∧ State.reset.err = 0 ∧
    State.reset.bcMode = .rd := by decide

/-- A field that ends in the last byte the capacity allows, begun in the middle of a byte. -/
theorem witness_WriteBitsAppendsField :
    (cursor [0xA0] .wr 3 (some 8)).err = 0 ∧ (cursor [0xA0] .wr 3 (some 8)).bcMode = .wr ∧ writeForm [0xA0] 3 ∧
    (32#8).toNat ≤ 32 ∧ fits (cursor [0xA0] .wr 3 (some 8)) ((3 + 32 + 7) / 8) := by decide

/-- The smallest value, the largest, and both ends of a prefix length. -/
theorem witness_WriteUeAppendsCodeWord :
    (cursor [] .wr 0 (some 8)).err = 0 ∧ (cursor [] .wr 0 (some 8)).bcMode = .wr ∧ writeForm [] 0 ∧
    (2 ^ 0 ≤ (0#32).toNat + 1 ∧ (0#32).toNat + 1 < 2 ^ (0 + 1)) ∧
    ((0xFFFFFFFE#32).toNat ≤ 2 ^ 32 - 2 ∧ 2 ^ 31 ≤ (0xFFFFFFFE#32).toNat + 1 ∧
      (0xFFFFFFFE#32).toNat + 1 < 2 ^ (31 + 1)) ∧
    fits (cursor [] .wr 0 (some 8)) ((0 + (2 * 31 + 1) + 7) / 8) := by decide

/-- The most negative value, code number `2^32 - 2`, and a positive one, 1, code number 1. -/
theorem witness_WriteSeAppendsCodeWord :
    (cursor [] .wr 0 (some 8)).err = 0 ∧ (cursor [] .wr 0 (some 8)).bcMode = .wr ∧
    (0x80000001#32).toInt ≠ -(2 ^ 31) ∧ (0x80000001#32).toInt ≤ 0 ∧
    ((2 ^ 32 - 2 : Nat) : Int) = -2 * (0x80000001#32).toInt ∧ 2 ^ 31 ≤ 2 ^ 32 - 2 + 1 ∧ 2 ^ 32 - 2 + 1 < 2 ^ (31 + 1) ∧
    (0 < (1#32).toInt ∧ ((1 : Nat) : Int) = 2 * (1#32).toInt - 1 ∧ 2 ^ 1 ≤ 1 + 1 ∧ 1 + 1 < 2 ^ (1 + 1)) ∧
    writeForm [] 0 ∧ fits (cursor [] .wr 0 (some 8)) ((0 + (2 * 31 + 1) + 7) / 8) := by decide

/-- One bit short of a byte boundary at the capacity, and on a boundary one byte below it. -/
theorem witness_WriteTrailClosesByte :
    (cursor [0xFA] .wr 7 (some 1)).err = 0 ∧ (cursor [0xFA] .wr 7 (some 1)).bcMode = .wr ∧ writeForm [0xFA] 7 ∧
    fits (cursor [0xFA] .wr 7 (some 1)) (7 / 8 + 1) ∧ writeForm [0xFB] 8 ∧
    fits (cursor [0xFB] .wr 8 (some 2)) (8 / 8 + 1) := by decide

/-- A full buffer, and one bit in the last byte that is one too few. -/
theorem witness_WriteBeyondCapacityFaults :
    (cursor [1, 2, 3, 4, 5, 6, 7, 8] .wr 64 (some 8)).err = 0 ∧
    (cursor [1, 2, 3, 4, 5, 6, 7, 8] .wr 64 (some 8)).bcMode = .wr ∧ writeForm [1, 2, 3, 4, 5, 6, 7, 8] 64 ∧
    WriteOp.trail.inRange ∧ fits (cursor [1, 2, 3, 4, 5, 6, 7, 8] .wr 64 (some 8)) 8 ∧
    ¬ fits (cursor [1, 2, 3, 4, 5, 6, 7, 8] .wr 64 (some 8)) ((64 + WriteOp.trail.advance 64 + 7) / 8) ∧
    (WriteOp.bits 2 3).inRange ∧ writeForm [1, 2, 3, 4, 5, 6, 7, 2] 63 ∧
    ¬ fits (cursor [1, 2, 3, 4, 5, 6, 7, 2] .wr 63 (some 8)) ((63 + (WriteOp.bits 2 3).advance 63 + 7) / 8) :=
  ⟨by decide, by decide, by decide, trivial, by decide, by decide, (by decide : (2#8).toNat ≤ 32), by decide, by decide⟩

theorem witness_UnencodableValueFaults :
    (cursor [] .wr 0 (some 8)).err = 0 ∧ (cursor [] .wr 0 (some 8)).bcMode = .wr := by decide

/-- One write of each kind after one copied byte. -/
def someWrites : List WriteOp := [.bits 3 0xFF, .ue 7, .se (-5), .bits 0 1, .trail]

theorem witness_WritesReadBack :
    (withX [0x42] (some 8)).err = 0 ∧
    (nextOf (issue (.bcLoad .x .wr :: someWrites.map WriteOp.command) (withX [0x42] (some 8)))).isSome ∧
    ∀ c ∈ completionsOf (.bcLoad .x .wr :: someWrites.map WriteOp.command) (withX [0x42] (some 8)),
      c = some (.ok 0) := by decide +kernel

/-- Without a start code, and behind the shortest one. -/
theorem witness_ToRbspCompletes :
    (withX [0x42, 1] none).err = 0 ∧ (withX [0, 0, 1, 0x42, 1] none).err = 0 ∧
    (withX [0x42, 1] none).buf .x = 0x42 :: 1 :: [] ∧
    (withX [0, 0, 1, 0x42, 1] none).buf .x = zeroRun 2 ++ 0x01 :: 0x42 :: 1 :: [] := by decide

/-- One zero too few in the start code; a start code with one byte behind it; one byte. -/
theorem witness_ToRbspFaults :
    (withX [0, 1, 0x42, 1] none).err = 0 ∧ (withX [0, 0, 1, 0x42] none).err = 0 ∧ (withX [0x42] none).err = 0 ∧
    (¬ ∃ z rest, 2 ≤ z ∧ (withX [0, 1, 0x42, 1] none).buf .x = zeroRun z ++ 0x01 :: rest) ∧
    (withX [0, 0, 1, 0x42] none).buf .x = zeroRun 2 ++ 0x01 :: [0x42] ∧ ([0x42] : Buffer).length < 2 ∧
    ((withX [0x42] none).buf .x).length < 2 := by
  refine ⟨by decide, by decide, by decide, ?_, by decide, by decide, by decide⟩
  rintro ⟨z, rest, hz, h⟩
  obtain ⟨k, rfl⟩ : ∃ k, z = k + 2 := ⟨z - 2, by omega⟩
  simp [withX, State.buf, zeroRun, List.replicate_succ] at h

theorem witness_RemovalScanRows : (0x01 : Byte) ≠ 0x00 ∧ (0x04 : Byte) ≠ 0x03 := by decide

theorem witness_ThirdZeroReadingsAgree : ¬ [0x00, 0x00, 0x00] <:+: ([0, 0, 3, 0, 0] : Buffer) := by decide

/-- The boundaries of both conditions. -/
theorem witness_InsertionScanRows : 2 ≤ 2 ∧ (3#8).toNat ≤ 3 ∧ 1 < 2 ∧ 3 < (4#8).toNat := by decide

/-- An output that just fits, one that just does not, and an input without a header. -/
theorem witness_ToBsCompletesOrFaults :
    (withX [0x42, 1, 0, 0, 1] (some 9)).err = 0 ∧ (withX [0x42, 1, 0, 0, 1] (some 8)).err = 0 ∧
    (ScForm.sc3, ([0x00, 0x00, 0x01] : Buffer)) ∈
      [(ScForm.noSc, []), (.sc3, [0x00, 0x00, 0x01]), (.sc4, [0x00, 0x00, 0x00, 0x01])] ∧
    (withX [0x42, 1, 0, 0, 1] (some 9)).buf .x = 0x42 :: 1 :: [0, 0, 1] ∧
    fits (withX [0x42, 1, 0, 0, 1] (some 9)) ([0x00, 0x00, 0x01] ++ 0x42 :: 1 :: insertEpb 0 [0, 0, 1]).length ∧
    ¬ fits (withX [0x42, 1, 0, 0, 1] (some 8)) ([0x00, 0x00, 0x01] ++ 0x42 :: 1 :: insertEpb 0 [0, 0, 1]).length ∧
    ((withX [0x42] none).buf .x).length < 2 := by decide

theorem witness_RemovalUndoesInsertion :
    (withX [0x42, 1, 0, 0, 0] none).err = 0 ∧ (withX [0x42, 1, 0, 0, 0] (some 9)).err = 0 ∧
    2 ≤ ((withX [0x42, 1, 0, 0, 0] none).buf .x).length ∧ (withX [0x42, 1, 0, 0, 0] none).params.bufCap = none ∧
    (nextOf (exec (.toBs .x .sc3) (withX [0x42, 1, 0, 0, 0] (some 9)))).bind State.completion = some (.ok 0) := by decide

/-- A payload that is not canonical, behind a start code, and both commands complete. -/
theorem witness_InsertionUndoesRemovalIffCanonical :
    (withX [0, 0, 1, 0x40, 1, 0, 0, 1] (some 9)).err = 0 ∧
    (withX [0, 0, 1, 0x40, 1, 0, 0, 1] (some 9)).buf .x = startCodeBytes .sc3 ++ 0x40 :: 1 :: [0, 0, 1] ∧
    ((nextOf (exec (.toRbsp .x true) (withX [0, 0, 1, 0x40, 1, 0, 0, 1] (some 9)))).bind fun t =>
      (nextOf (exec (.toBs .rbsp .sc3) t)).bind State.completion) = some (.ok 0) := by decide

/-- A length that just fits, and one that just does not. The next theorem has the third clause. -/
theorem witness_LpWrapPrependsLength :
    (withX [1, 2, 3, 4] (some 8)).err = 0 ∧ (withX [1, 2, 3, 4, 5] (some 8)).err = 0 ∧
    ((withX [1, 2, 3, 4] (some 8)).buf .x).length < 2 ^ 32 ∧
    fits (withX [1, 2, 3, 4] (some 8)) (((withX [1, 2, 3, 4] (some 8)).buf .x).length + 4) ∧
    ¬ fits (withX [1, 2, 3, 4, 5] (some 8)) (((withX [1, 2, 3, 4, 5] (some 8)).buf .x).length + 4) := by decide

theorem witness_LpWrapPrependsLength_too_long :
    (withX (List.replicate (2 ^ 32) 0) none).err = 0 ∧
    2 ^ 32 ≤ ((withX (List.replicate (2 ^ 32) 0) none).buf .x).length :=
  ⟨rfl, le_of_eq (List.length_replicate ..).symm⟩

/-- A position inside, at the end, a rewind by the window, one beyond it, and one before the start. -/
theorem witness_ByteSourceCalls :
    1 < (launched [7, 8] (some 4) none).params.srcBytes.length ∧
    (launched [7, 8] (some 4) none).params.srcBytes.length ≤ 2 ∧
    (windowAllows (launched [7, 8] (some 4) none) 4 ∧ 4 ≤ 4) ∧ ¬ windowAllows (launched [7, 8] (some 4) none) 5 ∧
    ¬ 3 ≤ 2 := by decide

/-- Garbage in front, the shortest start code, and a next start code of just the window, at a capacity that just holds the NAL
unit and the zeros. -/
theorem witness_NextNalTerminatedUnit :
    (launched [9, 0, 0, 1, 0x40, 1, 7, 8, 9, 0, 0, 0, 1] (some 4) (some 8)).err = 0 ∧
    (launched [9, 0, 0, 1, 0x40, 1, 7, 8, 9, 0, 0, 0, 1] (some 4) (some 8)).unread =
      [9] ++ zeroRun 2 ++ [0x01] ++ [0x40, 1, 7, 8, 9] ++ zeroRun 3 ++ [0x01] ++ [] ∧
    cleanRun [9] ∧ cleanRun [0x40, 1, 7, 8, 9] ∧ ([0x40, 1, 7, 8, 9] : Buffer).head? = some 0x40 ∧
    windowAllows (launched [9, 0, 0, 1, 0x40, 1, 7, 8, 9, 0, 0, 0, 1] (some 4) (some 8)) (3 + 1) ∧
    fits (launched [9, 0, 0, 1, 0x40, 1, 7, 8, 9, 0, 0, 0, 1] (some 4) (some 8)) (5 + 3) := by decide

/-- A last NAL unit that ends in zeros, at a capacity it just fits; and none behind the last start code. -/
theorem witness_NextNalFinalUnit :
    (launched [0, 0, 1, 0x26, 1, 7, 8, 9, 9, 0, 0] none (some 8)).err = 0 ∧
    (launched [0, 0, 1, 0x26, 1, 7, 8, 9, 9, 0, 0] none (some 8)).unread =
      [] ++ zeroRun 2 ++ [0x01] ++ [0x26, 1, 7, 8, 9, 9, 0, 0] ∧
    cleanRun [] ∧ ¬ startCode <:+: ([0x26, 1, 7, 8, 9, 9, 0, 0] : Buffer) ∧
    fits (launched [0, 0, 1, 0x26, 1, 7, 8, 9, 9, 0, 0] none (some 8)) 8 ∧
    (∀ h0 ∈ ([0x26, 1, 7, 8, 9, 9, 0, 0] : Buffer).head?, 19 = h0.toNat / 2 % 64) ∧
    (launched [0, 0, 1] none none).unread = [] ++ zeroRun 2 ++ [0x01] ++ [] ∧
    (∀ h0 ∈ ([] : Buffer).head?, 0x40 = h0.toNat / 2 % 64) := by decide

/-- Zeros only, then garbage as well. -/
theorem witness_NextNalNothingLeft :
    (launched [0, 0, 0] none none).err = 0 ∧
    (launched [0, 0, 0] none none).srcPos ≤ (launched [0, 0, 0] none none).params.srcBytes.length ∧
    ¬ startCode <:+: (launched [0, 0, 0] none none).unread ∧
    ¬ startCode <:+: (launched [0, 1, 0, 0, 2] none none).unread := by decide

theorem witness_NextNalSkipsEmptyUnit :
    (launched [0, 0, 1, 0, 0, 0, 1, 0x40] (some 4) (some 3)).err = 0 ∧
    (launched [0, 0, 1, 0, 0, 0, 1, 0x40] (some 4) (some 3)).unread =
      zeroRun 2 ++ [0x01] ++ zeroRun 3 ++ [0x01] ++ [0x40] ∧
    windowAllows (launched [0, 0, 1, 0, 0, 0, 1, 0x40] (some 4) (some 3)) (3 + 1) ∧
    fits (launched [0, 0, 1, 0, 0, 0, 1, 0x40] (some 4) (some 3)) 3 := by decide

/-- A next start code one byte longer than the window. -/
theorem witness_NextNalRewindUnderflow :
    (launched [0, 0, 1, 0x40, 0, 0, 0, 0, 1] (some 4) (some 8)).err = 0 ∧
    (launched [0, 0, 1, 0x40, 0, 0, 0, 0, 1] (some 4) (some 8)).unread =
      [] ++ zeroRun 2 ++ [0x01] ++ [0x40] ++ zeroRun 4 ++ [0x01] ++ [] ∧
    cleanRun [] ∧ cleanRun [0x40] ∧
    ¬ windowAllows (launched [0, 0, 1, 0x40, 0, 0, 0, 0, 1] (some 4) (some 8)) (4 + 1) ∧
    fits (launched [0, 0, 1, 0x40, 0, 0, 0, 0, 1] (some 4) (some 8)) (1 + 4) := by decide

/-- One byte too many, and the start code that would end the NAL unit right behind it. -/
theorem witness_NextNalCapacityExceeded :
    (launched [0, 0, 1, 1, 2, 3, 4, 5, 6, 7, 0, 0, 1] none (some 8)).err = 0 ∧
    (launched [0, 0, 1, 1, 2, 3, 4, 5, 6, 7, 0, 0, 1] none (some 8)).params.bufCap = some 8 ∧
    (launched [0, 0, 1, 1, 2, 3, 4, 5, 6, 7, 0, 0, 1] none (some 8)).unread =
      [] ++ zeroRun 2 ++ [0x01] ++ [1, 2, 3, 4, 5, 6, 7, 0, 0] ++ [1] ∧
    ¬ startCode <:+: ([1, 2, 3, 4, 5, 6, 7, 0, 0] : Buffer) ∧
    ([1, 2, 3, 4, 5, 6, 7, 0, 0] : Buffer).length = 8 + 1 := by decide

theorem witness_NextNalProgress :
    (launched [0, 0, 1, 9] none none).err = 0 ∧
    (launched [0, 0, 1, 9] none none).srcPos < (launched [0, 0, 1, 9] none none).params.srcBytes.length := by decide

/-- Three NAL units; the second start code is as long as the window allows, and the last NAL unit ends in zeros. -/
def threeUnits : List StreamUnit := [⟨2, [0x40, 1]⟩, ⟨3, [0x42, 1, 7]⟩, ⟨2, [0x26, 0, 0]⟩]

theorem witness_SequenceLaw :
    (launched (streamOf threeUnits) (some 4) (some 8)).err = 0 ∧
    (launched (streamOf threeUnits) (some 4) (some 8)).srcPos = 0 ∧
    (launched (streamOf threeUnits) (some 4) (some 8)).params.srcBytes = streamOf threeUnits ∧ threeUnits ≠ [] ∧
    (∀ u ∈ threeUnits, 2 ≤ u.zeros ∧ u.nal ≠ [] ∧ ¬ startCode <:+: u.nal) ∧
    (∀ u ∈ threeUnits.dropLast, u.nal.getLast? ≠ some 0x00) ∧
    (∀ u ∈ threeUnits.tail, windowAllows (launched (streamOf threeUnits) (some 4) (some 8)) (u.zeros + 1)) ∧
    ∀ i (h : i < threeUnits.length),
      fits (launched (streamOf threeUnits) (some 4) (some 8))
        (threeUnits[i].nal.length + ((threeUnits[i + 1]?).map StreamUnit.zeros).getD 0) := by decide

end Sys2Proof.Tests
end

/-! Proofs about the scope of the model: how a step uses the issued word, and the stream bit. -/

namespace Sys2Proof.Machine

/-! ### The branch of `step` for a legal word -/

/-- R15, R62: the branch of `step` in which the fetched word decodes to a command. -/
theorem step_eq_exec_of_legal {s t : State} {w : Word} {i : Instr} (hfetch : fetchCommand s = some (w, t))
    (hdecode : decode w = .legal i) : step s = exec i t := by
  simp only [step, hfetch, hdecode]

/-- Settles O5: the host's list gives the fetch, and the decoded command is then the step. -/
theorem stepRunsDecodedCommand : Obligations.StepRunsDecodedCommand := by
  intro s w rest i hcommands hdecode
  have hfetch : fetchCommand s = some (w, { s with commands := rest }) := fetchCommand_cons hcommands
  exact step_eq_exec_of_legal hfetch hdecode

/-! ### The stream bit in numbers -/

/-- R11: inside the buffer the default of `bitAt` is not used; the bit is one of the byte that is there. -/
theorem bitAt_eq_getLsbD {buf : Buffer} {p : Nat} (h : p / 8 < buf.length) :
    bitAt buf p = buf[p / 8].getLsbD (7 - p % 8) := by
  rw [bitAt, List.getD_eq_getElem _ _ h]

/-- Settles O23: the bit is one of its byte, and a bit of a byte is a quotient by a power of two, mod 2. -/
theorem streamBitFormula : Obligations.StreamBitFormula := by
  intro buf p h
  calc (bitAt buf p).toNat
      = (buf[p / 8].toNat.testBit (7 - p % 8)).toNat := by rw [bitAt_eq_getLsbD h, BitVec.testBit_toNat]
    _ = buf[p / 8].toNat / 2 ^ (7 - p % 8) % 2 := Nat.toNat_testBit _ _

end Sys2Proof.Machine

/-! Proofs about the state: how a command can end, what it leaves as it was, and the invariants of R38 along every step. -/

namespace Sys2Proof.Machine

/-! ### What each update leaves as it was -/

/-- `t` agrees with `s` on every buffer outside `bufs`, on every register outside `regs`, on the Byte Source unless `srcMoves`,
and on the launch parameters and the host's list. -/
structure LeavesRest (bufs : List BufId) (regs : List RegId) (srcMoves : Prop) (s t : State) : Prop where
  buf : ∀ b, b ∉ bufs → t.buf b = s.buf b
  reg : ∀ r, r ∉ regs → t.reg r = s.reg r
  src : ¬ srcMoves → t.srcPos = s.srcPos := by exact fun _ => rfl
  params : t.params = s.params := by rfl
  commands : t.commands = s.commands := by rfl

/-- Two updates in a row leave what both leave; the lists may be named anew as long as they cover what the two write. -/
theorem LeavesRest.trans {bufs bufs₁ bufs₂ : List BufId} {regs regs₁ regs₂ : List RegId} {m m₁ m₂ : Prop} {s t u : State}
    (h₁ : LeavesRest bufs₁ regs₁ m₁ s t) (h₂ : LeavesRest bufs₂ regs₂ m₂ t u) (hb : bufs₁ ++ bufs₂ ⊆ bufs)
    (hr : regs₁ ++ regs₂ ⊆ regs) (hm : m₁ ∨ m₂ → m) : LeavesRest bufs regs m s u where
  buf b h := (h₂.buf b fun hc => h (hb (List.mem_append_right _ hc))).trans
    (h₁.buf b fun hc => h (hb (List.mem_append_left _ hc)))
  reg r h := (h₂.reg r fun hc => h (hr (List.mem_append_right _ hc))).trans
    (h₁.reg r fun hc => h (hr (List.mem_append_left _ hc)))
  src h := (h₂.src fun hc => h (hm (.inr hc))).trans (h₁.src fun hc => h (hm (.inl hc)))
  params := h₂.params.trans h₁.params
  commands := h₂.commands.trans h₁.commands

/-- Longer lists claim less. -/
theorem LeavesRest.mono {bufs bufs₁ : List BufId} {regs regs₁ : List RegId} {m m₁ : Prop} {s t : State}
    (h : LeavesRest bufs₁ regs₁ m₁ s t) (hb : bufs₁ ⊆ bufs) (hr : regs₁ ⊆ regs) (hm : m₁ → m) :
    LeavesRest bufs regs m s t :=
  { h with
    buf := fun b hmem => h.buf b fun hc => hmem (hb hc)
    reg := fun r hmem => h.reg r fun hc => hmem (hr hc)
    src := fun hn => h.src fun hc => hn (hm hc) }

/-- R231: a completion is no buffer and no register. -/
theorem leavesRest_complete (s : State) (c : Completion) : LeavesRest [] [] False s (s.complete c) where
  buf b _ := by cases b <;> rfl
  reg r _ := by cases r <;> rfl

theorem leavesRest_returnValue (s : State) (v : Nat) : LeavesRest [] [.res] False s (s.returnValue v) where
  buf b _ := by cases b <;> rfl
  reg r h := by cases r <;> simp_all [State.reg, State.byteOff, State.bitOff]

theorem leavesRest_takeFault (s : State) (k : FaultKind) : LeavesRest [] [.err] False s (takeFault k s) where
  buf b _ := by cases b <;> rfl
  reg r h := by cases r <;> simp_all [State.reg, State.byteOff, State.bitOff]

theorem leavesRest_moveSource (s : State) (pos : Nat) : LeavesRest [] [] True s (s.moveSource pos) where
  buf b _ := by cases b <;> rfl
  reg r _ := by cases r <;> rfl
  src h := absurd trivial h

theorem leavesRest_setBX (s : State) (data : Buffer) : LeavesRest [.x] [] False s (s.setBX data) where
  buf b h := by cases b <;> simp_all [State.buf]
  reg r _ := by cases r <;> rfl

theorem leavesRest_setBBs (s : State) (data : Buffer) : LeavesRest [.bs] [] False s (s.setBBs data) where
  buf b h := by cases b <;> simp_all [State.buf]
  reg r _ := by cases r <;> rfl

theorem leavesRest_setRbsp (s : State) (data : Buffer) (n : Nat) :
    LeavesRest [.rbsp] [.trScLen] False s (s.setRbsp data n) where
  buf b h := by cases b <;> simp_all [State.buf]
  reg r h := by cases r <;> simp_all [State.reg, State.byteOff, State.bitOff]

theorem leavesRest_attachCursor (s : State) (data : Buffer) (mode : CursorMode) :
    LeavesRest [.cur] [.bcMode, .bcByteOff, .bcBitOff, .bcLen, .bcPos] False s (s.attachCursor data mode) where
  buf b h := by cases b <;> simp_all [State.buf]
  reg r h := by cases r <;> simp_all [State.reg]

theorem leavesRest_moveCursor (s : State) (pos : Nat) :
    LeavesRest [] [.bcByteOff, .bcBitOff, .bcPos] False s (s.moveCursor pos) where
  buf b _ := by cases b <;> rfl
  reg r h := by cases r <;> simp_all [State.reg]

theorem leavesRest_setCursor (s : State) (data : Buffer) (pos : Nat) :
    LeavesRest [.cur] [.bcByteOff, .bcBitOff, .bcLen, .bcPos] False s (s.setCursor data pos) where
  buf b h := by cases b <;> simp_all [State.buf]
  reg r h := by cases r <;> simp_all [State.reg]

theorem leavesRest_deliver (s : State) (nal : Buffer) (scLen : Nat) (eos resync termSc : Bool) :
    LeavesRest [.nal] [.res, .dmNalType, .dmScLen, .dmFlags] False s (s.deliver nal scLen eos resync termSc) where
  buf b h := by cases b <;> simp_all [State.buf]
  reg r h := by cases r <;> simp_all [State.reg, State.byteOff, State.bitOff]

/-- `RESET` writes every buffer and every register (R37), and leaves the Byte Source (R262). -/
theorem leavesRest_resetBlock (s : State) :
    LeavesRest (buffersWritten .reset) (registersWritten .reset) False s s.resetBlock where
  buf b h := by cases b <;> simp [buffersWritten] at h
  reg r h := by cases r <;> simp [registersWritten] at h

/-! ### How a command can end -/

/-- The states a command can complete with `OK` in, in a block that is not Faulted: the update it makes, with what is known of
the content it writes. -/
def Completes (s t : State) : Instr → Prop
  | .reset => t = s.resetBlock.finish
  | .rdReg _ | .bufLen _ | .bufRd _ _ | .getByteOff | .getBitOff => ∃ v, t = s.returnValue v
  | .xbClr | .xbPush _ => ∃ data : Buffer, withinLimit s.params.bufCap data.length = true ∧ t = (s.setBX data).finish
  | .toBs _ _ | .lpWrap _ => ∃ data : Buffer, withinLimit s.params.bufCap data.length = true ∧ t = (s.setBBs data).finish
  | .toRbsp src _ => ∃ (data : Buffer) (n : Nat), data.length ≤ (s.buf src).length ∧ t = (s.setRbsp data n).finish
  | .bcLoad src mode => t = (s.attachCursor (s.buf src) mode).finish
  | .readBits _ | .readUe | .readSe =>
    ∃ pos v, s.bcMode = .rd ∧ pos ≤ 8 * s.bCur.length ∧ v < 2 ^ 32 ∧ t = (s.moveCursor pos).returnValue v
  | .writeBits _ _ | .writeUe _ | .writeSe _ | .writeTrail =>
    ∃ bits c, s.bcMode = .wr ∧ appendBits s.params.bufCap { buf := s.bCur, pos := s.bcPos } bits = .ok c ∧
      t = (s.setCursor c.buf c.pos).finish
  | .nextNal =>
    ∃ pos nal scLen eos resync termSc, (s.srcPos ≤ s.params.srcBytes.length → pos ≤ s.params.srcBytes.length) ∧
      withinLimit s.params.bufCap nal.length = true ∧ (termSc = true → nal ≠ [] ∧ 3 ≤ scLen) ∧
      t = (s.moveSource pos).deliver nal scLen eos resync termSc

/-- Every way a command can end (R231): answered by a Faulted block, which keeps all its state (R234); with a fault, which
changes `ERR` and for `NEXT_NAL` the Byte Source (R233); or completed. -/
inductive Ending (i : Instr) (s : State) : State → Prop
  | keptFaulted (c : Completion) (hi : i ≠ .reset) (hs : s.err ≠ 0) : Ending i s (s.complete c)
  | faulted (k : FaultKind) (pos : Nat) (hi : i ≠ .reset) (hs : s.err = 0) (hsrc : i ≠ .nextNal → pos = s.srcPos)
      (hpos : s.srcPos ≤ s.params.srcBytes.length → pos ≤ s.params.srcBytes.length) :
      Ending i s (takeFault k (s.moveSource pos))
  | completed {t : State} (hs : i ≠ .reset → s.err = 0) (h : Completes s t i) : Ending i s t

/-- The endings of a command that `runCommand` runs, given what its pseudocode completes with. -/
theorem ending_of_runCommand {i : Instr} {s t : State} {body : Except FaultKind State} (hi : i ≠ .reset)
    (h : runCommand s body = .next t) (hbody : ∀ u, body = .ok u → Completes s u i) : Ending i s t := by
  rcases runCommand_cases h with ⟨hs, rfl⟩ | ⟨hs, hok⟩ | ⟨k, hs, _, rfl⟩
  · exact .keptFaulted .refused hi hs
  · exact .completed (fun _ => hs) (hbody t hok)
  · exact .faulted k s.srcPos hi hs (fun _ => rfl) id

/-- The endings of a command whose pseudocode raises no fault. -/
theorem ending_of_runCommand_ok {i : Instr} {s t u : State} (hi : i ≠ .reset) (h : runCommand s (.ok u) = .next t)
    (hu : Completes s u i) : Ending i s t :=
  ending_of_runCommand hi h fun _ hv => Except.ok.inj hv ▸ hu

/-! ### What the pseudocode of the commands completes with -/

/-- The value of a field of at most 32 bits is below `2^32` (R122). -/
theorem readField_lt_word (buf : Buffer) (p : Nat) {n : Nat} (hn : n ≤ 32) : readField buf p n < 2 ^ 32 :=
  (readField_lt buf p n).trans_le (Nat.pow_le_pow_right (by omega) hn)

/-- A code number is below `2^32`, and the cursor stays inside the buffer (R123). -/
theorem readUeAt_bounds {buf : Buffer} {pos k next : Nat} (h : readUeAt buf pos = .ok (k, next)) :
    k < 2 ^ 32 ∧ next ≤ 8 * buf.length := by
  obtain ⟨lz, hlz, ⟨hlen, _, _⟩, rfl, rfl⟩ := readUeAt_eq_ok h
  have hfield := readField_lt buf (pos + lz + 1) lz
  have hpow : 2 ^ lz ≤ 2 ^ 31 := Nat.pow_le_pow_right (by omega) hlz
  omega

/-- A 32-bit pattern is below `2^32` (R13). -/
theorem pattern32_lt (z : Int) : pattern32 z < 2 ^ 32 := by
  unfold pattern32; omega

/-- The shared part of `READ_UE` and `READ_SE`: the position and the value it completes with. -/
theorem readCodeWord_ending {i : Instr} {value : Nat → Nat} {s t : State} (hi : i = .readUe ∨ i = .readSe)
    (hvalue : ∀ k < 2 ^ 32, value k < 2 ^ 32) (h : readCodeWord value s = .next t) : Ending i s t := by
  refine ending_of_runCommand (by rcases hi with rfl | rfl <;> simp) h fun u hu => ?_
  split at hu
  · rename_i hmode
    split at hu
    · rename_i k pos hread
      obtain ⟨hk, hpos⟩ := readUeAt_bounds hread
      cases hu
      rcases hi with rfl | rfl <;> exact ⟨pos, value k, hmode, hpos, hvalue k hk, rfl⟩
    · cases hu
  · cases hu

/-- A write of `B_BS` that completes has fitted (R165, R168). -/
theorem exists_setBBs_of_writeBBs {s u : State} {out : Buffer} (h : writeBBs s out = .ok u) :
    ∃ data : Buffer, withinLimit s.params.bufCap data.length = true ∧ u = (s.setBBs data).finish :=
  ⟨out, writeBBs_eq_ok.1 h⟩

/-- A write at the cursor that completes has appended its bits (R141). -/
theorem exists_appendBits_of_writeAtCursor {s u : State} {bits : List Bool} (hmode : s.bcMode = .wr)
    (h : writeAtCursor s bits = .ok u) :
    ∃ bits c, s.bcMode = .wr ∧ appendBits s.params.bufCap { buf := s.bCur, pos := s.bcPos } bits = .ok c ∧
      u = (s.setCursor c.buf c.pos).finish := by
  unfold writeAtCursor at h
  split at h
  · rename_i c hc
    cases h
    exact ⟨bits, c, hmode, hc, rfl⟩
  · cases h

/-- `removeEpb` and the stripping of a start code make nothing longer, so `TO_RBSP` writes no more than it reads (R161). -/
theorem toRbspBytes_length_le {tz : Config.ThirdZero} {hasSc : Bool} {data rest out : Buffer} {n : Nat}
    (hstrip : stripStartCode hasSc data = some (n, rest)) (hout : toRbspBytes tz rest = .ok out) :
    out.length ≤ data.length := by
  obtain ⟨h0, h1, payload, rfl, rfl⟩ := toRbspBytes_eq_ok.1 hout
  have hpayload := removeEpb_length_le tz .copying payload
  have hrest := stripStartCode_length_le hstrip
  simp only [List.length_cons] at hrest ⊢
  omega

/-- The endings of `NEXT_NAL` (R181), from what its scan can do. -/
theorem execNextNal_ending {s t : State} (h : execNextNal s = .next t) : Ending .nextNal s t := by
  unfold execNextNal at h
  split at h
  · rename_i hfaulted
    cases h
    exact .keptFaulted .refused (by simp) ((isFaulted_iff s).1 hfaulted)
  · rename_i hfaulted
    have herr : s.err = 0 := by simpa [isFaulted_iff] using hfaulted
    rcases nalRounds_spec (p := s.params) (bound := scanBound s.params s.srcPos) (pos := s.srcPos) (r := false)
        (by simp only [scanBound]; omega) with
      ⟨pos, resync, hscan, _, _, hend⟩ | ⟨pos, nal, scLen, resync, termSc, hscan, hsc, _, hpos, hcap, hterm, _⟩ |
      ⟨pos, k, hscan, _, hpos, _⟩ <;> rw [scanNal, hscan] at h <;> cases h
    · exact .completed (fun _ => herr)
        ⟨pos, [], 0, true, resync, false, fun hs => (hend hs).le, withinLimit_zero _, by simp, rfl⟩
    · exact .completed (fun _ => herr)
        ⟨pos, nal, scLen, srcEof s.params pos, resync, termSc, fun _ => hpos, hcap, fun ht => ⟨hterm ht, hsc⟩, rfl⟩
    · exact .faulted k pos (by simp) herr (fun hne => absurd rfl hne) fun _ => hpos

/-- Every command that answers a next state ends in one of the ways of `Ending`. -/
theorem exec_ending {i : Instr} {s t : State} (h : exec i s = .next t) : Ending i s t := by
  cases i with
  | reset => cases h; exact .completed (fun hi => absurd rfl hi) rfl
  | rdReg r =>
    simp only [exec, execRdReg] at h
    split at h
    · rename_i hfaulted
      cases h
      exact .keptFaulted _ (by simp) ((isFaulted_iff s).1 hfaulted)
    · rename_i hfaulted
      cases h
      exact .completed (fun _ => by simpa [isFaulted_iff] using hfaulted) ⟨_, rfl⟩
  | xbClr => exact ending_of_runCommand_ok (u := (s.setBX []).finish) (by simp) h ⟨[], withinLimit_zero _, rfl⟩
  | xbPush b =>
    refine ending_of_runCommand (by simp) h fun u hu => ?_
    split at hu
    · rename_i hroom
      cases hu
      exact ⟨s.bX ++ [b], by simpa using hroom, rfl⟩
    · cases hu
  | bufLen src => exact ending_of_runCommand_ok (u := s.returnValue (s.buf src).length) (by simp) h ⟨_, rfl⟩
  | getByteOff => exact ending_of_runCommand_ok (u := s.returnValue s.byteOff) (by simp) h ⟨_, rfl⟩
  | getBitOff => exact ending_of_runCommand_ok (u := s.returnValue s.bitOff) (by simp) h ⟨_, rfl⟩
  | bufRd src index =>
    refine ending_of_runCommand (by simp) h fun u hu => ?_
    split at hu <;> cases hu
    exact ⟨_, rfl⟩
  | nextNal => exact execNextNal_ending h
  | toRbsp src hasSc =>
    refine ending_of_runCommand (by simp) h fun u hu => ?_
    split at hu
    · cases hu
    · rename_i n rest hstrip
      split at hu <;> cases hu
      rename_i out hout
      exact ⟨out, n, toRbspBytes_length_le hstrip hout, rfl⟩
  | toBs | lpWrap =>
    refine ending_of_runCommand (by simp) h fun u hu => ?_
    split at hu
    · exact exists_setBBs_of_writeBBs hu
    · cases hu
  | bcLoad src mode =>
    exact ending_of_runCommand_ok (u := (s.attachCursor (s.buf src) mode).finish) (by simp) h rfl
  | readBits n =>
    refine ending_of_runCommand (by simp) h fun u hu => ?_
    split at hu
    · rename_i hlegal
      split at hu <;> cases hu
      rename_i hroom
      exact ⟨_, _, hlegal.1, hroom, readField_lt_word _ _ hlegal.2, rfl⟩
    · cases hu
  | readUe => exact readCodeWord_ending (.inl rfl) (fun _ hk => hk) h
  | readSe => exact readCodeWord_ending (.inr rfl) (fun _ _ => pattern32_lt _) h
  | writeBits n v =>
    refine ending_of_runCommand (by simp) h fun u hu => ?_
    split at hu
    · rename_i hlegal
      exact exists_appendBits_of_writeAtCursor hlegal.1 hu
    · cases hu
  | writeUe | writeSe =>
    refine ending_of_runCommand (by simp) h fun u hu => ?_
    split at hu
    · rename_i hmode
      split at hu
      · exact exists_appendBits_of_writeAtCursor hmode hu
      · cases hu
    · cases hu
  | writeTrail =>
    refine ending_of_runCommand (by simp) h fun u hu => ?_
    split at hu
    · rename_i hmode
      exact exists_appendBits_of_writeAtCursor hmode hu
    · cases hu

/-! ### What a command leaves as it was -/

/-- A command that completes writes the buffers and registers of its row and moves the Byte Source for `NEXT_NAL` only. -/
theorem leavesRest_of_completes {i : Instr} {s t : State} (h : Completes s t i) :
    LeavesRest (buffersWritten i) (registersWritten i) (i = .nextNal) s t := by
  cases i with
  | reset =>
    subst h
    exact (leavesRest_resetBlock s).trans (leavesRest_complete _ _) (by simp) (by simp) (by simp)
  | rdReg | bufLen | bufRd | getByteOff | getBitOff =>
    obtain ⟨v, rfl⟩ := h
    exact (leavesRest_returnValue s v).mono (by simp) (by simp [registersWritten]) False.elim
  | xbClr | xbPush =>
    obtain ⟨data, _, rfl⟩ := h
    exact (leavesRest_setBX s data).trans (leavesRest_complete _ _) (by simp [buffersWritten]) (by simp) (by simp)
  | toBs | lpWrap =>
    obtain ⟨data, _, rfl⟩ := h
    exact (leavesRest_setBBs s data).trans (leavesRest_complete _ _) (by simp [buffersWritten]) (by simp) (by simp)
  | toRbsp src hasSc =>
    obtain ⟨data, n, _, rfl⟩ := h
    exact (leavesRest_setRbsp s data n).trans (leavesRest_complete _ _) (by simp [buffersWritten])
      (by simp [registersWritten]) (by simp)
  | bcLoad src mode =>
    subst h
    exact (leavesRest_attachCursor s _ mode).trans (leavesRest_complete _ _) (by simp [buffersWritten])
      (by simp [registersWritten]) (by simp)
  | readBits | readUe | readSe =>
    obtain ⟨pos, v, _, _, _, rfl⟩ := h
    exact (leavesRest_moveCursor s pos).trans (leavesRest_returnValue _ v) (by simp) (by simp [registersWritten]) (by simp)
  | writeBits | writeUe | writeSe | writeTrail =>
    obtain ⟨_, c, _, _, rfl⟩ := h
    exact (leavesRest_setCursor s c.buf c.pos).trans (leavesRest_complete _ _) (by simp [buffersWritten])
      (by simp [registersWritten]) (by simp)
  | nextNal =>
    obtain ⟨pos, nal, scLen, eos, resync, termSc, _, _, _, rfl⟩ := h
    exact (leavesRest_moveSource s pos).trans (leavesRest_deliver _ nal scLen eos resync termSc)
      (by simp [buffersWritten]) (by simp [registersWritten]) (by simp)

/-- A command that completes leaves `ERR`, but for `RESET`. -/
theorem err_of_completes {i : Instr} {s t : State} (hi : i ≠ .reset) (h : Completes s t i) : t.err = s.err := by
  have hwritten : RegId.err ∉ registersWritten i := by cases i <;> simp_all [registersWritten]
  exact BitVec.eq_of_toNat_eq ((leavesRest_of_completes h).reg .err hwritten)

/-- However a command ends, it writes the buffers and registers of its row at most, and `ERR`. -/
theorem leavesRest_of_ending {i : Instr} {s t : State} (h : Ending i s t) :
    LeavesRest (buffersWritten i) (.err :: registersWritten i) (i = .nextNal) s t := by
  cases h with
  | keptFaulted c => exact (leavesRest_complete s c).mono (by simp) (by simp) False.elim
  | faulted k pos _ _ hsrc _ =>
    have hmove : LeavesRest [] [] (i = .nextNal) s (s.moveSource pos) :=
      { leavesRest_moveSource s pos with src := hsrc }
    exact hmove.trans (leavesRest_takeFault _ k) (by simp) (by simp) (by simp)
  | completed _ h =>
    exact (leavesRest_of_completes h).mono (by simp) (by simp) id

/-! ### The statements on what a command leaves -/

/-- Settles O15: the frame of every ending, with `ERR` read as its number. -/
theorem onlyNamedStateChanges : Obligations.OnlyNamedStateChanges := by
  intro i s t h
  have hending := exec_ending h
  obtain ⟨hbuf, hreg, hsrc, hparams, hcommands⟩ := leavesRest_of_ending hending
  refine ⟨fun b hb j => by rw [hbuf b hb], fun r hr hne => hreg r ?_, fun herr => ?_, hsrc, hparams, hcommands⟩
  · simp [hne, hr]
  · cases hending with
    | keptFaulted c => exact absurd rfl herr
    | faulted k => exact .inr ⟨k, rfl⟩
    | completed _ hc => exact .inl (by_contra fun hi => herr (err_of_completes hi hc))

/-- A command that returns no value leaves `RES`, but for `RESET` (R29). -/
theorem res_of_completes {i : Instr} {s t : State} (hi : i ≠ .reset) (hvalue : returnsValue i = false)
    (h : Completes s t i) : t.res = s.res := by
  have hwritten : RegId.res ∉ registersWritten i := by cases i <;> simp_all [registersWritten, returnsValue]
  exact (leavesRest_of_completes h).reg .res hwritten

/-- A command that returns a value puts it in `RES` (R29). -/
theorem completion_of_completes {i : Instr} {s t : State} (hvalue : returnsValue i = true) (h : Completes s t i) :
    t.completion = some (.ok t.res) := by
  cases i with
  | reset | xbClr | xbPush | toRbsp | toBs | lpWrap | bcLoad | writeBits | writeUe | writeSe | writeTrail => cases hvalue
  | rdReg | bufLen | bufRd | getByteOff | getBitOff =>
    obtain ⟨v, rfl⟩ := h
    rfl
  | readBits | readUe | readSe =>
    obtain ⟨pos, v, _, _, _, rfl⟩ := h
    rfl
  | nextNal =>
    obtain ⟨pos, nal, scLen, eos, resync, termSc, _, _, _, rfl⟩ := h
    rfl

/-- A cursor read returns a 32-bit value (R29, R122 to R124). -/
theorem res_lt_of_completes {i : Instr} {s t : State} (hi : (∃ n, i = .readBits n) ∨ i = .readUe ∨ i = .readSe)
    (h : Completes s t i) : t.res < 2 ^ 32 := by
  rcases hi with ⟨n, rfl⟩ | rfl | rfl <;> obtain ⟨pos, v, _, _, hv, rfl⟩ := h <;> exact hv

/-- After a fault `ERR.CODE` is not 0 (R232, R233). -/
theorem takeFault_err_ne_zero (k : FaultKind) (s : State) : (takeFault k s).err ≠ 0 := (FaultKind_code_range k).1

/-- Settles O14: a command that ends otherwise than by completing leaves `RES`, and is excluded where a value is claimed. -/
theorem resIsLastReturnedValue : Obligations.ResIsLastReturnedValue := by
  intro i s t h
  cases exec_ending h with
  | keptFaulted c hi hs =>
    exact ⟨fun h => absurd h hi, fun _ _ => rfl, fun _ h => absurd h hs, fun _ h => absurd h hs⟩
  | faulted k pos hi =>
    have herr := takeFault_err_ne_zero k (s.moveSource pos)
    exact ⟨fun h => absurd h hi, fun _ _ => rfl, fun _ _ h => absurd h herr, fun _ _ h => absurd h herr⟩
  | completed hs hc =>
    refine ⟨?_, fun hi hkeep => ?_, fun hvalue _ _ => completion_of_completes hvalue hc,
      fun hi _ _ => res_lt_of_completes hi hc⟩
    · rintro rfl
      subst hc
      rfl
    · have herr : t.err = 0 := (err_of_completes hi hc).trans (hs hi)
      rcases hkeep with hvalue | hne | hne
      · exact res_of_completes hi hvalue hc
      · exact absurd (hs hi) hne
      · exact absurd herr hne

/-! ### The invariants of R38 under each update -/

/-- No invariant speaks of the host's list. -/
theorem Inv_setCommands {s : State} (h : Inv s) (rest : List Word) : Inv { s with commands := rest } := { h with }

theorem Inv_complete {s : State} (h : Inv s) (c : Completion) : Inv (s.complete c) := { h with }

theorem Inv_returnValue {s : State} (h : Inv s) (v : Nat) : Inv (s.returnValue v) := { h with }

/-- Every code of R232 is at most 5. -/
theorem Inv_takeFault {s : State} (h : Inv s) (k : FaultKind) : Inv (takeFault k s) :=
  { h with errLegal := (FaultKind_code_range k).2 }

theorem Inv_moveSource {s : State} (h : Inv s) {pos : Nat} (hpos : pos ≤ s.params.srcBytes.length) :
    Inv (s.moveSource pos) :=
  { h with srcBound := hpos }

theorem Inv_setBX {s : State} (h : Inv s) {data : Buffer} (hd : withinLimit s.params.bufCap data.length = true) :
    Inv (s.setBX data) :=
  { h with buffersFit := Memory_wf_setBX h.buffersFit hd }

theorem Inv_setBBs {s : State} (h : Inv s) {data : Buffer} (hd : withinLimit s.params.bufCap data.length = true) :
    Inv (s.setBBs data) :=
  { h with buffersFit := Memory_wf_setBBs h.buffersFit hd }

theorem Inv_setRbsp {s : State} (h : Inv s) {data : Buffer} (n : Nat)
    (hd : withinLimit s.params.bufCap data.length = true) : Inv (s.setRbsp data n) :=
  { h with buffersFit := Memory_wf_setRbsp h.buffersFit n hd }

/-- On a byte boundary only the length is left of R38 item 2. -/
theorem writeForm_at_end (data : Buffer) : writeForm data (8 * data.length) :=
  ⟨by omega, fun h => absurd (by omega) h⟩

theorem Inv_attachCursor {s : State} (h : Inv s) {data : Buffer} (mode : CursorMode)
    (hd : withinLimit s.params.bufCap data.length = true) : Inv (s.attachCursor data mode) :=
  { h with
    readBound := by rintro hmode; cases hmode; exact Nat.zero_le _
    writeShape := by rintro hmode; cases hmode; exact writeForm_at_end data
    buffersFit := Memory_wf_attachCursor h.buffersFit mode hd }

theorem Inv_moveCursor {s : State} (h : Inv s) {pos : Nat} (hmode : s.bcMode = .rd) (hpos : pos ≤ 8 * s.bCur.length) :
    Inv (s.moveCursor pos) :=
  { h with
    readBound := fun _ => hpos
    writeShape := fun hwr => by simp [hmode] at hwr }

theorem Inv_setCursor {s : State} (h : Inv s) {data : Buffer} {pos : Nat} (hmode : s.bcMode = .wr)
    (hform : writeForm data pos) (hd : withinLimit s.params.bufCap data.length = true) : Inv (s.setCursor data pos) :=
  { h with
    readBound := fun hrd => by simp [hmode] at hrd
    writeShape := fun _ => hform
    buffersFit := Memory_wf_setCursor h.buffersFit pos hd }

/-- `TYPE` of a NAL unit that has a first byte, in numbers (R84). -/
theorem nalType_field_toNat (h0 : Byte) (rest : Buffer) :
    ((nalTypeOf (h0 :: rest)).extractLsb' 0 6).toNat = h0.toNat / 2 % 64 := by
  rw [BitVec.extractLsb'_toNat, nalTypeOf_cons_toNat]
  simp

theorem Inv_deliver {s : State} (h : Inv s) {nal : Buffer} {scLen : Nat} (eos resync : Bool) {termSc : Bool}
    (hcap : withinLimit s.params.bufCap nal.length = true) (hterm : termSc = true → nal ≠ [] ∧ 3 ≤ scLen) :
    Inv (s.deliver nal scLen eos resync termSc) :=
  { h with
    invalidIff := nalTypeOf_invalid_iff nal
    typeOfFirst := fun hvalid => by
      cases nal with
      | nil => exact absurd ((nalTypeOf_invalid_iff []).2 rfl) (ne_true_of_eq_false hvalid)
      | cons h0 rest => exact ⟨h0, rest, rfl, nalType_field_toNat h0 rest⟩
    termScImplies := fun ht => hterm ((packDmFlags_termSc eos resync termSc).symm.trans ht)
    buffersFit := Memory_wf_deliver h.buffersFit scLen eos resync termSc hcap }

/-- The reset values of R37 meet the seven items whatever the block held before. -/
theorem Inv_resetBlock {s : State} (hsrc : s.srcPos ≤ s.params.srcBytes.length) (hparams : s.params.Valid) :
    Inv s.resetBlock where
  readBound _ := Nat.zero_le _
  writeShape hmode := by cases hmode
  invalidIff := by simp [State.nalInvalid, invalidNalType]
  typeOfFirst hvalid := by simp [State.nalInvalid, invalidNalType] at hvalid
  termScImplies hterm := by simp [State.termSc] at hterm
  buffersFit := Memory_wf_resetBlock s
  errLegal := Nat.zero_le _
  srcBound := hsrc
  paramsValid := hparams

/-- The machine at power-on: it is its own reset, with a Byte Source at 0 (R37, R260). -/
theorem Inv_launch {p : Config.Params} (hp : p.Valid) : Inv (State.launch p) :=
  Inv_resetBlock (s := State.launch p) (Nat.zero_le _) hp

/-! ### The invariants of R38 along every step -/

/-- Bits appended to a buffer that fits leave one that fits, in write form (R145, R236). -/
theorem appendBits_keeps_form {cap : Option Nat} {c d : WriteCursor} {bits : List Bool}
    (hform : writeForm c.buf c.pos) (hfits : withinLimit cap c.buf.length = true) (h : appendBits cap c bits = .ok d) :
    writeForm d.buf d.pos ∧ withinLimit cap d.buf.length = true := by
  rcases appendBits_eq (cap := cap) bits hform with ⟨herror, _⟩ | ⟨buf, hok, hbuf, hroom, _⟩
  · cases herror.symm.trans h
  · cases hok.symm.trans h
    refine ⟨hbuf, ?_⟩
    have hlen : buf.length = (c.pos + bits.length + 7) / 8 := hbuf.1
    rw [hlen]
    rcases lt_or_ge c.buf.length ((c.pos + bits.length + 7) / 8) with hgrown | hkept
    · exact hroom hgrown
    · exact withinLimit_mono hkept hfits

/-- Every completed command keeps the invariants. -/
theorem Inv_of_completes {i : Instr} {s t : State} (hinv : Inv s) (h : Completes s t i) : Inv t := by
  have hfits := Memory_wf_iff.1 hinv.buffersFit
  cases i with
  | reset =>
    subst h
    exact Inv_complete (Inv_resetBlock hinv.srcBound hinv.paramsValid) _
  | rdReg | bufLen | bufRd | getByteOff | getBitOff =>
    obtain ⟨v, rfl⟩ := h
    exact Inv_returnValue hinv v
  | xbClr | xbPush =>
    obtain ⟨data, hd, rfl⟩ := h
    exact Inv_complete (Inv_setBX hinv hd) _
  | toBs | lpWrap =>
    obtain ⟨data, hd, rfl⟩ := h
    exact Inv_complete (Inv_setBBs hinv hd) _
  | toRbsp src hasSc =>
    obtain ⟨data, n, hlen, rfl⟩ := h
    exact Inv_complete (Inv_setRbsp hinv n (withinLimit_mono hlen (hfits src))) _
  | bcLoad src mode =>
    subst h
    exact Inv_complete (Inv_attachCursor hinv mode (hfits src)) _
  | readBits | readUe | readSe =>
    obtain ⟨pos, v, hmode, hpos, _, rfl⟩ := h
    exact Inv_returnValue (Inv_moveCursor hinv hmode hpos) v
  | writeBits | writeUe | writeSe | writeTrail =>
    obtain ⟨bits, c, hmode, happend, rfl⟩ := h
    obtain ⟨hform, hd⟩ := appendBits_keeps_form (hinv.writeShape hmode) (hfits .cur) happend
    exact Inv_complete (Inv_setCursor hinv hmode hform hd) _
  | nextNal =>
    obtain ⟨pos, nal, scLen, eos, resync, termSc, hpos, hcap, hterm, rfl⟩ := h
    exact Inv_deliver (Inv_moveSource hinv (hpos hinv.srcBound)) eos resync hcap hterm

/-- However a command ends, it keeps the invariants. -/
theorem Inv_of_ending {i : Instr} {s t : State} (hinv : Inv s) (h : Ending i s t) : Inv t := by
  cases h with
  | keptFaulted c => exact Inv_complete hinv c
  | faulted k pos _ _ _ hpos => exact Inv_takeFault (Inv_moveSource hinv (hpos hinv.srcBound)) k
  | completed _ h => exact Inv_of_completes hinv h

/-- An illegal word, refused or faulting, keeps the invariants. -/
theorem Inv_of_runIllegalWord {s t : State} (hinv : Inv s) (h : runIllegalWord s = .next t) : Inv t := by
  rcases runCommand_cases h with ⟨_, rfl⟩ | ⟨_, hok⟩ | ⟨k, _, _, rfl⟩
  · exact Inv_complete hinv _
  · cases hok
  · exact Inv_takeFault hinv k

/-- Everything a step can be: idle, a command, or an illegal word (R15, R105, R250). -/
theorem step_cases {s t : State} (h : step s = .next t) :
    (s.commands = [] ∧ t = s) ∨ ∃ w rest, s.commands = w :: rest ∧
      ((∃ i, decode w = .legal i ∧ exec i { s with commands := rest } = .next t) ∨
        ∃ why, decode w = .illegal why ∧ runIllegalWord { s with commands := rest } = .next t) := by
  unfold step at h
  cases hc : s.commands with
  | nil =>
    rw [fetchCommand_nil hc] at h
    cases h
    exact .inl ⟨rfl, rfl⟩
  | cons w rest =>
    rw [fetchCommand_cons hc] at h
    refine .inr ⟨w, rest, rfl, ?_⟩
    cases hd : decode w with
    | legal i => simp only [hd] at h; exact .inl ⟨i, rfl, h⟩
    | illegal why => simp only [hd] at h; exact .inr ⟨why, rfl, h⟩

/-- Settles O8: power-on has the invariants, and each way a step can go keeps them. -/
theorem stepKeepsInvariants : Obligations.StepKeepsInvariants := by
  refine ⟨fun p hp => Inv_launch hp, fun s t hinv h => ?_⟩
  rcases step_cases h with ⟨_, rfl⟩ | ⟨w, rest, _, ⟨i, _, hexec⟩ | ⟨why, _, hillegal⟩⟩
  · exact hinv
  · exact Inv_of_ending (Inv_setCommands hinv rest) (exec_ending hexec)
  · exact Inv_of_runIllegalWord (Inv_setCommands hinv rest) hillegal

/-- The defaults of R6 meet its constraints: both limits are infinite. -/
theorem withStream_valid (bytes : Buffer) : (Config.Params.withStream bytes).Valid :=
  ⟨fun _ h => by simp [Config.Params.withStream] at h, fun _ h => by simp [Config.Params.withStream] at h⟩

/-- Settles O9: reset is power-on with valid parameters. -/
theorem resetHasInvariants : Obligations.ResetHasInvariants := Inv_launch (withStream_valid [])

/-! ### The values after reset, and reading registers -/

/-- Settles O17: power-on and `RESET` leave one and the same block, up to the completion. -/
theorem resetTable : Obligations.ResetTable := by
  refine ⟨fun t ht => ?_, fun p => rfl, fun s => ⟨_, rfl, rfl⟩⟩
  have hblock : ∃ (u : State) (c : Option Completion), t = { u.resetBlock with completion := c } := by
    rcases ht with ⟨p, rfl⟩ | ⟨s, h⟩
    · exact ⟨State.launch p, none, rfl⟩
    · cases h
      exact ⟨s, some (.ok 0), rfl⟩
  obtain ⟨u, c, rfl⟩ := hblock
  simp [State.reg, State.byteOff, State.bitOff, State.nalInvalid, State.nalType, State.eos, State.resync, State.termSc,
    invalidNalType]

/-- `DM_NAL_TYPE` is `TYPE + 64·INVALID` (R31). -/
theorem dmNalType_toNat (s : State) : s.dmNalType.toNat = s.nalType.toNat + 64 * s.nalInvalid.toNat := by
  have hlt := s.dmNalType.isLt
  have hinvalid := Nat.toNat_testBit s.dmNalType.toNat 6
  simp only [State.nalType, State.nalInvalid, BitVec.extractLsb'_toNat, BitVec.getLsbD, Nat.shiftRight_zero]
  omega

/-- `DM_FLAGS` is `EOS + 2·RESYNC + 4·TERM_SC` (R31). -/
theorem dmFlags_toNat (s : State) : s.dmFlags.toNat = s.eos.toNat + 2 * s.resync.toNat + 4 * s.termSc.toNat := by
  have hlt := s.dmFlags.isLt
  have heos := Nat.toNat_testBit s.dmFlags.toNat 0
  have hresync := Nat.toNat_testBit s.dmFlags.toNat 1
  have htermSc := Nat.toNat_testBit s.dmFlags.toNat 2
  simp only [State.eos, State.resync, State.termSc, BitVec.getLsbD]
  omega

/-- `BC_MODE` as a number (R27, R30). -/
theorem modeValue_eq (mode : CursorMode) : modeValue mode = if mode = .wr then 1 else 0 := by
  cases mode <;> rfl

/-- The value `RD_REG` returns is the one R27 gives for the register (R212). -/
theorem reg_mem_registerValues (s : State) (r : RegId) : (r, s.reg r) ∈ registerValues s := by
  cases r <;>
    simp [registerValues, State.reg, State.byteOff, State.bitOff, modeValue_eq, dmNalType_toNat s, dmFlags_toNat s]

/-- Settles O19: the register's value goes to the completion, and to `RES` unless the block is Faulted. -/
theorem rdRegReturnsRegister : Obligations.RdRegReturnsRegister := by
  intro s r
  refine ⟨s.reg r, reg_mem_registerValues s r, ?_⟩
  show execRdReg r s = _
  by_cases herr : s.err = 0
  · rw [execRdReg, isFaulted_of_zero herr, if_pos herr]
    rfl
  · rw [execRdReg, isFaulted_of_ne herr, if_neg herr]
    rfl

end Sys2Proof.Machine

/-! Proofs about memory: the three calls of the Byte Source. -/

namespace Sys2Proof.Machine

/-- A value is within a limit when no limit is set, or when it is at most the limit that is (R6). -/
theorem withinLimit_iff {limit : Option Nat} {n : Nat} : withinLimit limit n = true ↔ ∀ w ∈ limit, n ≤ w := by
  cases limit <;> simp

/-- An unread byte is returned and passed, by its position in the stream (R57). -/
theorem srcGetNextByte_of_lt {p : Config.Params} {pos : Nat} (h : pos < p.srcBytes.length) :
    srcGetNextByte p pos = (p.srcBytes[pos], pos + 1) :=
  srcGetNextByte_of_getElem? (List.getElem?_eq_getElem h)

/-- A rewind inside the window and inside what was read moves back by its length (R58). -/
theorem srcRewind_of_le {p : Config.Params} {pos n : Nat} (hwindow : ∀ w ∈ p.rewindWindow, n ≤ w) (hpos : n ≤ pos) :
    srcRewind p pos n = some (pos - n) :=
  srcRewind_eq_some.2 ⟨withinLimit_iff.2 hwindow, hpos, rfl⟩

/-- A rewind beyond the window or before the start fails (R58). -/
theorem srcRewind_of_not_le {p : Config.Params} {pos n : Nat} (h : ¬ ((∀ w ∈ p.rewindWindow, n ≤ w) ∧ n ≤ pos)) :
    srcRewind p pos n = none := by
  rw [← withinLimit_iff, not_and_or, Bool.not_eq_true, Nat.not_le] at h
  exact srcRewind_eq_none.2 h

/-- Settles O51: each call of the Byte Source, inside its range and beyond it. -/
theorem byteSourceCalls : Obligations.ByteSourceCalls := fun p pos _ _ =>
  ⟨srcEof_iff p pos, srcGetNextByte_of_lt, srcGetNextByte_at_end, srcRewind_of_le, srcRewind_of_not_le⟩

end Sys2Proof.Machine

/-! Proofs about the encoding: the decoder and the encoder are each other's inverses, and the legal words are the rows of
R102. -/

namespace Sys2Proof

/-! ### The sub-fields of a buffer operand (R103) -/

/-- `n[2:0]` of a buffer operand is the buffer id. -/
@[simp] theorem bufOperand_low (high : BitVec 4) (src : BufId) : (bufOperand high src).extractLsb' 0 3 = src.code :=
  BitVec.extractLsb'_append_eq_right

/-- `n[4]` of `TO_RBSP` is the flag that was put there. -/
@[simp] theorem bufOperand_flag (hasSc : Bool) (src : BufId) :
    (bufOperand (0#3 ++ BitVec.ofBool hasSc) src)[4] = hasSc := by
  cases src <;> cases hasSc <;> rfl

/-- `n[4]` of `BC_LOAD` is the bit that was put there. -/
@[simp] theorem bufOperand_mode (c : BitVec 1) (src : BufId) : (bufOperand (0#3 ++ c) src).extractLsb' 4 1 = c := by
  revert c
  cases src <;> decide

/-- `n[5:4]` of `TO_BS` is the 2-bit field that was put there. -/
@[simp] theorem bufOperand_form (c : BitVec 2) (src : BufId) : (bufOperand (0#2 ++ c) src).extractLsb' 4 2 = c := by
  revert c
  cases src <;> decide

/-- A field `n` whose bit 3 and whose masked high bits are 0 is an operand of the buffer in `n[2:0]`. -/
theorem exists_eq_bufOperand {n : BitVec 8} {m : BitVec 4} {src : BufId} (hzero : n &&& (m ++ 1#1 ++ 0#3) = 0)
    (hsrc : src.code = n.extractLsb' 0 3) : ∃ high, high &&& m = 0 ∧ n = bufOperand high src := by
  have hparts : n = n.extractLsb' 4 4 ++ n.extractLsb' 3 1 ++ n.extractLsb' 0 3 := by
    rw [BitVec.extractLsb'_append_extractLsb'_eq_extractLsb' (by omega),
      BitVec.extractLsb'_append_extractLsb'_eq_extractLsb' (by omega)]
    exact BitVec.extractLsb'_eq_self.symm
  rw [hparts, BitVec.and_append, BitVec.and_append] at hzero
  have hupper := congrArg (BitVec.extractLsb' 3 5) hzero
  rw [BitVec.extractLsb'_append_eq_left] at hupper
  have hhigh := congrArg (BitVec.extractLsb' 1 4) hupper
  have hmid := congrArg (BitVec.extractLsb' 0 1) hupper
  rw [BitVec.extractLsb'_append_eq_left] at hhigh
  rw [BitVec.extractLsb'_append_eq_right, show (1#1) = BitVec.allOnes 1 from rfl, BitVec.and_allOnes] at hmid
  refine ⟨n.extractLsb' 4 4, hhigh, ?_⟩
  rw [bufOperand, hsrc, ← show n.extractLsb' 3 1 = 0#1 from hmid]
  exact hparts

/-- High bits whose upper three are 0 hold one bit. -/
theorem exists_eq_zero_append_one : ∀ high : BitVec 4, high &&& 0xE = 0 → ∃ c : BitVec 1, high = 0#3 ++ c := by
  decide

/-- High bits whose upper two are 0 hold a 2-bit field. -/
theorem exists_eq_zero_append_two : ∀ high : BitVec 4, high &&& 0xC = 0 → ∃ c : BitVec 2, high = 0#2 ++ c := by
  decide

/-- One bit is the bit of a flag. -/
theorem exists_eq_ofBool : ∀ c : BitVec 1, ∃ b, c = BitVec.ofBool b := by
  decide

/-- A field whose whole mask is 1 is zero. -/
theorem eq_zero_of_full_mask {k : Nat} {x m : BitVec k} (h : x &&& m = 0) (hm : m = BitVec.allOnes k) : x = 0 := by
  rwa [hm, BitVec.and_allOnes] at h

/-- A field `v` whose bits 31:8 are 0 is the byte in its bits 7:0 (R104). -/
theorem eq_zero_append_byte {v : BitVec 32} (h : v &&& (BitVec.allOnes 24 ++ 0#8) = 0) :
    v = 0#24 ++ v.extractLsb' 0 8 := by
  have hparts : v = v.extractLsb' 8 24 ++ v.extractLsb' 0 8 := by
    rw [BitVec.extractLsb'_append_extractLsb'_eq_extractLsb' (by omega)]
    exact BitVec.extractLsb'_eq_self.symm
  rw [hparts, BitVec.and_append] at h
  have hhigh := congrArg (BitVec.extractLsb' 8 24) h
  rw [BitVec.extractLsb'_append_eq_left, BitVec.and_allOnes] at hhigh
  rw [← show v.extractLsb' 8 24 = 0#24 from hhigh]
  exact hparts

/-! ### The operands of a row -/

@[simp] theorem nField_encode (i : Instr) : nField (encode i) = i.nOperand := nField_joinFields _ _ _
@[simp] theorem vField_encode (i : Instr) : vField (encode i) = i.vOperand := vField_joinFields _ _ _

theorem decodeBuf_eq_legal {w : Word} {make : BufId → Decoded} {i : Instr} :
    decodeBuf w make = .legal i ↔ ∃ src : BufId, src.code = (nField w).extractLsb' 0 3 ∧ make src = .legal i := by
  unfold decodeBuf
  constructor
  · intro h
    split at h
    · rename_i src hsrc
      exact ⟨src, BufId_code_of_ofCode hsrc, h⟩
    · cases h
  · rintro ⟨src, hsrc, hmake⟩
    simpa only [← hsrc, BufId_ofCode_code] using hmake

theorem decodeCount_eq_legal {w : Word} {make : BitVec 8 → Instr} {i : Instr} :
    decodeCount w make = .legal i ↔ countOk (nField w) = true ∧ make (nField w) = i := by
  unfold decodeCount
  split <;> simp [*]

/-- The operands in a command's own word are the command's. -/
theorem operands_encode {i : Instr} (hi : wellFormed i = true) : i.op.operands (encode i) = .legal i := by
  cases i with
  | reset | xbClr | nextNal | readUe | readSe | getByteOff | getBitOff | writeTrail => rfl
  | rdReg r => simp [Op.operands, Instr.op, Instr.nOperand]
  | xbPush b =>
    have hbyte : (0#24 ++ b).extractLsb' 0 8 = b := BitVec.extractLsb'_append_eq_right
    simp [Op.operands, Instr.op, Instr.vOperand, hbyte]
  | writeUe v | writeSe v => simp [Op.operands, Instr.op, Instr.vOperand]
  | bufLen src | bufRd src _ | lpWrap src | toRbsp src _ | toBs src _ | bcLoad src _ =>
    exact decodeBuf_eq_legal.2
      ⟨src, by simp [Instr.nOperand], by simp [Instr.nOperand, Instr.vOperand]⟩
  | readBits n | writeBits n _ =>
    simp [Op.operands, Instr.op, decodeCount, Instr.nOperand, Instr.vOperand, show countOk n = true from hi]

/-- The word `w` has the operand fields of the legal command `i` of the row `o`. -/
structure HoldsOperands (w : Word) (o : Op) (i : Instr) : Prop where
  wf : wellFormed i = true
  op : i.op = o
  n : i.nOperand = nField w
  v : i.vOperand = vField w

/-- The operands of a row are read from fields that hold nothing else: the bits the row masks are 0. -/
theorem holdsOperands_of_operands {w : Word} {o : Op} {i : Instr} (hn : nField w &&& nField o.mask = 0)
    (hv : vField w &&& vField o.mask = 0) (h : o.operands w = .legal i) : HoldsOperands w o i := by
  cases o with
  | reset | xbClr | nextNal | readUe | readSe | getByteOff | getBitOff | writeTrail =>
    cases h
    exact ⟨rfl, rfl, (eq_zero_of_full_mask hn (by decide)).symm, (eq_zero_of_full_mask hv (by decide)).symm⟩
  | rdReg =>
    simp only [Op.operands] at h
    split at h
    · rename_i r hr
      cases h
      exact ⟨rfl, rfl, RegId_number_of_ofNumber hr, (eq_zero_of_full_mask hv (by decide)).symm⟩
    · cases h
  | xbPush =>
    cases h
    exact ⟨rfl, rfl, (eq_zero_of_full_mask hn (by decide)).symm, (eq_zero_append_byte hv).symm⟩
  | writeUe | writeSe =>
    cases h
    exact ⟨rfl, rfl, (eq_zero_of_full_mask hn (by decide)).symm, rfl⟩
  | readBits =>
    obtain ⟨hcount, rfl⟩ := decodeCount_eq_legal.1 h
    exact ⟨hcount, rfl, rfl, (eq_zero_of_full_mask hv (by decide)).symm⟩
  | writeBits =>
    obtain ⟨hcount, rfl⟩ := (decodeCount_eq_legal (make := fun n => .writeBits n (vField w))).1 h
    exact ⟨hcount, rfl, rfl, rfl⟩
  | bufLen | lpWrap =>
    obtain ⟨src, hsrc, hmake⟩ := decodeBuf_eq_legal.1 h
    obtain ⟨high, hhigh, hfield⟩ := exists_eq_bufOperand (m := 0xF) hn hsrc
    cases hmake
    cases eq_zero_of_full_mask hhigh rfl
    exact ⟨rfl, rfl, hfield.symm, (eq_zero_of_full_mask hv (by decide)).symm⟩
  | bufRd =>
    obtain ⟨src, hsrc, hmake⟩ := decodeBuf_eq_legal.1 h
    obtain ⟨high, hhigh, hfield⟩ := exists_eq_bufOperand (m := 0xF) hn hsrc
    cases hmake
    cases eq_zero_of_full_mask hhigh rfl
    exact ⟨rfl, rfl, hfield.symm, rfl⟩
  | toRbsp =>
    obtain ⟨src, hsrc, hmake⟩ := decodeBuf_eq_legal.1 h
    obtain ⟨high, hhigh, hfield⟩ := exists_eq_bufOperand (m := 0xE) hn hsrc
    obtain ⟨c, rfl⟩ := exists_eq_zero_append_one high hhigh
    obtain ⟨hasSc, rfl⟩ := exists_eq_ofBool c
    rw [hfield, BitVec.getLsbD_eq_getElem (by decide), bufOperand_flag] at hmake
    cases hmake
    exact ⟨rfl, rfl, hfield.symm, (eq_zero_of_full_mask hv (by decide)).symm⟩
  | bcLoad =>
    obtain ⟨src, hsrc, hmake⟩ := decodeBuf_eq_legal.1 h
    obtain ⟨high, hhigh, hfield⟩ := exists_eq_bufOperand (m := 0xE) hn hsrc
    obtain ⟨c, rfl⟩ := exists_eq_zero_append_one high hhigh
    rw [hfield, bufOperand_mode] at hmake
    cases hmake
    refine ⟨rfl, rfl, ?_, (eq_zero_of_full_mask hv (by decide)).symm⟩
    rw [hfield, Instr.nOperand, CursorMode_code_ofCode]
  | toBs =>
    obtain ⟨src, hsrc, hmake⟩ := decodeBuf_eq_legal.1 h
    obtain ⟨high, hhigh, hfield⟩ := exists_eq_bufOperand (m := 0xC) hn hsrc
    obtain ⟨c, rfl⟩ := exists_eq_zero_append_two high hhigh
    rw [hfield, bufOperand_form] at hmake
    split at hmake
    · rename_i sc hsc
      cases hmake
      refine ⟨rfl, rfl, ?_, (eq_zero_of_full_mask hv (by decide)).symm⟩
      rw [hfield, Instr.nOperand, ScForm_code_of_ofCode hsc]
    · cases hmake

/-! ### Decoding and encoding -/

/-- A word that satisfies a row's mask is decoded by that row (R105). -/
theorem decode_of_mask {w : Word} {o : Op} (hmask : w &&& o.mask = o.pattern) : decode w = o.operands w := by
  have hop : opField w = o.code := ((mask_iff o _ (nField w) (vField w)).1 (by rwa [joinFields_fields])).1
  simp only [decode, hop, Op_ofCode_code, if_pos hmask]

/-- A word is legal exactly as the operands of a row whose mask it satisfies (R105). -/
theorem decode_eq_legal {w : Word} {i : Instr} :
    decode w = .legal i ↔ ∃ o : Op, w &&& o.mask = o.pattern ∧ o.operands w = .legal i := by
  constructor
  · intro h
    unfold decode at h
    split at h
    · cases h
    · rename_i o _
      split at h
      · rename_i hmask
        exact ⟨o, hmask, h⟩
      · cases h
  · rintro ⟨o, hmask, h⟩
    rw [decode_of_mask hmask, h]

/-- A word satisfies the mask of one row at most, because its opcode is the row's (R102). -/
theorem row_unique {w : Word} {o o' : Op} (h : w &&& o.mask = o.pattern) (h' : w &&& o'.mask = o'.pattern) : o = o' := by
  rw [← joinFields_fields w, mask_iff] at h h'
  have hcode : o.code = o'.code := h.1.symm.trans h'.1
  simpa using congrArg Op.ofCode hcode

/-- Every command's word lies in the command's row (R102). -/
theorem encode_satisfies_mask (i : Instr) : encode i &&& i.op.mask = i.op.pattern := by
  cases i with
  | reset => exact Laws.OpcodeRow.reset.1
  | rdReg r => exact (Laws.OpcodeRow.rdReg r).1
  | xbClr => exact Laws.OpcodeRow.xbClr.1
  | xbPush b => exact (Laws.OpcodeRow.xbPush b).1
  | bufLen src => exact (Laws.OpcodeRow.bufLen src).1
  | bufRd src index => exact (Laws.OpcodeRow.bufRd src index).1
  | nextNal => exact Laws.OpcodeRow.nextNal.1
  | toRbsp src hasSc => exact (Laws.OpcodeRow.toRbsp src hasSc).1
  | toBs src sc => exact (Laws.OpcodeRow.toBs src sc).1
  | lpWrap src => exact (Laws.OpcodeRow.lpWrap src).1
  | bcLoad src mode => exact (Laws.OpcodeRow.bcLoad src mode).1
  | readBits n => exact (Laws.OpcodeRow.readBits n).1
  | readUe => exact Laws.OpcodeRow.readUe.1
  | readSe => exact Laws.OpcodeRow.readSe.1
  | getByteOff => exact Laws.OpcodeRow.getByteOff.1
  | getBitOff => exact Laws.OpcodeRow.getBitOff.1
  | writeBits n v => exact (Laws.OpcodeRow.writeBits n v).1
  | writeUe v => exact (Laws.OpcodeRow.writeUe v).1
  | writeSe v => exact (Laws.OpcodeRow.writeSe v).1
  | writeTrail => exact Laws.OpcodeRow.writeTrail.1

/-- Settles O1: a command's word lies in the command's row, and the row reads the command's operands back. -/
theorem decodeInvertsEncode : Obligations.DecodeInvertsEncode := by
  intro i hi
  rw [decode_of_mask (encode_satisfies_mask i), operands_encode hi]

/-- Settles O2: opcode, masked bits and operands of a legal word leave no bit of it open. -/
theorem encodeInvertsDecode : Obligations.EncodeInvertsDecode := by
  intro w i h
  obtain ⟨o, hmask, hoperands⟩ := decode_eq_legal.1 h
  rw [← joinFields_fields w, mask_iff] at hmask
  obtain ⟨hop, hn, hv⟩ := hmask
  have hold := holdsOperands_of_operands hn hv hoperands
  refine ⟨hold.wf, ?_⟩
  rw [encode, hold.op, hold.n, hold.v, ← hop, joinFields_fields]

end Sys2Proof

namespace Sys2Proof.Machine

/-! ### Legal words and the opcode map -/

/-- `n[2:0]` names a buffer exactly when it is at most 4 (R22). -/
theorem exists_bufCode_iff (n : BitVec 8) : (∃ src : BufId, src.code = n.extractLsb' 0 3) ↔ n.toNat % 8 ≤ 4 := by
  have hcodes : ∀ c : BitVec 3, (∃ src ∈ [BufId.nal, .rbsp, .bs, .x, .cur], src.code = c) ↔ c.toNat ≤ 4 := by decide
  have hvalue : (n.extractLsb' 0 3).toNat = n.toNat % 8 := by simp [BitVec.extractLsb'_toNat]
  rw [← hvalue, ← hcodes]
  exact exists_congr fun src => by cases src <;> simp

/-- The numbers of R27 are those of the registers. -/
theorem exists_regNumber_iff (n : BitVec 8) :
    (∃ r : RegId, r.number = n) ↔ n.toNat ∈ [0x00, 0x01, 0x10, 0x11, 0x12, 0x13, 0x14, 0x20, 0x21, 0x22, 0x30] := by
  have hnumbers : [0x00, 0x01, 0x10, 0x11, 0x12, 0x13, 0x14, 0x20, 0x21, 0x22, 0x30] =
      [RegId.err, .res, .bcMode, .bcByteOff, .bcBitOff, .bcLen, .bcPos, .dmNalType, .dmScLen, .dmFlags, .trScLen].map
        fun r => r.number.toNat := rfl
  rw [hnumbers, List.mem_map]
  constructor
  · rintro ⟨r, rfl⟩
    exact ⟨r, by cases r <;> simp, rfl⟩
  · rintro ⟨r, _, hr⟩
    exact ⟨r, BitVec.eq_of_toNat_eq hr⟩

/-- `n[5:4]` names a start-code form exactly when it is not 3 (R103). -/
theorem exists_formCode_iff (n : BitVec 8) : (∃ sc, ScForm.ofCode (n.extractLsb' 4 2) = some sc) ↔ n.toNat / 16 % 4 ≠ 3 := by
  have hcodes : ∀ c : BitVec 2, (ScForm.ofCode c).isSome = true ↔ c.toNat ≠ 3 := by decide
  have hvalue : (n.extractLsb' 4 2).toNat = n.toNat / 16 % 4 := by
    simp [BitVec.extractLsb'_toNat, Nat.shiftRight_eq_div_pow]
  rw [← hvalue, ← hcodes, Option.isSome_iff_exists]

/-- A row whose only operand check is the buffer id. -/
theorem exists_decodeBuf_iff {w : Word} {make : BufId → Decoded} (hmake : ∀ src, ∃ i, make src = .legal i) :
    (∃ i, decodeBuf w make = .legal i) ↔ (nField w).toNat % 8 ≤ 4 := by
  rw [← exists_bufCode_iff]
  constructor
  · rintro ⟨i, h⟩
    obtain ⟨src, hsrc, _⟩ := decodeBuf_eq_legal.1 h
    exact ⟨src, hsrc⟩
  · rintro ⟨src, hsrc⟩
    obtain ⟨i, hi⟩ := hmake src
    exact ⟨i, decodeBuf_eq_legal.2 ⟨src, hsrc, hi⟩⟩

/-- A bit count is legal up to 32 (R102). -/
theorem countOk_iff {n : BitVec 8} : countOk n = true ↔ n.toNat ≤ 32 := decide_eq_true_iff

/-- A row whose only operand check is the bit count. -/
theorem exists_decodeCount_iff {w : Word} {make : BitVec 8 → Instr} :
    (∃ i, decodeCount w make = .legal i) ↔ (nField w).toNat ≤ 32 := by
  simp [decodeCount_eq_legal, countOk_iff]

/-- The operand checks of the decoder are the constraints of R102 in numbers. -/
theorem exists_operands_iff (w : Word) (o : Op) : (∃ i, o.operands w = .legal i) ↔ wordConstraint w o := by
  cases o with
  | reset | xbClr | nextNal | readUe | readSe | getByteOff | getBitOff | writeTrail | xbPush | writeUe | writeSe =>
    exact iff_of_true ⟨_, rfl⟩ trivial
  | bufLen | bufRd | lpWrap | toRbsp | bcLoad => exact exists_decodeBuf_iff fun src => ⟨_, rfl⟩
  | readBits => exact exists_decodeCount_iff
  | writeBits => exact exists_decodeCount_iff (make := fun n => .writeBits n (vField w))
  | rdReg =>
    rw [wordConstraint, ← exists_regNumber_iff]
    constructor
    · rintro ⟨i, h⟩
      simp only [Op.operands] at h
      split at h
      · rename_i r hr
        exact ⟨r, RegId_number_of_ofNumber hr⟩
      · cases h
    · rintro ⟨r, hr⟩
      exact ⟨.rdReg r, by simp [Op.operands, ← hr]⟩
  | toBs =>
    rw [wordConstraint, ← exists_formCode_iff]
    by_cases hform : ∃ sc, ScForm.ofCode ((nField w).extractLsb' 4 2) = some sc
    · obtain ⟨sc, hsc⟩ := hform
      simp only [Op.operands, hsc]
      rw [exists_decodeBuf_iff fun src => ⟨_, rfl⟩]
      simp
    · have hnone : ScForm.ofCode ((nField w).extractLsb' 4 2) = none := by
        simpa [Option.eq_none_iff_forall_ne_some] using hform
      simp [Op.operands, decodeBuf_eq_legal, hnone]

/-- A word decodes to a command exactly when it satisfies a row of R102 in all. -/
theorem exists_decode_eq_legal_iff (w : Word) :
    (∃ i, decode w = .legal i) ↔ ∃ o : Op, w &&& o.mask = o.pattern ∧ wordConstraint w o := by
  simp only [decode_eq_legal, ← exists_operands_iff]
  exact ⟨fun ⟨i, o, hmask, h⟩ => ⟨o, hmask, i, h⟩, fun ⟨o, hmask, i, h⟩ => ⟨i, o, hmask, h⟩⟩

/-- The opcodes that name a row are the 20 of R102. -/
theorem namedOpcodes_perm : ((List.range 256).filter fun c => (Op.ofCode (BitVec.ofNat 8 c)).isSome).Perm
    (Op.all.map fun o => o.code.toNat) := by
  have hcodes : (Op.all.map fun o => o.code.toNat).Nodup := by decide
  refine (List.perm_ext_iff_of_nodup (List.nodup_range.filter _) hcodes).2 fun c => ?_
  rw [List.mem_filter, List.mem_range, List.mem_map, Option.isSome_iff_exists]
  constructor
  · rintro ⟨hc, o, ho⟩
    refine ⟨o, List.mem_of_find?_eq_some ho, ?_⟩
    rw [Op_code_of_ofCode ho, BitVec.toNat_ofNat, Nat.mod_eq_of_lt hc]
  · rintro ⟨o, _, rfl⟩
    exact ⟨o.code.isLt, o, by rw [BitVec.ofNat_toNat, BitVec.setWidth_eq, Op_ofCode_code]⟩

/-- What a partial map leaves of a list is the list less what it names. -/
theorem length_filter_isNone {α : Type} (l : List Nat) (f : Nat → Option α) :
    (l.filter fun c => (f c).isNone).length = l.length - (l.filter fun c => (f c).isSome).length := by
  have hsplit := List.length_eq_length_filter_add (l := l) fun c => (f c).isSome
  simp only [Option.not_isSome] at hsplit
  omega

/-- 236 opcodes name no row: what the 20 of R102 leave of the 256 (R108). -/
theorem unnamedOpcodes_length :
    ((List.range 256).filter fun c => (Op.ofCode (BitVec.ofNat 8 c)).isNone).length = 236 := by
  rw [length_filter_isNone, List.length_range, namedOpcodes_perm.length_eq, List.length_map]
  rfl

/-- Settles O3: the decoder's checks are the row's mask and constraint, and the opcode tells the rows apart. -/
theorem legalWordsAreTheOpcodeMap : Obligations.LegalWordsAreTheOpcodeMap :=
  ⟨exists_decode_eq_legal_iff, fun _ _ _ => row_unique, unnamedOpcodes_length⟩

end Sys2Proof.Machine

/-! Proofs about illegal commands: a command that is illegal in a state raises `IllegalCommand` there, and no other does. -/

namespace Sys2Proof.Machine

/-! ### Illegal in a state (R108) -/

/-- The commands that are illegal by the state they meet: an index of `BUF_RD` out of range (R216), a cursor command in the
wrong mode (R120, R140). -/
def illegalHere (s : State) : Instr → Prop
  | .bufRd src index => (s.buf src).length ≤ index.toNat
  | .readBits _ | .readUe | .readSe => s.bcMode = .wr
  | .writeBits _ _ | .writeUe _ | .writeSe _ | .writeTrail => s.bcMode = .rd
  | _ => False

/-- There are two modes (R30). -/
theorem mode_not_wr_iff {mode : CursorMode} : ¬ mode = .wr ↔ mode = .rd := by cases mode <;> simp

theorem mode_not_rd_iff {mode : CursorMode} : ¬ mode = .rd ↔ mode = .wr := by cases mode <;> simp

/-- `n[2:0]` of a buffer operand is the code of its buffer alone (R22). -/
theorem bufCode_eq_operand_iff {b src : BufId} : b.code.toNat = (bufOperand 0 src).toNat % 8 ↔ b = src := by
  cases b <;> cases src <;> decide

/-- A command's own word meets the state's constraint of its row exactly when the command is not illegal in the state. -/
theorem stateConstraint_encode_iff (s : State) (i : Instr) : stateConstraint s (encode i) i.op ↔ ¬ illegalHere s i := by
  cases i with
  | bufRd src index =>
    simp only [stateConstraint, Instr.op, nField_encode, vField_encode, Instr.nOperand, Instr.vOperand,
      bufCode_eq_operand_iff, exists_eq_left]
    exact Nat.not_le.symm
  | readBits | readUe | readSe => exact mode_not_wr_iff.symm
  | writeBits | writeUe | writeSe | writeTrail => exact mode_not_rd_iff.symm
  | reset | rdReg | xbClr | xbPush | bufLen | nextNal | toRbsp | toBs | lpWrap | bcLoad | getByteOff | getBitOff =>
    exact iff_of_true trivial not_false

/-- A legal word is an illegal command in a state exactly when its command is illegal there (R108). -/
theorem illegalIn_iff_of_legal {s : State} {w : Word} {i : Instr} (h : decode w = .legal i) :
    illegalIn s w ↔ illegalHere s i := by
  obtain ⟨hwf, rfl⟩ := encodeInvertsDecode w i h
  have hmask := encode_satisfies_mask i
  have hword : wordConstraint (encode i) i.op := (exists_operands_iff _ _).1 ⟨i, operands_encode hwf⟩
  constructor
  · intro hillegal
    by_contra hhere
    exact hillegal i.op hmask ⟨hword, (stateConstraint_encode_iff s i).2 hhere⟩
  · rintro hhere o ho ⟨_, hstate⟩
    cases row_unique hmask ho
    exact (stateConstraint_encode_iff s i).1 hstate hhere

/-- A word that decodes to no command is illegal in every state (R105, R108). -/
theorem illegalIn_of_illegal {s : State} {w : Word} {why : Illegal} (h : decode w = .illegal why) : illegalIn s w := by
  rintro o hmask ⟨hword, _⟩
  obtain ⟨i, hi⟩ := (exists_decode_eq_legal_iff w).2 ⟨o, hmask, hword⟩
  cases hi.symm.trans h

/-! ### The commands that raise `IllegalCommand` -/

/-- A command that is illegal in the state raises `IllegalCommand` (R108). -/
theorem exec_of_illegalHere {s : State} {i : Instr} (hs : s.err = 0) (h : illegalHere s i) :
    exec i s = .next (takeFault .illegalCommand s) := by
  have hraise : ∀ {body}, body = .error .illegalCommand → runCommand s body = .next (takeFault .illegalCommand s) :=
    fun hbody => hbody ▸ runCommand_error hs
  cases i with
  | bufRd src index =>
    refine hraise ?_
    rw [List.getElem?_eq_none h]
  | readBits | readUe | readSe | writeBits | writeUe | writeSe | writeTrail =>
    have hmode : s.bcMode = _ := h
    exact hraise (by simp [hmode])
  | reset | rdReg | xbClr | xbPush | bufLen | nextNal | toRbsp | toBs | lpWrap | bcLoad | getByteOff | getBitOff =>
    exact absurd h id

/-- Settles O32: a cursor command in the wrong mode is illegal in the state. -/
theorem wrongModeIsIllegal : Obligations.WrongModeIsIllegal := by
  intro s i hs h
  have hhere : illegalHere s i := by
    rcases h with ⟨hmode, ⟨n, rfl⟩ | rfl | rfl⟩ | ⟨hmode, ⟨n, v, rfl⟩ | ⟨v, rfl⟩ | ⟨v, rfl⟩ | rfl⟩ <;> exact hmode
  exact exec_of_illegalHere hs hhere

/-! ### The commands that do not -/

/-- A pseudocode that completes with `OK` or raises another fault than `IllegalCommand`. -/
def NotIllegal : Except FaultKind State → Prop
  | .ok u => ∃ v, u.completion = some (.ok v)
  | .error k => k ≠ .illegalCommand

/-- The command does not complete with the fault `IllegalCommand`. -/
def AnswersLegally (r : Result) : Prop := ∃ t, r = .next t ∧ t.completion ≠ some (.fault .illegalCommand)

theorem answersLegally_of_runCommand {s : State} {body : Except FaultKind State} (hs : s.err = 0) (h : NotIllegal body) :
    AnswersLegally (runCommand s body) := by
  cases body with
  | ok u =>
    obtain ⟨v, hv⟩ := h
    exact ⟨u, runCommand_ok hs, by simp [hv]⟩
  | error k =>
    exact ⟨_, runCommand_error hs, fun hc => h (by simpa using hc)⟩

theorem notIllegal_writeBBs (s : State) (out : Buffer) : NotIllegal (writeBBs s out) := by
  unfold writeBBs
  split
  · exact ⟨0, rfl⟩
  · exact nofun

/-- Appending at the cursor raises `CapacityExceeded` only (R141). -/
theorem notIllegal_writeAtCursor (s : State) (bits : List Bool) : NotIllegal (writeAtCursor s bits) := by
  unfold writeAtCursor
  split
  · exact ⟨0, rfl⟩
  · rename_i k hk
    cases appendBits_error hk
    exact nofun

/-- The scan for the leading zeros of a code word ends in no other fault than R123's two. -/
theorem scanPrefix_ne_illegal (buf : Buffer) (pos left lz : Nat) :
    scanPrefix buf pos left lz ≠ .error .illegalCommand := by
  induction left generalizing lz with
  | zero => simp [scanPrefix]
  | succ left ih =>
    unfold scanPrefix
    split
    · split
      · simp
      · exact ih _
    · simp

/-- Neither does the reading of a whole code word (R123). -/
theorem readUeAt_ne_illegal (buf : Buffer) (pos : Nat) : readUeAt buf pos ≠ .error .illegalCommand := by
  unfold readUeAt
  split
  · rename_i k hk
    rintro ⟨⟩
    exact scanPrefix_ne_illegal _ _ _ _ hk
  · split <;> exact nofun

/-- In read mode a code word is read or a fault of the code raised (R123, R124). -/
theorem answersLegally_readCodeWord {s : State} (value : Nat → Nat) (hs : s.err = 0) (hmode : s.bcMode = .rd) :
    AnswersLegally (readCodeWord value s) := by
  refine answersLegally_of_runCommand hs ?_
  rw [if_pos hmode]
  split
  · exact ⟨_, rfl⟩
  · rename_i k hk
    rintro rfl
    exact readUeAt_ne_illegal _ _ hk

/-- `NEXT_NAL` raises `RewindUnderflow` or `CapacityExceeded` only (R235). -/
theorem answersLegally_execNextNal {s : State} (hs : s.err = 0) : AnswersLegally (execNextNal s) := by
  unfold execNextNal
  rw [isFaulted_of_zero hs]
  rcases nalRounds_spec (p := s.params) (bound := scanBound s.params s.srcPos) (pos := s.srcPos) (r := false)
      (by simp only [scanBound]; omega) with
    ⟨pos, resync, hscan, _⟩ | ⟨pos, nal, scLen, resync, termSc, hscan, _⟩ | ⟨pos, k, hscan, _, _, hk⟩ <;>
    simp only [scanNal, hscan]
  · exact ⟨_, rfl, by simp⟩
  · exact ⟨_, rfl, by simp⟩
  · exact ⟨_, rfl, by rcases hk with rfl | rfl <;> simp⟩

theorem toRbspBytes_ne_illegal (tz : Config.ThirdZero) (data : Buffer) :
    toRbspBytes tz data ≠ .error .illegalCommand := by
  unfold toRbspBytes
  split <;> simp

theorem toBsBytes_ne_illegal (sc : ScForm) (data : Buffer) : toBsBytes sc data ≠ .error .illegalCommand := by
  unfold toBsBytes
  split <;> simp

/-- A legal command that is not illegal in the state does not raise `IllegalCommand`. -/
theorem exec_answersLegally {s : State} {i : Instr} (hs : s.err = 0) (hi : wellFormed i = true) (h : ¬ illegalHere s i) :
    AnswersLegally (exec i s) := by
  cases i with
  | reset => exact ⟨_, rfl, by simp⟩
  | rdReg r =>
    simp only [exec, execRdReg, isFaulted_of_zero hs]
    exact ⟨_, rfl, by simp⟩
  | xbClr | bufLen | bcLoad | getByteOff | getBitOff =>
    exact answersLegally_of_runCommand (body := .ok _) hs ⟨_, rfl⟩
  | xbPush b =>
    refine answersLegally_of_runCommand hs ?_
    split
    · exact ⟨0, rfl⟩
    · exact nofun
  | bufRd src index =>
    refine answersLegally_of_runCommand hs ?_
    rw [List.getElem?_eq_getElem (Nat.lt_of_not_le h)]
    exact ⟨_, rfl⟩
  | nextNal => exact answersLegally_execNextNal hs
  | toRbsp src hasSc =>
    refine answersLegally_of_runCommand hs ?_
    split
    · exact nofun
    · split
      · exact ⟨0, rfl⟩
      · rename_i k hk
        rintro rfl
        exact toRbspBytes_ne_illegal _ _ hk
  | toBs src sc =>
    refine answersLegally_of_runCommand hs ?_
    split
    · exact notIllegal_writeBBs s _
    · rename_i k hk
      rintro rfl
      exact toBsBytes_ne_illegal _ _ hk
  | lpWrap src =>
    refine answersLegally_of_runCommand hs ?_
    split
    · exact notIllegal_writeBBs s _
    · exact nofun
  | readBits n =>
    have hmode : s.bcMode = .rd := mode_not_wr_iff.1 h
    refine answersLegally_of_runCommand hs ?_
    rw [if_pos ⟨hmode, countOk_iff.1 hi⟩]
    split
    · exact ⟨_, rfl⟩
    · exact nofun
  | readUe | readSe => exact answersLegally_readCodeWord _ hs (mode_not_wr_iff.1 h)
  | writeBits n v =>
    refine answersLegally_of_runCommand hs ?_
    rw [if_pos ⟨mode_not_rd_iff.1 h, countOk_iff.1 hi⟩]
    exact notIllegal_writeAtCursor s _
  | writeUe | writeSe =>
    refine answersLegally_of_runCommand hs ?_
    rw [if_pos (mode_not_rd_iff.1 h)]
    split
    · exact notIllegal_writeAtCursor s _
    · exact nofun
  | writeTrail =>
    refine answersLegally_of_runCommand hs ?_
    rw [if_pos (mode_not_rd_iff.1 h)]
    exact notIllegal_writeAtCursor s _

/-- Settles O10: an illegal word, a legal word illegal in the state, and a legal word that is not. -/
theorem illegalCommandExactly : Obligations.IllegalCommandExactly := by
  intro s w rest hs hcommands
  have hfetch := fetchCommand_cons hcommands
  cases hdecode : decode w with
  | illegal why =>
    have hillegal : illegalIn s w := illegalIn_of_illegal hdecode
    refine ⟨fun _ => ?_, fun h => absurd hillegal h⟩
    simp only [step, hfetch, hdecode]
    exact runCommand_error hs
  | legal i =>
    have hwf : wellFormed i = true := (encodeInvertsDecode w i hdecode).1
    rw [step_eq_exec_of_legal hfetch hdecode, illegalIn_iff_of_legal hdecode]
    exact ⟨exec_of_illegalHere (s := { s with commands := rest }) hs,
      exec_answersLegally (s := { s with commands := rest }) hs hwf⟩

end Sys2Proof.Machine

/-! Proofs about pseudo-instructions: `XB_SET` and `READ_NAL_HDR` (R111). -/

namespace Sys2Proof.Machine

/-! ### Filling the exchange buffer -/

/-- `XB_PUSH` appends its byte when there is room (R214). -/
theorem exec_xbPush_of_fits {s : State} {b : Byte} (hs : s.err = 0) (hfits : fits s (s.bX.length + 1)) :
    exec (.xbPush b) s = .next (s.setBX (s.bX ++ [b])).finish := by
  show execXbPush b s = _
  rw [execXbPush, if_pos (withinLimit_iff.2 hfits), runCommand_ok hs]

/-- Pushes append their bytes in order as long as all of them fit (R214). -/
theorem issue_xbPush {s : State} (hs : s.err = 0) (front bytes : Buffer) (hfits : fits s (front.length + bytes.length)) :
    issue (bytes.map .xbPush) (s.setBX front).finish = .next (s.setBX (front ++ bytes)).finish := by
  induction bytes generalizing front with
  | nil => simp [issue]
  | cons b bytes ih =>
    have hroom : fits s (front.length + 1) := fun c hc => (by simp : _ ≤ _).trans (hfits c hc)
    have hpush : exec (.xbPush b) (s.setBX front).finish = .next (s.setBX (front ++ [b])).finish :=
      exec_xbPush_of_fits (s := (s.setBX front).finish) hs hroom
    have hrest := ih (front ++ [b]) (by simpa [Nat.add_assoc, Nat.add_comm, Nat.add_left_comm] using hfits)
    simpa [issue, hpush] using hrest

/-- Settles O22: `XB_CLR` empties the buffer, and the pushes fill it from there. -/
theorem xbSetFillsExchangeBuffer : Obligations.XbSetFillsExchangeBuffer := by
  intro s bytes hs hfits
  have hclear : exec .xbClr s = .next (s.setBX []).finish := runCommand_ok hs
  simp only [expandPseudo, issue, hclear]
  exact issue_xbPush hs [] bytes (by simpa using hfits)

/-! ### Reading the NAL unit header -/

/-- `READ_BITS` of a field inside the buffer (R122). -/
theorem exec_readBits_of_le {s : State} {n : BitVec 8} (hs : s.err = 0) (hmode : s.bcMode = .rd) (hn : n.toNat ≤ 32)
    (hroom : s.bcPos + n.toNat ≤ 8 * s.bCur.length) :
    exec (.readBits n) s = .next ((s.moveCursor (s.bcPos + n.toNat)).returnValue (readField s.bCur s.bcPos n.toNat)) := by
  show execReadBits n s = _
  rw [execReadBits, if_pos ⟨hmode, hn⟩, if_pos hroom, runCommand_ok hs]

/-- The fields that reads of the given widths return one after another, from position `p` on. -/
def fieldsFrom (buf : Buffer) : Nat → List (BitVec 8) → List Nat
  | _, [] => []
  | p, n :: rest => readField buf p n.toNat :: fieldsFrom buf (p + n.toNat) rest

/-- Reads inside the buffer complete with the fields that follow each other there (R122). -/
theorem completionsOf_readBits {s : State} {widths : List (BitVec 8)} (hs : s.err = 0) (hmode : s.bcMode = .rd)
    (hn : ∀ n ∈ widths, n.toNat ≤ 32) (hroom : s.bcPos + (widths.map BitVec.toNat).sum ≤ 8 * s.bCur.length) :
    completionsOf (widths.map .readBits) s = (fieldsFrom s.bCur s.bcPos widths).map fun v => some (.ok v) := by
  induction widths generalizing s with
  | nil => rfl
  | cons n widths ih =>
    simp only [List.map_cons, List.sum_cons, List.forall_mem_cons] at hn hroom
    have hread := exec_readBits_of_le hs hmode hn.1 (by omega)
    have hrest := ih (s := (s.moveCursor (s.bcPos + n.toNat)).returnValue (readField s.bCur s.bcPos n.toNat)) hs hmode
      hn.2 (by simp only [returnValue_bcPos, returnValue_bCur, moveCursor_bcPos, moveCursor_bCur]; omega)
    simp only [List.map_cons, completionsOf, hread, hrest, fieldsFrom]
    rfl

/-- The first 16 stream bits are the bits of the first two bytes read as one number (R11). -/
theorem bitAt_two_bytes (h0 h1 : Byte) (rest : Buffer) {i : Nat} (hi : i < 16) :
    bitAt (h0 :: h1 :: rest) i = (2 ^ 8 * h0.toNat + h1.toNat).testBit (15 - i) := by
  rw [Nat.testBit_two_pow_mul_add _ h1.isLt]
  by_cases hfirst : i < 8
  · have hbyte : i / 8 = 0 := by omega
    rw [if_neg (by omega), bitAt, hbyte, List.getD_cons_zero, BitVec.getLsbD]
    congr 1
    omega
  · have hbyte : i / 8 = 1 := by omega
    rw [if_pos (by omega), bitAt, hbyte, List.getD_cons_succ, List.getD_cons_zero, BitVec.getLsbD]
    congr 1
    omega

/-- A field inside the first two bytes, in numbers (R52). -/
theorem readField_two_bytes (h0 h1 : Byte) (rest : Buffer) {p n : Nat} (h : p + n ≤ 16) :
    readField (h0 :: h1 :: rest) p n = (2 ^ 8 * h0.toNat + h1.toNat) / 2 ^ (16 - p - n) % 2 ^ n := by
  refine readField_eq_mod fun i hi => ?_
  rw [bitAt_two_bytes h0 h1 rest (by omega), Nat.testBit_div_two_pow]
  congr 1
  omega

/-- Settles O31: four reads in a row cover the 16 bits of the header (R83). -/
theorem readNalHdrReturnsFields : Obligations.ReadNalHdrReturnsFields := by
  intro s h0 h1 rest hs hmode hpos hbuf
  have hreads := completionsOf_readBits (widths := [1, 6, 6, 3]) hs hmode (by decide) (by simp [hpos, hbuf]; omega)
  have hfields : fieldsFrom s.bCur s.bcPos [1, 6, 6, 3] =
      [h0.toNat / 128, h0.toNat / 2 % 64, h0.toNat % 2 * 32 + h1.toNat / 8, h1.toNat % 8] := by
    have hlt0 := h0.isLt
    have hlt1 := h1.isLt
    rw [hbuf, hpos]
    show [readField _ 0 1, readField _ 1 6, readField _ 7 6, readField _ 13 3] = _
    simp (disch := omega) only [readField_two_bytes]
    simp only [List.cons.injEq, and_true]
    omega
  rw [hfields] at hreads
  exact hreads

end Sys2Proof.Machine

/-! Proofs about the transcoder: what the removal scan drops. -/

namespace Sys2Proof.Machine

/-- What a row of R162's table puts out: the byte, but for a `03` after two zeros. -/
theorem removalStep_out (tz : Config.ThirdZero) (st : ScanState) (b : Byte) :
    (removalStep tz st b).1 = if st = .twoZerosSeen ∧ b = 0x03 then [] else [b] := by
  cases st with
  | copying | oneZeroSeen =>
    simp only [removalStep, reduceCtorEq, false_and, if_false]
    split <;> rfl
  | twoZerosSeen =>
    by_cases hepb : b = Config.epb
    · subst hepb
      rfl
    · have hplain : ¬ (ScanState.twoZerosSeen = .twoZerosSeen ∧ b = 0x03) := fun h => hepb h.2
      rw [if_neg hplain]
      simp only [removalStep, if_neg hepb]
      split <;> rfl

/-- The state a row of R162's table leads to, at the default of `EPB_THIRD_ZERO` (R163). -/
theorem removalStep_state (st : ScanState) (b : Byte) :
    (removalStep .stayTwo st b).2 =
      if b = 0x00 then (if st = .copying then .oneZeroSeen else .twoZerosSeen) else .copying := by
  cases st with
  | copying | oneZeroSeen =>
    simp only [removalStep]
    split <;> rfl
  | twoZerosSeen =>
    by_cases hepb : b = Config.epb
    · subst hepb
      rfl
    · simp only [removalStep, if_neg hepb]
      split <;> rfl

/-- The state of the removal scan at the default of `EPB_THIRD_ZERO`, from the input bytes read so far, the last one first: how
many `00` they end in, up to two. -/
def stateAfter : Buffer → ScanState
  | [] => .copying
  | b :: seen => (removalStep .stayTwo (stateAfter seen) b).2

/-- Two zeros have been seen exactly when the last two bytes read were `00`, dropped bytes included. -/
theorem stateAfter_eq_two_iff (seen : Buffer) :
    stateAfter seen = .twoZerosSeen ↔ seen[0]? = some 0x00 ∧ seen[1]? = some 0x00 := by
  match seen with
  | [] => simp [stateAfter]
  | [y] =>
    simp only [stateAfter, removalStep_state]
    split <;> simp
  | y :: x :: seen =>
    simp only [stateAfter, removalStep_state, List.getElem?_cons_zero, List.getElem?_cons_succ, Option.some.injEq]
    by_cases hy : y = 0x00
    · by_cases hx : x = 0x00
      · rw [if_pos hy, if_pos hx]
        split <;> simp [hy, hx]
      · simp only [hy, hx, if_true, if_false, and_false, reduceCtorEq]
    · simp only [hy, if_false, false_and, reduceCtorEq]

/-- A byte is an emulation-prevention byte exactly when it is `03` and the two bytes before it are `00` (R85). -/
theorem isEpbAt_append (seen rest : Buffer) (b : Byte) :
    isEpbAt (seen.reverse ++ b :: rest) seen.length = true ↔ stateAfter seen = .twoZerosSeen ∧ b = 0x03 := by
  rw [stateAfter_eq_two_iff]
  match seen with
  | [] => simp [isEpbAt]
  | [x] => simp [isEpbAt]
  | y :: x :: seen =>
    have hget : ∀ k < 3, ((y :: x :: seen).reverse ++ b :: rest)[seen.length + k]? = [x, y, b][k]? := by
      intro k hk
      have hpayload : (y :: x :: seen).reverse ++ b :: rest = seen.reverse ++ ([x, y, b] ++ rest) := by simp
      rw [hpayload, List.getElem?_append_right (by simp), List.length_reverse, Nat.add_sub_cancel_left,
        List.getElem?_append_left hk]
    have hb := hget 2 (by omega)
    have hy := hget 1 (by omega)
    have hx := hget 0 (by omega)
    have hone : seen.length + 2 - 1 = seen.length + 1 := rfl
    have htwo : seen.length + 2 - 2 = seen.length + 0 := rfl
    simp only [isEpbAt, List.length_cons, Nat.add_assoc, Nat.reduceAdd, hone, htwo, hb, hy, hx]
    simp [and_assoc, and_comm, and_left_comm]

/-- The scan over the rest of a payload puts out the bytes of the rest that are no emulation-prevention bytes. -/
theorem removeEpb_stateAfter (seen rest : Buffer) :
    removeEpb .stayTwo (stateAfter seen) rest =
      ((List.range' seen.length rest.length).filter fun i => !isEpbAt (seen.reverse ++ rest) i).map
        fun i => (seen.reverse ++ rest).getD i 0x00 := by
  induction rest generalizing seen with
  | nil => rfl
  | cons b rest ih =>
    have hrest := ih (b :: seen)
    have hpayload : (b :: seen).reverse ++ rest = seen.reverse ++ b :: rest := by simp
    have hbyte : (seen.reverse ++ b :: rest).getD seen.length 0x00 = b := by simp
    rw [hpayload] at hrest
    rw [removeEpb_cons, removalStep_out, List.length_cons, List.range'_succ, List.filter_cons]
    change _ ++ removeEpb .stayTwo (stateAfter (b :: seen)) rest = _
    rw [hrest]
    by_cases hepb : stateAfter seen = .twoZerosSeen ∧ b = 0x03
    · simp only [if_pos hepb, (isEpbAt_append seen rest b).2 hepb]
      simp
    · have hkeep : isEpbAt (seen.reverse ++ b :: rest) seen.length = false := by
        rwa [← Bool.not_eq_true, isEpbAt_append]
      simp only [if_neg hepb, hkeep, Bool.not_false, if_true, List.map_cons, hbyte]
      simp

/-- Settles O43: the scan over a whole payload starts with no byte seen. -/
theorem removalDropsExactlyEpbs : Obligations.RemovalDropsExactlyEpbs := by
  intro payload
  have hscan := removeEpb_stateAfter [] payload
  rw [List.length_nil, ← List.range_eq_range'] at hscan
  exact hscan

end Sys2Proof.Machine

/-! Proofs about the read side of the bit cursor: attaching it, fields, Exp-Golomb code words and its position. -/

namespace Sys2Proof.Machine

/-! ### Example words -/

/-- A word decodes to the command it is the encoding of (R102 to R105). -/
theorem decode_of_encode_eq {w : Word} {i : Instr} (hw : encode i = w) (hi : wellFormed i = true) :
    decode w = .legal i :=
  hw ▸ decodeInvertsEncode i hi

/-- Settles O4: each word is the encoding of its command. -/
theorem exampleWordsDecode : Obligations.ExampleWordsDecode := by
  refine ⟨?_, ?_, ?_, ?_, ?_, ?_, ?_, ?_, ?_, ?_, ?_, ?_, ?_⟩ <;> exact decode_of_encode_eq rfl rfl

/-! ### Attaching the cursor, and its position -/

/-- Settles O24: the copy is made in one update, and each mode gives its position. -/
theorem bcLoadAttachesCursor : Obligations.BcLoadAttachesCursor := by
  intro s src mode hs
  have hload : exec (.bcLoad src mode) s = .next (s.attachCursor (s.buf src) mode).finish := runCommand_ok hs
  cases mode with
  | rd => exact hload
  | wr => exact hload

/-- Settles O29: the offsets are the quotient and the remainder of the position by 8 (R24). -/
theorem offsetsGiveThePosition : Obligations.OffsetsGiveThePosition := by
  intro s hs
  exact ⟨s.byteOff, s.bitOff, (Nat.div_add_mod s.bcPos 8).symm, Nat.le_of_lt_succ (Nat.mod_lt _ (by decide)),
    runCommand_ok hs, runCommand_ok hs⟩

/-! ### Fields -/

/-- R52's sum with one more bit behind it: what was there counts double. -/
theorem fieldSum_succ (buf : Buffer) (p n : Nat) :
    fieldSum buf p (n + 1) = 2 * fieldSum buf p n + (bitAt buf (p + n)).toNat := by
  have hdouble : ∀ i ∈ Finset.range n,
      (bitAt buf (p + i)).toNat * 2 ^ (n + 1 - 1 - i) = 2 * ((bitAt buf (p + i)).toNat * 2 ^ (n - 1 - i)) := by
    intro i hi
    have hexp : n + 1 - 1 - i = n - 1 - i + 1 := by have := Finset.mem_range.1 hi; omega
    rw [hexp, pow_succ]
    ring
  rw [fieldSum, Finset.sum_range_succ, Finset.sum_congr rfl hdouble, ← Finset.mul_sum]
  simp [fieldSum]

/-- The loop of R122 computes R52's sum. -/
theorem readField_eq_fieldSum (buf : Buffer) (p n : Nat) : readField buf p n = fieldSum buf p n := by
  induction n with
  | zero => rfl
  | succ n ih => rw [readField, fieldSum_succ, ih]

/-- `READ_BITS` of a field that reaches beyond the buffer (R122). -/
theorem exec_readBits_of_lt {s : State} {n : BitVec 8} (hs : s.err = 0) (hmode : s.bcMode = .rd) (hn : n.toNat ≤ 32)
    (hroom : 8 * s.bCur.length < s.bcPos + n.toNat) :
    exec (.readBits n) s = .next (takeFault .bufferUnderrun s) := by
  show execReadBits n s = _
  rw [execReadBits, if_pos ⟨hmode, hn⟩, if_neg hroom.not_ge, runCommand_error hs]

/-- What is known of a `READ_BITS` that completes (R122). -/
theorem readBits_eq_ok {s t : State} {n : BitVec 8} {v : Nat} (hs : s.err = 0) (h : exec (.readBits n) s = .next t)
    (hv : t.completion = some (.ok v)) :
    s.bcMode = .rd ∧ s.bcPos + n.toNat ≤ 8 * s.bCur.length ∧ v = readField s.bCur s.bcPos n.toNat ∧
      t = (s.moveCursor (s.bcPos + n.toNat)).returnValue v := by
  rcases runCommand_cases h with ⟨hfaulted, _⟩ | ⟨_, hbody⟩ | ⟨k, _, _, rfl⟩
  · exact absurd hs hfaulted
  · split at hbody
    · rename_i hlegal
      split at hbody
      · rename_i hroom
        cases hbody
        cases hv
        exact ⟨hlegal.1, hroom, rfl, rfl⟩
      · cases hbody
    · cases hbody
  · cases hv

/-- Settles O25: the model's loop is R52's sum, and the end of the buffer decides between the two endings. -/
theorem readBitsReturnsField : Obligations.ReadBitsReturnsField := by
  intro s n hs hmode hn
  rw [← readField_eq_fieldSum]
  exact ⟨fun hroom => ⟨readField_lt .., exec_readBits_of_le hs hmode hn hroom⟩, exec_readBits_of_lt hs hmode hn⟩

/-- Settles O30: the second read starts where the first ended, so the fields follow each other. -/
theorem splitReadIsWholeRead : Obligations.SplitReadIsWholeRead := by
  intro s t u a b x y hs hab ht hx hu hy
  obtain ⟨hmode, _, rfl, hfirst⟩ := readBits_eq_ok hs ht hx
  have hterr : t.err = 0 := hfirst ▸ hs
  obtain ⟨_, hroom, rfl, rfl⟩ := readBits_eq_ok hterr hu hy
  subst hfirst
  simp only [returnValue_bcPos, returnValue_bCur, moveCursor_bcPos, moveCursor_bCur, Nat.add_assoc] at hroom ⊢
  have hwidth : (a + b).toNat = a.toNat + b.toNat := BitVec.toNat_add_of_lt (by omega)
  rw [← hwidth] at hab hroom ⊢
  rw [exec_readBits_of_le hs hmode hab hroom, hwidth, readField_add]
  rfl

/-! ### Exp-Golomb code words -/

/-- The shared part of `READ_UE` and `READ_SE`, when a code word can be read (R123, R124). -/
theorem readCodeWord_of_ok {s : State} {k pos : Nat} (value : Nat → Nat) (hs : s.err = 0) (hmode : s.bcMode = .rd)
    (hread : readUeAt s.bCur s.bcPos = .ok (k, pos)) :
    readCodeWord value s = .next ((s.moveCursor pos).returnValue (value k)) := by
  rw [readCodeWord, if_pos hmode, hread, runCommand_ok hs]

/-- The shared part of `READ_UE` and `READ_SE`, when none can be read (R123, R124). -/
theorem readCodeWord_of_error {s : State} {f : FaultKind} (value : Nat → Nat) (hs : s.err = 0) (hmode : s.bcMode = .rd)
    (hread : readUeAt s.bCur s.bcPos = .error f) : readCodeWord value s = .next (takeFault f s) := by
  rw [readCodeWord, if_pos hmode, hread, runCommand_error hs]

/-- A code number is at most `2^32 - 2` (R90). -/
theorem codeNumber_lt (buf : Buffer) (p : Nat) {lz : Nat} (hlz : lz ≤ 31) :
    2 ^ lz - 1 + fieldSum buf p lz < 2 ^ 32 - 1 := by
  have hsuffix := readField_lt buf p lz
  have hpow : 2 ^ lz ≤ 2 ^ 31 := Nat.pow_le_pow_right (by decide) hlz
  rw [readField_eq_fieldSum] at hsuffix
  omega

/-- The code word at `pos` is read with the suffix by R52's sum (R90, R123). -/
theorem readUeAt_eq_fieldSum {buf : Buffer} {pos lz : Nat} (h : codeWordAt buf pos lz) (hlz : lz ≤ 31) :
    readUeAt buf pos = .ok (2 ^ lz - 1 + fieldSum buf (pos + lz + 1) lz, pos + 2 * lz + 1) := by
  rw [readUeAt_of_codeWord h hlz, readField_eq_fieldSum]

/-- Settles O26: `READ_UE` returns the code number itself. -/
theorem readUeReturnsCodeNumber : Obligations.ReadUeReturnsCodeNumber := by
  intro s lz hs hmode hcode hlz
  exact ⟨codeNumber_lt _ _ hlz, readCodeWord_of_ok (fun k => k) hs hmode (readUeAt_eq_fieldSum hcode hlz)⟩

/-- R91's mapping, from its two cases. -/
theorem signedOfCode_eq {k : Nat} {z : Int} (hodd : k % 2 = 1 → z = ((k : Int) + 1) / 2)
    (heven : k % 2 = 0 → z = -((k : Int) / 2)) : signedOfCode k = z := by
  rw [signedOfCode]
  split
  · rename_i h
    rw [hodd h]
    rfl
  · rename_i h
    rw [heven (by omega)]
    rfl

/-- The pattern of a signed number is the word that stands for it (R13). -/
theorem pattern32_eq_toNat (z : Int) : pattern32 z = (BitVec.ofInt 32 z).toNat := rfl

/-- The signed value of a code number fits 32 bits, so its pattern reads back as it (R13, R124). -/
theorem sext32_signedOfCode {k : Nat} (hk : k < 2 ^ 32 - 1) :
    sext32 (BitVec.ofInt 32 (signedOfCode k)) = signedOfCode k := by
  have hrange : -2 ^ 31 ≤ signedOfCode k ∧ signedOfCode k < 2 ^ 31 := by
    rw [signedOfCode]
    split <;> omega
  exact BitVec.toInt_ofInt_eq_self (by decide) hrange.1 hrange.2

/-- Settles O27: `READ_SE` returns the pattern of the code number's signed value. -/
theorem readSeReturnsSignedPattern : Obligations.ReadSeReturnsSignedPattern := by
  rintro s lz k z hs hmode hcode hlz rfl hodd heven
  rw [← signedOfCode_eq hodd heven, ← pattern32_eq_toNat]
  exact ⟨sext32_signedOfCode (codeNumber_lt _ _ hlz),
    readCodeWord_of_ok (fun k => pattern32 (signedOfCode k)) hs hmode (readUeAt_eq_fieldSum hcode hlz)⟩

/-! ### Code words that cannot be read -/

/-- A fault met among the leading zeros is the fault of the read (R123). -/
theorem readUeAt_of_scan_error {buf : Buffer} {pos : Nat} {f : FaultKind} (hscan : scanPrefix buf pos 32 0 = .error f) :
    readUeAt buf pos = .error f := by
  simp only [readUeAt, maxPrefixZeros, hscan]

/-- No code word starts with 32 zeros (R90, R123). -/
theorem readUeAt_of_zeros {buf : Buffer} {pos : Nat} (hroom : pos + 32 ≤ 8 * buf.length)
    (hzeros : ∀ j < 32, bitAt buf (pos + j) = false) : readUeAt buf pos = .error .malformedSyntax :=
  readUeAt_of_scan_error (scanPrefix_eq_malformed.2 fun j _ hj => ⟨by omega, hzeros j (by omega)⟩)

/-- The buffer ends among the leading zeros (R123): the scan stops at the first bit that is not there. -/
theorem readUeAt_of_end {buf : Buffer} {pos z : Nat} (hz : z ≤ 31) (hend : 8 * buf.length ≤ pos + z)
    (hzeros : ∀ j < z, bitAt buf (pos + j) = false) : readUeAt buf pos = .error .bufferUnderrun :=
  readUeAt_of_scan_error (scanPrefix_eq_underrun.2
    ⟨8 * buf.length - pos, Nat.zero_le _, by omega, by omega, fun j _ hj => ⟨by omega, hzeros j (by omega)⟩⟩)

/-- The buffer ends inside the suffix (R123). -/
theorem readUeAt_of_cut {buf : Buffer} {pos lz : Nat} (hlz : lz ≤ 31) (hone : pos + lz < 8 * buf.length)
    (hzeros : ∀ j < lz, bitAt buf (pos + j) = false) (hbit : bitAt buf (pos + lz) = true)
    (hcut : 8 * buf.length < pos + 2 * lz + 1) : readUeAt buf pos = .error .bufferUnderrun := by
  have hscan : scanPrefix buf pos (maxPrefixZeros + 1) 0 = .ok lz :=
    scanPrefix_eq_ok.2 ⟨Nat.zero_le _, by simp only [maxPrefixZeros]; omega, hone, fun j _ hj => hzeros j hj, hbit⟩
  simp only [readUeAt, hscan, if_neg hcut.not_ge]

/-- Settles O28: both commands raise the fault that reading the code word meets. -/
theorem codeWordFaults : Obligations.CodeWordFaults := by
  intro s i hs hmode hi
  have hraise : ∀ {f}, readUeAt s.bCur s.bcPos = .error f → exec i s = .next (takeFault f s) := by
    intro f hread
    rcases hi with rfl | rfl <;> exact readCodeWord_of_error _ hs hmode hread
  refine ⟨fun hroom hzeros => ?_, fun z hz hend hzeros => ?_, fun lz hlz hone hzeros hbit hcut => ?_⟩
  · exact hraise (readUeAt_of_zeros hroom hzeros)
  · exact hraise (readUeAt_of_end hz hend hzeros)
  · exact hraise (readUeAt_of_cut hlz hone hzeros hbit hcut)

end Sys2Proof.Machine

/-! Proofs about the write side of the bit cursor: what each write appends, what it raises, and that the matching reads give
the written values back. -/

namespace Sys2Proof.Machine

/-! ### The bits of each write -/

/-- The bits a write appends at position `p` when its operands are in range (R141 to R144). -/
def WriteOp.appended (p : Nat) : WriteOp → List Bool
  | .bits n v => fieldBits v.toNat n.toNat
  | .ue v => ueBits v.toNat
  | .se v => ueBits (codeOfSigned (sext32 v))
  | .trail => trailingBits p

/-- A write moves the cursor on by the bits it appends (R25). -/
@[simp] theorem WriteOp.appended_length (p : Nat) (op : WriteOp) : (op.appended p).length = op.advance p := by
  cases op with
  | bits n v => exact fieldBits_length v.toNat n.toNat
  | ue v => exact ueBits_length v.toNat
  | se v => exact ueBits_length _
  | trail => exact trailingBits_length p

/-- The bits of a field by index. -/
theorem fieldBits_eq_map (v n : Nat) : fieldBits v n = (List.range n).map fun i => v.testBit (n - 1 - i) :=
  List.ext_getElem (by simp) fun i hi _ => by rw [fieldBits_getElem v n i hi]; simp

/-- `lz` of R90 is the binary logarithm. -/
theorem log2_eq_of_bounds {m lz : Nat} (hle : 2 ^ lz ≤ m) (hlt : m < 2 ^ (lz + 1)) : Nat.log2 m = lz :=
  (Nat.log2_eq_iff (Nat.ne_of_gt (lt_of_lt_of_le (Nat.two_pow_pos lz) hle))).2 ⟨hle, hlt⟩

/-- The length of a code word from its number of leading zeros (R90). -/
theorem ueLength_eq_of_bounds {k lz : Nat} (hle : 2 ^ lz ≤ k + 1) (hlt : k + 1 < 2 ^ (lz + 1)) :
    ueLength k = 2 * lz + 1 := by
  rw [ueLength, log2_eq_of_bounds hle hlt]

/-- The code word of R90 by index. -/
theorem ueBits_eq_map {k lz : Nat} (hle : 2 ^ lz ≤ k + 1) (hlt : k + 1 < 2 ^ (lz + 1)) :
    ueBits k = List.replicate lz false ++ (List.range (lz + 1)).map fun i => (k + 1).testBit (lz - i) := by
  simp only [ueBits, log2_eq_of_bounds hle hlt, fieldBits_eq_map, Nat.add_sub_cancel]

/-- R91's mapping, from its two cases. -/
theorem codeOfSigned_eq {z : Int} {k : Nat} (hpos : 0 < z → (k : Int) = 2 * z - 1) (hneg : z ≤ 0 → (k : Int) = -2 * z) :
    codeOfSigned z = k := by
  rw [codeOfSigned]
  split <;> omega

/-- The code number of a signed 32-bit operand in range has a code word (R90, R91). -/
theorem codeOfSigned_le {v : BitVec 32} (hv : v.toInt ≠ -(2 ^ 31)) : codeOfSigned (sext32 v) ≤ 2 ^ 32 - 2 := by
  have hlow : -(2 ^ 31) ≤ v.toInt := BitVec.le_toInt v
  have hhigh : v.toInt < 2 ^ 31 := BitVec.toInt_lt
  rw [codeOfSigned, sext32]
  split <;> omega

/-! ### What a write leaves behind -/

section
variable {s t : State} {bits : List Bool}

/-- The position after a write (R25). -/
theorem WroteBits.bcPos_eq (h : WroteBits s t bits) : t.bcPos = s.bcPos + bits.length := by
  rw [h.1]

theorem WroteBits.err_eq (h : WroteBits s t bits) : t.err = s.err := by
  rw [h.1]

theorem WroteBits.bcMode_eq (h : WroteBits s t bits) : t.bcMode = s.bcMode := by
  rw [h.1]

/-- The buffer is in write form after a write (R145). -/
theorem WroteBits.form (h : WroteBits s t bits) : writeForm t.bCur t.bcPos := h.2.1

/-- The bits before the position are as they were (R145). -/
theorem WroteBits.bitAt_of_lt (h : WroteBits s t bits) {p : Nat} (hp : p < s.bcPos) : bitAt t.bCur p = bitAt s.bCur p :=
  h.2.2.1 p hp

/-- The bits from the position on are the written ones (R141). -/
theorem WroteBits.bitAt_add (h : WroteBits s t bits) {i : Nat} (hi : i < bits.length) :
    bitAt t.bCur (s.bcPos + i) = bits[i] :=
  h.2.2.2 i hi

end

/-! ### How a write ends -/

/-- A write in range runs the append of its bits (R141 to R144). -/
theorem exec_write_of_inRange {s : State} {op : WriteOp} (hmode : s.bcMode = .wr) (hin : op.inRange) :
    exec op.command s = runCommand s (writeAtCursor s (op.appended s.bcPos)) := by
  cases op with
  | bits n v =>
    show execWriteBits n v s = _
    rw [execWriteBits, if_pos ⟨hmode, hin⟩]
    rfl
  | ue v =>
    have hle : v.toNat ≤ maxUe := hin
    show execWriteUe v s = _
    rw [execWriteUe, if_pos hmode, if_pos hle]
    rfl
  | se v =>
    have hne : sext32 v ≠ -(2 ^ 31) := hin
    show execWriteSe v s = _
    rw [execWriteSe, if_pos hmode, if_pos hne]
    rfl
  | trail =>
    show execWriteTrail s = _
    rw [execWriteTrail, if_pos hmode]
    rfl

/-- The value without an unsigned code word (R142). -/
theorem exec_writeUe_of_not_inRange {s : State} {v : BitVec 32} (hs : s.err = 0) (hmode : s.bcMode = .wr)
    (hv : ¬ (WriteOp.ue v).inRange) : exec (.writeUe v) s = .next (takeFault .malformedSyntax s) := by
  have hgt : ¬ v.toNat ≤ maxUe := hv
  show execWriteUe v s = _
  rw [execWriteUe, if_pos hmode, if_neg hgt, runCommand_error hs]

/-- The value without a signed code word (R143). -/
theorem exec_writeSe_of_not_inRange {s : State} {v : BitVec 32} (hs : s.err = 0) (hmode : s.bcMode = .wr)
    (hv : ¬ (WriteOp.se v).inRange) : exec (.writeSe v) s = .next (takeFault .malformedSyntax s) := by
  have heq : ¬ sext32 v ≠ -(2 ^ 31) := hv
  show execWriteSe v s = _
  rw [execWriteSe, if_pos hmode, if_neg heq, runCommand_error hs]

/-- A write out of range raises a fault (R141 to R143). -/
theorem exec_write_of_not_inRange {s : State} {op : WriteOp} (hs : s.err = 0) (hmode : s.bcMode = .wr)
    (hin : ¬ op.inRange) : ∃ k, exec op.command s = .next (takeFault k s) := by
  cases op with
  | bits n v =>
    have hlegal : ¬ (s.bcMode = .wr ∧ n.toNat ≤ Config.maxField) := fun h => hin h.2
    refine ⟨.illegalCommand, ?_⟩
    show execWriteBits n v s = _
    rw [execWriteBits, if_neg hlegal, runCommand_error hs]
  | ue v => exact ⟨_, exec_writeUe_of_not_inRange hs hmode hin⟩
  | se v => exact ⟨_, exec_writeSe_of_not_inRange hs hmode hin⟩
  | trail => exact absurd trivial hin

/-- Settles O38: the range check comes before the append. -/
theorem unencodableValueFaults : Obligations.UnencodableValueFaults := by
  intro s hs hmode
  have hue : ¬ (WriteOp.ue 0xFFFFFFFF).inRange := by simp [WriteOp.inRange]
  have hse : ¬ (WriteOp.se 0x80000000).inRange := fun h => h (by decide)
  exact ⟨exec_writeUe_of_not_inRange hs hmode hue, exec_writeSe_of_not_inRange hs hmode hse⟩

/-- Everything an append at the cursor can do in write form (R141, R145): it lacks room for the bytes it needs, or it has
written its bits. -/
theorem writeAtCursor_cases {s : State} (bits : List Bool) (hform : writeForm s.bCur s.bcPos) :
    (writeAtCursor s bits = .error .capacityExceeded ∧ ¬ fits s ((s.bcPos + bits.length + 7) / 8)) ∨
    ∃ t, writeAtCursor s bits = .ok t ∧ WroteBits s t bits ∧
      (s.bCur.length < (s.bcPos + bits.length + 7) / 8 → fits s ((s.bcPos + bits.length + 7) / 8)) := by
  unfold writeAtCursor
  rcases appendBits_eq (cap := s.params.bufCap) (c := { buf := s.bCur, pos := s.bcPos }) bits hform with
    ⟨herror, _, hcap⟩ | ⟨buf, hok, hbuf, hroom, hbefore, hbits⟩
  · rw [herror]
    exact .inl ⟨rfl, fun hfits => by simp [withinLimit_iff.2 hfits] at hcap⟩
  · rw [hok]
    exact .inr ⟨_, rfl, ⟨rfl, hbuf, hbefore, hbits⟩, fun hgrown => withinLimit_iff.1 (hroom hgrown)⟩

/-- A write in range that fits has written its bits (R141). -/
theorem exec_write_of_fits {s : State} {op : WriteOp} (hs : s.err = 0) (hmode : s.bcMode = .wr)
    (hform : writeForm s.bCur s.bcPos) (hin : op.inRange) (hfits : fits s ((s.bcPos + op.advance s.bcPos + 7) / 8)) :
    ∃ t, exec op.command s = .next t ∧ WroteBits s t (op.appended s.bcPos) := by
  rw [exec_write_of_inRange hmode hin]
  rcases writeAtCursor_cases (op.appended s.bcPos) hform with ⟨_, hnot⟩ | ⟨t, hok, hwrote, _⟩
  · rw [WriteOp.appended_length] at hnot
    exact absurd hfits hnot
  · exact ⟨t, by rw [hok, runCommand_ok hs], hwrote⟩

/-- Settles O33: the field's bits are written, by index. -/
theorem writeBitsAppendsField : Obligations.WriteBitsAppendsField := by
  intro s n v hs hmode hform hn hfits
  rw [← fieldBits_eq_map]
  exact exec_write_of_fits (op := .bits n v) hs hmode hform hn hfits

/-- Settles O34: `lz` is the logarithm the code word is made with. -/
theorem writeUeAppendsCodeWord : Obligations.WriteUeAppendsCodeWord := by
  intro s v lz hs hmode hform hv hle hlt hfits
  rw [← ueLength_eq_of_bounds hle hlt] at hfits
  rw [← ueBits_eq_map hle hlt]
  exact exec_write_of_fits (op := .ue v) hs hmode hform hv hfits

/-- Settles O35: `k` is the code number of the signed value, and has a code word. -/
theorem writeSeAppendsCodeWord : Obligations.WriteSeAppendsCodeWord := by
  intro s v k lz hs hmode hform hv hpos hneg hle hlt hfits
  have hcode : codeOfSigned (sext32 v) = k := codeOfSigned_eq hpos hneg
  subst hcode
  rw [← ueLength_eq_of_bounds hle hlt] at hfits
  rw [← ueBits_eq_map hle hlt]
  exact ⟨codeOfSigned_le hv, exec_write_of_fits (op := .se v) hs hmode hform hv hfits⟩

/-- The position after `WRITE_TRAIL` is the next byte boundary strictly above (R144). -/
theorem advance_trail (p : Nat) : p + WriteOp.trail.advance p = 8 * (p / 8 + 1) := by
  simp only [WriteOp.advance]
  omega

/-- Settles O36: the trailing bits are written, up to the byte boundary. -/
theorem writeTrailClosesByte : Obligations.WriteTrailClosesByte := by
  intro s hs hmode hform hfits
  have hbytes : (s.bcPos + WriteOp.trail.advance s.bcPos + 7) / 8 = s.bcPos / 8 + 1 := by
    rw [advance_trail]
    omega
  obtain ⟨t, hexec, hwrote⟩ := exec_write_of_fits (op := .trail) hs hmode hform trivial (hbytes ▸ hfits)
  refine ⟨t, hexec, hwrote, ?_⟩
  rw [hwrote.bcPos_eq, WriteOp.appended_length, advance_trail]

/-- Settles O37: the buffer itself fits, so a write that does not must have needed a byte more. -/
theorem writeBeyondCapacityFaults : Obligations.WriteBeyondCapacityFaults := by
  intro s op hs hmode hform hin hbuf hnot
  rw [← WriteOp.appended_length] at hnot
  rw [exec_write_of_inRange hmode hin]
  rcases writeAtCursor_cases (op.appended s.bcPos) hform with ⟨herror, _⟩ | ⟨t, _, _, hroom⟩
  · rw [herror, runCommand_error hs]
    rfl
  · rcases lt_or_ge s.bCur.length ((s.bcPos + (op.appended s.bcPos).length + 7) / 8) with hgrown | hkept
    · exact absurd (hroom hgrown) hnot
    · exact absurd (fun c hc => hkept.trans (hbuf c hc)) hnot

/-- What is known of a write that completes with `OK` (R141 to R144). -/
theorem exec_write_eq_ok {s t : State} {op : WriteOp} (hs : s.err = 0) (hmode : s.bcMode = .wr)
    (hform : writeForm s.bCur s.bcPos) (h : exec op.command s = .next t) (hok : t.completion = some (.ok 0)) :
    op.inRange ∧ WroteBits s t (op.appended s.bcPos) := by
  by_cases hin : op.inRange
  · rw [exec_write_of_inRange hmode hin] at h
    rcases writeAtCursor_cases (op.appended s.bcPos) hform with ⟨herror, _⟩ | ⟨u, hwrite, hwrote, _⟩
    · rw [herror, runCommand_error hs] at h
      cases h
      cases hok
    · rw [hwrite, runCommand_ok hs] at h
      cases h
      exact ⟨hin, hwrote⟩
  · obtain ⟨k, hfault⟩ := exec_write_of_not_inRange hs hmode hin
    cases hfault.symm.trans h
    cases hok

/-! ### Sequences of commands -/

theorem issue_cons_of_next {i : Instr} {s t : State} (rest : List Instr) (h : exec i s = .next t) :
    issue (i :: rest) s = issue rest t := by
  simp only [issue, h]

theorem completionsOf_cons_of_next {i : Instr} {s t : State} (rest : List Instr) (h : exec i s = .next t) :
    completionsOf (i :: rest) s = t.completion :: completionsOf rest t := by
  simp only [completionsOf, h]

/-- A sequence that runs to its end has run its first command. -/
theorem exec_next_of_issue_cons {i : Instr} {rest : List Instr} {s u : State} (h : issue (i :: rest) s = .next u) :
    ∃ t, exec i s = .next t := by
  simp only [issue] at h
  split at h
  · rename_i t ht
    exact ⟨t, ht⟩
  · cases h
  · cases h

theorem issue_append_of_next {front : List Instr} {s t : State} (rest : List Instr) (h : issue front s = .next t) :
    issue (front ++ rest) s = issue rest t := by
  induction front generalizing s with
  | nil => cases h; rfl
  | cons i front ih =>
    obtain ⟨m, hm⟩ := exec_next_of_issue_cons h
    rw [issue_cons_of_next _ hm] at h
    rw [List.cons_append, issue_cons_of_next _ hm, ih h]

theorem completionsOf_append_of_next {front : List Instr} {s t : State} (rest : List Instr)
    (h : issue front s = .next t) : completionsOf (front ++ rest) s = completionsOf front s ++ completionsOf rest t := by
  induction front generalizing s with
  | nil => cases h; rfl
  | cons i front ih =>
    obtain ⟨m, hm⟩ := exec_next_of_issue_cons h
    rw [issue_cons_of_next _ hm] at h
    rw [List.cons_append, completionsOf_cons_of_next _ hm, completionsOf_cons_of_next _ hm, ih h, List.cons_append]

/-! ### Writes in a row -/

/-- The bits a sequence of writes begun at `p` appends. -/
def appendedBits : Nat → List WriteOp → List Bool
  | _, [] => []
  | p, op :: rest => op.appended p ++ appendedBits (p + op.advance p) rest

/-- After a completed command that left the cursor in write form, no bit is still to be written. -/
theorem wroteBits_nil {s : State} (hform : writeForm s.bCur s.bcPos) (hok : s.completion = some (.ok 0)) :
    WroteBits s s [] :=
  ⟨by rw [← hok]; rfl, hform, fun _ _ => rfl, fun i hi => absurd hi (Nat.not_lt_zero i)⟩

/-- Two writes in a row have written the bits of both. -/
theorem WroteBits.trans {s t u : State} {front rest : List Bool} (h₁ : WroteBits s t front) (h₂ : WroteBits t u rest) :
    WroteBits s u (front ++ rest) := by
  have hpos := h₁.bcPos_eq
  refine ⟨?_, h₂.form, fun p hp => ?_, fun i hi => ?_⟩
  · rw [h₂.1, h₁.1, List.length_append, Nat.add_assoc]
  · rw [h₂.bitAt_of_lt (by omega), h₁.bitAt_of_lt hp]
  · rw [List.getElem_append]
    split
    · rename_i hfront
      rw [h₂.bitAt_of_lt (by omega), h₁.bitAt_add hfront]
    · rename_i hrest
      rw [List.length_append] at hi
      have hindex : s.bcPos + i = t.bcPos + (i - front.length) := by omega
      rw [hindex, h₂.bitAt_add (by omega)]

/-- Writes that all complete with `OK` are in range and have written their bits one after another (R141). -/
theorem wroteBits_of_issue {s t : State} {ops : List WriteOp} (hs : s.err = 0) (hmode : s.bcMode = .wr)
    (hform : writeForm s.bCur s.bcPos) (hok : s.completion = some (.ok 0))
    (h : issue (ops.map WriteOp.command) s = .next t)
    (hall : ∀ c ∈ completionsOf (ops.map WriteOp.command) s, c = some (.ok 0)) :
    (∀ op ∈ ops, op.inRange) ∧ WroteBits s t (appendedBits s.bcPos ops) := by
  induction ops generalizing s with
  | nil =>
    cases h
    exact ⟨by simp, wroteBits_nil hform hok⟩
  | cons op ops ih =>
    rw [List.map_cons] at h hall
    obtain ⟨m, hm⟩ := exec_next_of_issue_cons h
    rw [issue_cons_of_next _ hm] at h
    rw [completionsOf_cons_of_next _ hm, List.forall_mem_cons] at hall
    obtain ⟨hmok, hrest⟩ := hall
    obtain ⟨hin, hwrote⟩ := exec_write_eq_ok hs hmode hform hm hmok
    obtain ⟨hins, hwroteRest⟩ :=
      ih (hwrote.err_eq.trans hs) (hwrote.bcMode_eq.trans hmode) hwrote.form hmok h hrest
    rw [hwrote.bcPos_eq, WriteOp.appended_length] at hwroteRest
    exact ⟨List.forall_mem_cons.2 ⟨hin, hins⟩, hwrote.trans hwroteRest⟩

/-! ### Bits that stand in a buffer -/

/-- The bits stand in the buffer from position `p` on. -/
def HoldsBits (buf : Buffer) (p : Nat) (bits : List Bool) : Prop :=
  p + bits.length ≤ 8 * buf.length ∧ ∀ i (h : i < bits.length), bitAt buf (p + i) = bits[i]

/-- Written bits stand in the buffer (R145). -/
theorem WroteBits.holdsBits {s t : State} {bits : List Bool} (h : WroteBits s t bits) :
    HoldsBits t.bCur s.bcPos bits := by
  have hpos := h.bcPos_eq
  have hlen : t.bCur.length = (t.bcPos + 7) / 8 := h.form.1
  exact ⟨by omega, fun _ hi => h.bitAt_add hi⟩

/-- Two runs of bits that follow each other. -/
theorem holdsBits_append {buf : Buffer} {p : Nat} {front rest : List Bool} (h : HoldsBits buf p (front ++ rest)) :
    HoldsBits buf p front ∧ HoldsBits buf (p + front.length) rest := by
  obtain ⟨hlen, hbits⟩ := h
  have hsum : (front ++ rest).length = front.length + rest.length := List.length_append
  refine ⟨⟨by omega, fun i hi => ?_⟩, ⟨by omega, fun i hi => ?_⟩⟩
  · rw [hbits i (by omega), List.getElem_append_left hi]
  · rw [Nat.add_assoc, hbits _ (by omega), List.getElem_append_right (by omega)]
    simp

/-- A field whose bits stand at `p` has its value there (R52). -/
theorem readField_of_holdsBits {buf : Buffer} {p v n : Nat} (h : HoldsBits buf p (fieldBits v n)) :
    readField buf p n = v % 2 ^ n :=
  readField_eq_mod fun i hi => by
    rw [h.2 i (by simpa using hi), fieldBits_getElem]

/-- The 1 of a code word is the leading digit of `k + 1` (R90). -/
theorem ueBits_eq_cons (k : Nat) :
    ueBits k = List.replicate (Nat.log2 (k + 1)) false ++ ([true] ++ fieldBits (k + 1) (Nat.log2 (k + 1))) := by
  have hlead : (k + 1).testBit (Nat.log2 (k + 1)) = true := Nat.testBit_log2 (Nat.succ_ne_zero k)
  rw [ueBits, fieldBits, hlead]
  rfl

/-- A code word that stands at `p` is read as its number (R90, R123). -/
theorem readUeAt_of_holdsBits {buf : Buffer} {p k : Nat} (hk : k ≤ 2 ^ 32 - 2) (h : HoldsBits buf p (ueBits k)) :
    readUeAt buf p = .ok (k, p + ueLength k) := by
  have hlen := h.1
  rw [ueBits_length, ueLength] at hlen
  rw [ueBits_eq_cons] at h
  obtain ⟨hzeros, htail⟩ := holdsBits_append h
  obtain ⟨hone, hsuffix⟩ := holdsBits_append htail
  simp only [List.length_replicate, List.length_singleton] at htail hone hsuffix
  have hcode : codeWordAt buf p (Nat.log2 (k + 1)) :=
    ⟨by omega, fun i hi => by simp [hzeros.2 i (by simpa using hi)], by simpa using hone.2 0 (by simp)⟩
  have hlz : Nat.log2 (k + 1) < 32 := (Nat.log2_lt (Nat.succ_ne_zero k)).2 (by omega)
  have hle : 2 ^ Nat.log2 (k + 1) ≤ k + 1 := Nat.log2_self_le (Nat.succ_ne_zero k)
  have hlt : k + 1 < 2 ^ (Nat.log2 (k + 1) + 1) := Nat.lt_log2_self
  have hvalue : (k + 1) % 2 ^ Nat.log2 (k + 1) = k + 1 - 2 ^ Nat.log2 (k + 1) := by
    rw [pow_succ] at hlt
    rw [Nat.mod_eq_sub_mod hle, Nat.mod_eq_of_lt (by omega)]
  rw [readUeAt_of_codeWord hcode (by omega), readField_of_holdsBits hsuffix, hvalue, ueLength]
  congr 2
  omega

/-! ### Reading back -/

/-- The cursor of `s` reads `buf` at position `p`, in a block that is not Faulted. -/
structure ReadingAt (buf : Buffer) (p : Nat) (s : State) : Prop where
  err : s.err = 0
  mode : s.bcMode = .rd
  buf_eq : s.bCur = buf
  pos : s.bcPos = p

/-- The reads complete with their values and take the cursor over `buf` from position `p` to `q`. -/
def ReadsBack (buf : Buffer) (p : Nat) (reads : List (Instr × Nat)) (q : Nat) : Prop :=
  ∀ s, ReadingAt buf p s → ∃ u, issue (reads.map Prod.fst) s = .next u ∧
    completionsOf (reads.map Prod.fst) s = reads.map (fun r => some (.ok r.2)) ∧ ReadingAt buf q u

theorem readsBack_nil (buf : Buffer) (p : Nat) : ReadsBack buf p [] p := fun s hs => ⟨s, rfl, rfl, hs⟩

/-- Reads one after another. -/
theorem ReadsBack.append {buf : Buffer} {p m q : Nat} {front rest : List (Instr × Nat)} (h₁ : ReadsBack buf p front m)
    (h₂ : ReadsBack buf m rest q) : ReadsBack buf p (front ++ rest) q := by
  intro s hs
  obtain ⟨t, hissue₁, hcompl₁, ht⟩ := h₁ s hs
  obtain ⟨u, hissue₂, hcompl₂, hu⟩ := h₂ t ht
  refine ⟨u, ?_, ?_, hu⟩
  · rw [List.map_append, issue_append_of_next _ hissue₁, hissue₂]
  · rw [List.map_append, completionsOf_append_of_next _ hissue₁, hcompl₁, hcompl₂, List.map_append]

/-- One read that returns its value and moves the cursor. -/
theorem readsBack_of_exec {buf : Buffer} {p q v : Nat} {i : Instr}
    (h : ∀ s, ReadingAt buf p s → exec i s = .next ((s.moveCursor q).returnValue v)) : ReadsBack buf p [(i, v)] q := by
  intro s hs
  have hread := h s hs
  refine ⟨(s.moveCursor q).returnValue v, issue_cons_of_next [] hread, completionsOf_cons_of_next [] hread, ?_⟩
  exact ⟨hs.err, hs.mode, hs.buf_eq, rfl⟩

/-- `READ_BITS` gives a written field back (R122, R147). -/
theorem readsBack_field {buf : Buffer} {p v : Nat} {n : BitVec 8} (hn : n.toNat ≤ 32)
    (h : HoldsBits buf p (fieldBits v n.toNat)) :
    ReadsBack buf p [(.readBits n, v % 2 ^ n.toNat)] (p + n.toNat) := by
  refine readsBack_of_exec fun s hs => ?_
  obtain ⟨herr, hmode, rfl, rfl⟩ := hs
  have hroom := h.1
  rw [fieldBits_length] at hroom
  rw [exec_readBits_of_le herr hmode hn hroom, readField_of_holdsBits h]

/-- `READ_UE` gives a written code number back (R123, R147). -/
theorem readsBack_ue {buf : Buffer} {p k : Nat} (hk : k ≤ 2 ^ 32 - 2) (h : HoldsBits buf p (ueBits k)) :
    ReadsBack buf p [(.readUe, k)] (p + ueLength k) := by
  refine readsBack_of_exec fun s hs => ?_
  obtain ⟨herr, hmode, rfl, rfl⟩ := hs
  exact readCodeWord_of_ok (fun k => k) herr hmode (readUeAt_of_holdsBits hk h)

/-- R91's mapping and its inverse. -/
theorem signedOfCode_codeOfSigned (z : Int) : signedOfCode (codeOfSigned z) = z := by
  rw [codeOfSigned]
  split <;> exact signedOfCode_eq (by omega) (by omega)

/-- `READ_SE` gives a written signed operand back (R124, R147). -/
theorem readsBack_se {buf : Buffer} {p : Nat} {v : BitVec 32} (hv : v.toInt ≠ -(2 ^ 31))
    (h : HoldsBits buf p (ueBits (codeOfSigned (sext32 v)))) :
    ReadsBack buf p [(.readSe, v.toNat)] (p + ueLength (codeOfSigned (sext32 v))) := by
  refine readsBack_of_exec fun s hs => ?_
  obtain ⟨herr, hmode, rfl, rfl⟩ := hs
  have hvalue : pattern32 (signedOfCode (codeOfSigned (sext32 v))) = v.toNat := by
    rw [signedOfCode_codeOfSigned, pattern32_eq_toNat, sext32, BitVec.ofInt_toInt]
  rw [← hvalue]
  exact readCodeWord_of_ok (fun k => pattern32 (signedOfCode k)) herr hmode
    (readUeAt_of_holdsBits (codeOfSigned_le hv) h)

/-- A field of value 0 is all zeros. -/
theorem fieldBits_zero (n : Nat) : fieldBits 0 n = List.replicate n false := by
  induction n with
  | zero => rfl
  | succ n ih => rw [fieldBits, ih, Nat.zero_testBit, List.replicate_succ]

/-- The trailing bits are a field of one bit with value 1 and a field of value 0 (R87). -/
theorem trailingBits_eq_fields (p : Nat) : trailingBits p = fieldBits 1 1 ++ fieldBits 0 (7 - p % 8) := by
  rw [fieldBits_zero]
  rfl

/-- The two reads of `WRITE_TRAIL` give its 1 and its zeros back (R147). -/
theorem readsBack_trail {buf : Buffer} {p : Nat} (h : HoldsBits buf p (trailingBits p)) :
    ReadsBack buf p (WriteOp.trail.reads p) (p + WriteOp.trail.advance p) := by
  rw [trailingBits_eq_fields] at h
  obtain ⟨hone, hzeros⟩ := holdsBits_append h
  have hwidth : (BitVec.ofNat 8 (7 - p % 8)).toNat = 7 - p % 8 := by
    rw [BitVec.toNat_ofNat]
    omega
  rw [← hwidth] at hzeros
  have hreads := (readsBack_field (n := 1#8) (by decide) hone).append (readsBack_field (by omega) hzeros)
  have hend : p + (1#8).toNat + (BitVec.ofNat 8 (7 - p % 8)).toNat = p + WriteOp.trail.advance p := by
    simp only [hwidth, WriteOp.advance, BitVec.reduceToNat]
    omega
  rw [Nat.zero_mod, hend] at hreads
  exact hreads

/-- The reads that match a write in range give its value back (R147). -/
theorem readsBack_write {buf : Buffer} {p : Nat} {op : WriteOp} (hin : op.inRange) (h : HoldsBits buf p (op.appended p)) :
    ReadsBack buf p (op.reads p) (p + op.advance p) := by
  cases op with
  | bits n v => exact readsBack_field hin h
  | ue v => exact readsBack_ue hin h
  | se v => exact readsBack_se hin h
  | trail => exact readsBack_trail h

/-- The matching reads give the values of a sequence of writes back (R147). -/
theorem readsBack_writes {buf : Buffer} {p : Nat} {ops : List WriteOp} (hin : ∀ op ∈ ops, op.inRange)
    (h : HoldsBits buf p (appendedBits p ops)) :
    ReadsBack buf p (matchingReads p ops) (p + (appendedBits p ops).length) := by
  induction ops generalizing p with
  | nil => exact readsBack_nil buf p
  | cons op ops ih =>
    obtain ⟨hop, hops⟩ := List.forall_mem_cons.1 hin
    obtain ⟨hfirst, hrest⟩ := holdsBits_append h
    rw [WriteOp.appended_length] at hrest
    have hreads := (readsBack_write hop hfirst).append (ih hops hrest)
    have hend : p + op.advance p + (appendedBits (p + op.advance p) ops).length =
        p + (appendedBits p (op :: ops)).length := by
      rw [appendedBits, List.length_append, WriteOp.appended_length, Nat.add_assoc]
    rw [hend] at hreads
    exact hreads

/-! ### Reading the copied bytes -/

/-- The first 8 stream bits are the first byte, as a field (R11). -/
theorem bitAt_cons_of_lt (b : Byte) (data : Buffer) {i : Nat} (hi : i < 8) :
    bitAt (b :: data) i = b.toNat.testBit (8 - 1 - i) := by
  have hbyte : i / 8 = 0 := by omega
  rw [bitAt, hbyte, List.getD_cons_zero, Nat.mod_eq_of_lt hi]
  rfl

/-- The stream bits behind the first byte (R11). -/
theorem bitAt_cons_add (b : Byte) (data : Buffer) (i : Nat) : bitAt (b :: data) (8 + i) = bitAt data i := by
  have hbyte : (8 + i) / 8 = i / 8 + 1 := by omega
  rw [bitAt, hbyte, List.getD_cons_succ, Nat.add_mod_left]
  rfl

/-- Reads of 8 bits each give the bytes back whose bits stand at `p` (R122). -/
theorem readsBack_bytes {buf data : Buffer} {p : Nat} (hroom : p + 8 * data.length ≤ 8 * buf.length)
    (h : ∀ i < 8 * data.length, bitAt buf (p + i) = bitAt data i) :
    ReadsBack buf p (data.map fun b => (.readBits 8, b.toNat)) (p + 8 * data.length) := by
  induction data generalizing p with
  | nil => exact readsBack_nil buf p
  | cons b data ih =>
    rw [List.length_cons] at hroom h ⊢
    have hbyte : HoldsBits buf p (fieldBits b.toNat 8) := by
      refine ⟨by rw [fieldBits_length]; omega, fun i hi => ?_⟩
      rw [fieldBits_length] at hi
      rw [fieldBits_getElem, h i (by omega), bitAt_cons_of_lt b data hi]
    have hrest := ih (p := p + 8) (by omega) fun i hi => by
      rw [Nat.add_assoc, h (8 + i) (by omega), bitAt_cons_add]
    have hfirst := readsBack_field (n := 8#8) (by decide) hbyte
    have hvalue : b.toNat % 2 ^ (8#8).toNat = b.toNat := Nat.mod_eq_of_lt b.isLt
    rw [hvalue] at hfirst
    have hend : p + 8 * (data.length + 1) = p + 8 + 8 * data.length := by omega
    rw [hend]
    exact hfirst.append hrest

/-- Settles O39: the writes leave the copied bytes and put their bits behind them, and each is read back where it stands. -/
theorem writesReadBack : Obligations.WritesReadBack := by
  intro s t src ops hs h hall
  have hload : exec (.bcLoad src .wr) s = .next (s.attachCursor (s.buf src) .wr).finish := runCommand_ok hs
  rw [issue_cons_of_next _ hload] at h
  rw [completionsOf_cons_of_next _ hload, List.forall_mem_cons] at hall
  obtain ⟨hin, hwrote⟩ := wroteBits_of_issue (s := (s.attachCursor (s.buf src) .wr).finish) hs rfl
    (writeForm_at_end (s.buf src)) rfl h hall.2
  have hbits : HoldsBits t.bCur (8 * (s.buf src).length) (appendedBits (8 * (s.buf src).length) ops) := hwrote.holdsBits
  have hcopied : ∀ p < 8 * (s.buf src).length, bitAt t.bCur p = bitAt (s.buf src) p := fun p hp => hwrote.bitAt_of_lt hp
  have hpos : t.bcPos = 8 * (s.buf src).length + (appendedBits (8 * (s.buf src).length) ops).length := hwrote.bcPos_eq
  have hroom : 8 * (s.buf src).length ≤ 8 * t.bCur.length := (Nat.le_add_right _ _).trans hbits.1
  have hbytes := readsBack_bytes (buf := t.bCur) (data := s.buf src) (p := 0) (by omega)
    fun i hi => by rw [Nat.zero_add, hcopied i hi]
  rw [Nat.zero_add] at hbytes
  have hterr : t.err = 0 := hwrote.err_eq.trans hs
  have hattach : exec (.bcLoad .cur .rd) t = .next (t.attachCursor t.bCur .rd).finish := runCommand_ok hterr
  obtain ⟨u, hissue, hcompl, hu⟩ := hbytes.append (readsBack_writes hin hbits) (t.attachCursor t.bCur .rd).finish
    ⟨hterr, rfl, rfl, rfl⟩
  simp only [List.map_append, List.map_map, Function.comp_def, List.map_const'] at hissue hcompl
  refine ⟨u, ?_, ?_, hu.pos.trans hpos.symm⟩
  · rw [List.cons_append, issue_cons_of_next _ hattach, hissue]
  · rw [List.cons_append, completionsOf_cons_of_next _ hattach, hcompl, List.cons_append]
    rfl

end Sys2Proof.Machine

/-! Proofs about the transcoder: the rows of its two scans, canonical payloads, that each scan undoes the other, and how
`TO_RBSP`, `TO_BS` and `LP_WRAP` end. -/

namespace Sys2Proof.Machine

/-! ### The rows of the removal scan -/

/-- The state of the removal scan after `z` zeros; two and more are one state. -/
def scanStateAfter : Nat → ScanState
  | 0 => .copying
  | 1 => .oneZeroSeen
  | _ + 2 => .twoZerosSeen

@[simp] theorem scanStateAfter_zero : scanStateAfter 0 = .copying := rfl
@[simp] theorem scanStateAfter_two : scanStateAfter 2 = .twoZerosSeen := rfl

/-- A zero that is not the third is copied and counted (R162). -/
theorem removeEpb_zero (tz : Config.ThirdZero) {z : Nat} (hz : z < 2) (rest : Buffer) :
    removeEpb tz (scanStateAfter z) (0x00 :: rest) = 0x00 :: removeEpb tz (scanStateAfter (z + 1)) rest := by
  match z with
  | 0 => rfl
  | 1 => rfl

/-- A third zero is copied, and `EPB_THIRD_ZERO` says where the scan goes on (R163). -/
theorem removeEpb_third_zero (tz : Config.ThirdZero) (rest : Buffer) :
    removeEpb tz .twoZerosSeen (0x00 :: rest) = 0x00 :: removeEpb tz (thirdZeroState tz) rest := rfl

/-- A `03` after two zeros is dropped (R162). -/
theorem removeEpb_drop (tz : Config.ThirdZero) (rest : Buffer) :
    removeEpb tz .twoZerosSeen (0x03 :: rest) = removeEpb tz .copying rest := rfl

/-- Any other byte is copied, and the zeros before it no longer count (R162). -/
theorem removeEpb_copy (tz : Config.ThirdZero) {st : ScanState} {b : Byte} (hb : b ≠ 0x00)
    (hepb : st = .twoZerosSeen → b ≠ 0x03) (rest : Buffer) :
    removeEpb tz st (b :: rest) = b :: removeEpb tz .copying rest := by
  have hrow : removalStep tz st b = ([b], .copying) := by
    cases st with
    | copying | oneZeroSeen => exact if_neg hb
    | twoZerosSeen => exact (if_neg (hepb rfl)).trans (if_neg hb)
  rw [removeEpb_cons, hrow, List.singleton_append]

/-- Settles O42: each row is one of the four above. -/
theorem removalScanRows : Obligations.RemovalScanRows := by
  intro tz b rest hb
  exact ⟨removeEpb_nil tz, removeEpb_zero tz Nat.two_pos rest, removeEpb_copy tz hb (by simp) rest,
    removeEpb_zero tz Nat.one_lt_two rest, removeEpb_copy tz hb (by simp) rest, removeEpb_drop tz rest,
    fun hepb => removeEpb_copy tz hb (fun _ => hepb) rest,
    removeEpb_third_zero .stayTwo rest, removeEpb_third_zero .toOne rest, removeEpb_third_zero .toCopy rest⟩

/-! ### The rows of the insertion scan -/

/-- After two zeros a byte of at most `03` has an emulation-prevention byte put in front (R166). -/
theorem insertEpb_escape {z : Nat} {b : Byte} (hz : 2 ≤ z) (hb : b ≤ 0x03) (rest : Buffer) :
    insertEpb z (b :: rest) = 0x03 :: b :: insertEpb (if b = 0x00 then 1 else 0) rest := by
  rw [insertEpb_cons, insertionStep_escape hz hb]
  rfl

/-- Every other byte is copied; a zero counts (R166). -/
theorem insertEpb_plain {z : Nat} {b : Byte} (h : z < 2 ∨ ¬ b ≤ 0x03) (rest : Buffer) :
    insertEpb z (b :: rest) = b :: insertEpb (if b = 0x00 then z + 1 else 0) rest := by
  rw [insertEpb_cons, insertionStep_plain h, List.singleton_append]

/-- Settles O45: the empty payload and the two rows. -/
theorem insertionScanRows : Obligations.InsertionScanRows := by
  intro z b rest
  refine ⟨insertEpb_nil z, fun hz hb => insertEpb_escape hz hb rest, fun h => insertEpb_plain (h.imp_right ?_) rest⟩
  exact fun hgt hle => absurd (BitVec.le_def.1 hle) (Nat.not_le.2 hgt)

/-- A zero that is not the third is copied and counted. -/
theorem insertEpb_zero {z : Nat} (hz : z < 2) (rest : Buffer) :
    insertEpb z (0x00 :: rest) = 0x00 :: insertEpb (z + 1) rest := insertEpb_plain (.inl hz) rest

/-- A byte that is no zero and needs no escape is copied, and the count starts again. -/
theorem insertEpb_copy {z : Nat} {b : Byte} (hb : b ≠ 0x00) (h : z < 2 ∨ ¬ b ≤ 0x03) (rest : Buffer) :
    insertEpb z (b :: rest) = b :: insertEpb 0 rest := by
  rw [insertEpb_plain h, if_neg hb]

/-- The scan goes on behind an emulation-prevention byte as from a zero count of 0, the triggering byte included. -/
theorem insertEpb_escape_restart {b : Byte} (hb : b ≤ 0x03) (rest : Buffer) :
    insertEpb 2 (b :: rest) = 0x03 :: insertEpb 0 (b :: rest) := by
  rw [insertEpb_escape le_rfl hb, insertEpb_plain (.inl Nat.two_pos)]

/-! ### Induction along both scans -/

/-- The bytes of at most `03`, the ones R166 escapes. -/
theorem byte_cases_of_le_three {b : Byte} (h : b ≤ 0x03) : b = 0x00 ∨ b = 0x01 ∨ b = 0x02 ∨ b = 0x03 := by
  bv_omega

/-- Induction over a payload together with the count `z ≤ 2` of the zeros in front of it: a zero that is not the third, a
byte that ends the run and is above `03` if the run has two zeros, and a byte of at most `03` after two zeros. In the last
case the claim is at hand for the same bytes, and for the bytes behind, from a count of 0. -/
theorem zeroCount_induction {P : (z : Nat) → z ≤ 2 → Buffer → Prop} (nil : ∀ z hz, P z hz [])
    (zero : ∀ z (hz : z < 2) rest, P (z + 1) hz rest → P z hz.le (0x00 :: rest))
    (copy : ∀ z hz b rest, b ≠ 0x00 → (z < 2 ∨ ¬ b ≤ 0x03) → P 0 (Nat.zero_le 2) rest → P z hz (b :: rest))
    (escape : ∀ b rest, b ≤ 0x03 → P 0 (Nat.zero_le 2) rest → P 0 (Nat.zero_le 2) (b :: rest) → P 2 le_rfl (b :: rest))
    (z : Nat) (hz : z ≤ 2) (payload : Buffer) : P z hz payload := by
  induction payload generalizing z with
  | nil => exact nil z hz
  | cons b rest ih =>
    have short : ∀ k (hk : k < 2), P k hk.le (b :: rest) := by
      intro k hk
      by_cases hb : b = 0x00
      · subst hb
        exact zero k hk rest (ih (k + 1) hk)
      · exact copy k hk.le b rest hb (.inl hk) (ih 0 (Nat.zero_le 2))
    rcases hz.lt_or_eq with hlt | rfl
    · exact short z hlt
    · by_cases hb : b ≤ 0x03
      · exact escape b rest hb (ih 0 (Nat.zero_le 2)) (short 0 Nat.two_pos)
      · have hne : b ≠ 0x00 := by rintro rfl; exact hb (by decide)
        exact copy 2 le_rfl b rest hne (.inr hb) (ih 0 (Nat.zero_le 2))

/-! ### The readings of a third zero -/

theorem zeroRun_succ (n : Nat) : zeroRun (n + 1) = 0x00 :: zeroRun n := rfl

/-- A zero behind a run of zeros is one more of the run. -/
theorem zeroRun_append_zero (n : Nat) (rest : Buffer) : zeroRun n ++ 0x00 :: rest = zeroRun (n + 1) ++ rest := by
  rw [zeroRun, zeroRun, List.replicate_succ', List.append_assoc, List.singleton_append]

/-- A byte that ends the zeros in front of it is not dropped, when it is above `03` after two of them. -/
theorem scanState_ne_two_or_ne_epb {z : Nat} {b : Byte} (h : z < 2 ∨ ¬ b ≤ 0x03) :
    scanStateAfter z = .twoZerosSeen → b ≠ 0x03 := by
  rintro hst rfl
  rcases h with hlt | hgt
  · match z with
    | 0 | 1 => cases hst
  · exact hgt (by decide)

/-- After at most two zeros the readings of a third zero agree when no three zeros in a row follow. -/
theorem removeEpb_eq_stayTwo (tz : Config.ThirdZero) {z : Nat} (hz : z ≤ 2) (payload : Buffer)
    (h : ¬ [0x00, 0x00, 0x00] <:+: zeroRun z ++ payload) :
    removeEpb tz (scanStateAfter z) payload = removeEpb .stayTwo (scanStateAfter z) payload := by
  have tail : ∀ {z b} {rest : Buffer}, ¬ [0x00, 0x00, 0x00] <:+: zeroRun z ++ b :: rest →
      ¬ [0x00, 0x00, 0x00] <:+: zeroRun 0 ++ rest := fun {z b rest} h hc =>
    h (hc.trans ((List.suffix_cons b rest).trans (List.suffix_append (zeroRun z) _)).isInfix)
  induction z, hz, payload using zeroCount_induction with
  | nil z _ => rfl
  | zero z hz rest ih =>
    rw [zeroRun_append_zero] at h
    rw [removeEpb_zero tz hz, removeEpb_zero .stayTwo hz, ih h]
  | copy z _ b rest hb hplain ih =>
    have hepb := scanState_ne_two_or_ne_epb hplain
    rw [removeEpb_copy tz hb hepb, removeEpb_copy .stayTwo hb hepb]
    exact congrArg _ (ih (tail h))
  | escape b rest _ ih _ =>
    by_cases hepb : b = 0x03
    · subst hepb
      exact ih (tail h)
    · have hne : b ≠ 0x00 := by
        rintro rfl
        exact h (List.prefix_append [0x00, 0x00, 0x00] rest).isInfix
      rw [scanStateAfter_two, removeEpb_copy tz hne fun _ => hepb, removeEpb_copy .stayTwo hne fun _ => hepb]
      exact congrArg _ (ih (tail h))

/-- Settles O44: agreement from a count of 0, and the examples of R163's table by evaluation. -/
theorem thirdZeroReadingsAgree : Obligations.ThirdZeroReadingsAgree :=
  ⟨fun tz payload h => removeEpb_eq_stayTwo tz (Nat.zero_le 2) payload h, by decide⟩

/-! ### Canonical payloads -/

/-- What R170 allows behind two zeros: nothing, a byte above `03`, or a `03` that a byte of at most `03` follows. -/
def AllowedAfterTwoZeros (rest : Buffer) : Prop :=
  ∀ b tail, rest = b :: tail → ¬ b ≤ 0x03 ∨ (b = 0x03 ∧ ∃ c more, tail = c :: more ∧ c ≤ 0x03)

/-- R170 in one condition: behind every two zeros of the payload stands what is allowed there. -/
theorem canonical_iff (payload : Buffer) :
    Canonical payload ↔ ∀ rest, 0x00 :: 0x00 :: rest <:+ payload → AllowedAfterTwoZeros rest := by
  constructor
  · rintro ⟨hzero, hone, htwo, hepb⟩ rest ⟨before, rfl⟩ b tail rfl
    have hinfix : [0x00, 0x00, b] <:+: before ++ 0x00 :: 0x00 :: b :: tail := ⟨before, tail, by simp⟩
    by_cases hle : b ≤ 0x03
    · rcases byte_cases_of_le_three hle with rfl | rfl | rfl | rfl
      · exact absurd hinfix hzero
      · exact absurd hinfix hone
      · exact absurd hinfix htwo
      · exact .inr ⟨rfl, hepb before tail (by simp)⟩
    · exact .inl hle
  · intro h
    have absent : ∀ b : Byte, b ≤ 0x03 → b ≠ 0x03 → ¬ [0x00, 0x00, b] <:+: payload := by
      rintro b hle hne ⟨before, tail, rfl⟩
      rcases h (b :: tail) ⟨before, by simp⟩ b tail rfl with hgt | ⟨heq, _⟩
      · exact hgt hle
      · exact hne heq
    refine ⟨absent _ (by decide) (by decide), absent _ (by decide) (by decide), absent _ (by decide) (by decide), ?_⟩
    rintro before after rfl
    rcases h (0x03 :: after) ⟨before, by simp⟩ 0x03 after rfl with hgt | ⟨_, hfollows⟩
    · exact absurd (by decide) hgt
    · exact hfollows

/-- A byte in front that starts no pair of zeros adds no condition. -/
theorem canonical_cons {b : Byte} {rest : Buffer} (h : ∀ tail, b :: rest ≠ 0x00 :: 0x00 :: tail) :
    Canonical (b :: rest) ↔ Canonical rest := by
  have hsuffix : ∀ tail, 0x00 :: 0x00 :: tail <:+ b :: rest ↔ 0x00 :: 0x00 :: tail <:+ rest := fun tail =>
    List.suffix_cons_iff.trans (or_iff_right (h tail).symm)
  simp only [canonical_iff, hsuffix]

/-- A byte other than `00` in front adds no condition. -/
theorem canonical_cons_of_ne {b : Byte} (hb : b ≠ 0x00) (rest : Buffer) : Canonical (b :: rest) ↔ Canonical rest :=
  canonical_cons fun _ h => hb (List.cons.inj h).1

/-- Two zeros in front add the condition on what is behind them. -/
theorem canonical_two_zeros (rest : Buffer) :
    Canonical (0x00 :: 0x00 :: rest) ↔ AllowedAfterTwoZeros rest ∧ Canonical (0x00 :: rest) := by
  rw [canonical_iff, canonical_iff]
  constructor
  · exact fun h => ⟨h rest List.suffix_rfl, fun tail htail => h tail (htail.trans (List.suffix_cons _ _))⟩
  · rintro ⟨hrest, h⟩ tail htail
    rcases List.suffix_cons_iff.1 htail with heq | hsuffix
    · simp only [List.cons.injEq, true_and] at heq
      exact heq ▸ hrest
    · exact h tail hsuffix

/-- One zero in front of a byte other than `00` adds no condition. -/
theorem canonical_zero_cons_of_ne {b : Byte} (hb : b ≠ 0x00) (rest : Buffer) :
    Canonical (0x00 :: b :: rest) ↔ Canonical rest :=
  (canonical_cons fun _ h => hb (List.cons.inj (List.cons.inj h).2).1).trans (canonical_cons_of_ne hb rest)

/-- At most two zeros are canonical. -/
theorem canonical_zeroRun {z : Nat} (hz : z ≤ 2) : Canonical (zeroRun z) := by
  rw [canonical_iff]
  intro rest hrest b tail hb
  have hlength := hrest.length_le
  simp only [hb, zeroRun, List.length_cons, List.length_replicate] at hlength
  omega

/-- At most two zeros in front of a byte other than `00` add the condition on what is behind them when they are two. -/
theorem canonical_zeroRun_cons {z : Nat} (hz : z ≤ 2) {b : Byte} (hb : b ≠ 0x00) (rest : Buffer) :
    Canonical (zeroRun z ++ b :: rest) ↔ (z = 2 → AllowedAfterTwoZeros (b :: rest)) ∧ Canonical rest := by
  match z with
  | 0 => exact (canonical_cons_of_ne hb rest).trans (by simp)
  | 1 => exact (canonical_zero_cons_of_ne hb rest).trans (by simp)
  | 2 =>
    show Canonical (0x00 :: 0x00 :: b :: rest) ↔ _
    rw [canonical_two_zeros, canonical_zero_cons_of_ne hb]
    simp

/-- A byte above `03` is allowed behind two zeros, whatever follows it. -/
theorem allowedAfterTwoZeros_of_gt {b : Byte} (hb : ¬ b ≤ 0x03) (rest : Buffer) : AllowedAfterTwoZeros (b :: rest) := by
  rintro _ _ ⟨⟩
  exact .inl hb

/-- A byte of at most `03` is allowed behind two zeros when it is a `03` that a byte of at most `03` follows. -/
theorem allowedAfterTwoZeros_of_le {b : Byte} (hb : b ≤ 0x03) {rest : Buffer} :
    AllowedAfterTwoZeros (b :: rest) ↔ b = 0x03 ∧ ∃ c more, rest = c :: more ∧ c ≤ 0x03 := by
  constructor
  · exact fun h => (h b rest rfl).resolve_left fun hgt => hgt hb
  · rintro h _ _ ⟨⟩
    exact .inr h

/-! ### The insertion scan's output -/

/-- The output of the insertion scan after `z` zeros is canonical behind them (R167). -/
theorem canonical_insertEpb {z : Nat} (hz : z ≤ 2) (payload : Buffer) : Canonical (zeroRun z ++ insertEpb z payload) := by
  induction z, hz, payload using zeroCount_induction with
  | nil z hz => simpa using canonical_zeroRun hz
  | zero z hz rest ih => rwa [insertEpb_zero hz, zeroRun_append_zero]
  | copy z hz b rest hb hplain ih =>
    rw [insertEpb_copy hb hplain, canonical_zeroRun_cons hz hb]
    exact ⟨fun htwo => allowedAfterTwoZeros_of_gt (hplain.resolve_left (by omega)) _, ih⟩
  | escape b rest hb _ ih =>
    obtain ⟨more, hmore⟩ : ∃ more, insertEpb 0 (b :: rest) = b :: more := ⟨_, insertEpb_plain (.inl Nat.two_pos) rest⟩
    rw [insertEpb_escape_restart hb, canonical_zeroRun_cons le_rfl (by decide)]
    exact ⟨fun _ => (allowedAfterTwoZeros_of_le (by decide)).2 ⟨rfl, b, more, hmore, hb⟩, ih⟩

/-- At most one byte is inserted for every two bytes, counting from the second of the zeros in front (R167). -/
theorem insertEpb_length_le {z : Nat} (hz : z ≤ 2) (payload : Buffer) :
    (insertEpb z payload).length ≤ payload.length + (payload.length + z - 1) / 2 := by
  induction z, hz, payload using zeroCount_induction with
  | nil z _ => simp
  | zero z hz rest ih =>
    rw [insertEpb_zero hz, List.length_cons, List.length_cons]
    omega
  | copy z _ b rest hb hplain ih =>
    rw [insertEpb_copy hb hplain, List.length_cons, List.length_cons]
    omega
  | escape b rest hb _ ih =>
    rw [insertEpb_escape_restart hb, List.length_cons]
    rw [List.length_cons] at ih ⊢
    omega

/-- A run of zeros meets the bound (R167). -/
theorem insertEpb_zeroRun_length {z : Nat} (hz : z ≤ 2) (n : Nat) :
    (insertEpb z (zeroRun n)).length = n + (n + z - 1) / 2 := by
  induction n generalizing z with
  | zero =>
    show 0 = 0 + (0 + z - 1) / 2
    omega
  | succ n ih =>
    rw [zeroRun_succ]
    rcases hz.lt_or_eq with hlt | rfl
    · rw [insertEpb_zero hlt, List.length_cons, ih hlt]
      omega
    · rw [insertEpb_escape le_rfl (by decide), if_pos rfl, List.length_cons, List.length_cons, ih Nat.one_lt_two.le]
      omega

/-- Settles O47: the facts about the insertion scan, from a count of 0. -/
theorem toBsPayloadIsCanonical : Obligations.ToBsPayloadIsCanonical :=
  ⟨fun payload => ⟨canonical_insertEpb (Nat.zero_le 2) payload, length_le_insertEpb 0 payload,
    insertEpb_length_le (Nat.zero_le 2) payload⟩, insertEpb_zeroRun_length (Nat.zero_le 2)⟩

/-! ### The two scans undo each other -/

/-- Removal undoes insertion (R169). The insertion scan lets no third zero through, so `EPB_THIRD_ZERO` does not matter. -/
theorem removeEpb_insertEpb (tz : Config.ThirdZero) {z : Nat} (hz : z ≤ 2) (payload : Buffer) :
    removeEpb tz (scanStateAfter z) (insertEpb z payload) = payload := by
  induction z, hz, payload using zeroCount_induction with
  | nil z _ => rfl
  | zero z hz rest ih => rw [insertEpb_zero hz, removeEpb_zero tz hz, ih]
  | copy z _ b rest hb hplain ih =>
    rw [insertEpb_copy hb hplain, removeEpb_copy tz hb (scanState_ne_two_or_ne_epb hplain)]
    exact congrArg _ ih
  | escape b rest hb _ ih =>
    rw [insertEpb_escape_restart hb]
    exact ih

/-- Insertion undoes removal on a payload that is canonical behind the zeros in front of it (R170). -/
theorem insertEpb_removeEpb (tz : Config.ThirdZero) {z : Nat} (hz : z ≤ 2) (payload : Buffer)
    (h : Canonical (zeroRun z ++ payload)) : insertEpb z (removeEpb tz (scanStateAfter z) payload) = payload := by
  induction z, hz, payload using zeroCount_induction with
  | nil z _ => rfl
  | zero z hz rest ih =>
    rw [zeroRun_append_zero] at h
    rw [removeEpb_zero tz hz, insertEpb_zero hz, ih h]
  | copy z hz b rest hb hplain ih =>
    have hrest := ((canonical_zeroRun_cons hz hb rest).1 h).2
    rw [removeEpb_copy tz hb (scanState_ne_two_or_ne_epb hplain), insertEpb_copy hb hplain]
    exact congrArg _ (ih hrest)
  | escape b rest hb ih _ =>
    obtain ⟨hallowed, -⟩ := (canonical_two_zeros (b :: rest)).1 h
    obtain ⟨rfl, c, more, rfl, hc⟩ := (allowedAfterTwoZeros_of_le hb).1 hallowed
    have hrest := ((canonical_zeroRun_cons le_rfl (by decide) (c :: more)).1 h).2
    obtain ⟨out, hout⟩ : ∃ out, removeEpb tz .copying (c :: more) = c :: out := by
      rw [removeEpb_cons, removalStep_out, if_neg (by simp)]
      exact ⟨_, rfl⟩
    have hundone := ih hrest
    rw [scanStateAfter_zero, hout] at hundone
    rw [scanStateAfter_two, removeEpb_drop, hout, insertEpb_escape_restart hc, hundone]

/-- Insertion undoes removal exactly on the canonical payloads (R170). -/
theorem insertEpb_removeEpb_iff (tz : Config.ThirdZero) (payload : Buffer) :
    insertEpb 0 (removeEpb tz .copying payload) = payload ↔ Canonical payload :=
  ⟨fun h => h ▸ canonical_insertEpb (Nat.zero_le 2) (removeEpb tz .copying payload),
    insertEpb_removeEpb tz (Nat.zero_le 2) payload⟩

/-! ### How the commands end -/

/-- A write of `B_BS` that fits completes (R165, R168). -/
theorem runCommand_writeBBs_of_fits {s : State} {out : Buffer} (hs : s.err = 0) (hfits : fits s out.length) :
    runCommand s (writeBBs s out) = .next (s.setBBs out).finish := by
  rw [writeBBs_eq_ok.2 ⟨withinLimit_iff.2 hfits, rfl⟩, runCommand_ok hs]

/-- A write of `B_BS` without room raises `CapacityExceeded` (R236). -/
theorem runCommand_writeBBs_of_not_fits {s : State} {out : Buffer} (hs : s.err = 0) (hfits : ¬ fits s out.length) :
    runCommand s (writeBBs s out) = .next (takeFault .capacityExceeded s) := by
  rw [writeBBs, if_neg fun h => hfits (withinLimit_iff.1 h), runCommand_error hs]

/-- A write of `B_BS` that completes without fault has written its bytes. -/
theorem eq_setBBs_of_completed {s t : State} {out : Buffer}
    (h : runCommand s (writeBBs s out) = .next t) (hs : s.err = 0) (hok : t.completion = some (.ok 0)) :
    t = (s.setBBs out).finish := by
  by_cases hfits : fits s out.length
  · rw [runCommand_writeBBs_of_fits hs hfits] at h
    cases h
    rfl
  · rw [runCommand_writeBBs_of_not_fits hs hfits] at h
    cases h
    cases hok

/-- `TO_RBSP` behind the start code, if one is declared (R161). -/
theorem exec_toRbsp_of_strip {s : State} {src : BufId} {hasSc : Bool} {n : Nat} {h0 h1 : Byte} {payload : Buffer}
    (hs : s.err = 0) (h : stripStartCode hasSc (s.buf src) = some (n, h0 :: h1 :: payload)) :
    exec (.toRbsp src hasSc) s =
      .next (s.setRbsp (h0 :: h1 :: removeEpb s.params.thirdZero .copying payload) n).finish := by
  show execToRbsp src hasSc s = _
  simp only [execToRbsp, h, toRbspBytes, runCommand_ok hs]

/-- `TO_RBSP` without the start code that is declared (R161). -/
theorem exec_toRbsp_of_strip_none {s : State} {src : BufId} {hasSc : Bool} (hs : s.err = 0)
    (h : stripStartCode hasSc (s.buf src) = none) :
    exec (.toRbsp src hasSc) s = .next (takeFault .malformedSyntax s) := by
  show execToRbsp src hasSc s = _
  simp only [execToRbsp, h, runCommand_error hs]

/-- `TO_RBSP` without a header behind the start code (R161). -/
theorem exec_toRbsp_of_short {s : State} {src : BufId} {hasSc : Bool} {n : Nat} {data : Buffer} (hs : s.err = 0)
    (h : stripStartCode hasSc (s.buf src) = some (n, data)) (hshort : data.length < 2) :
    exec (.toRbsp src hasSc) s = .next (takeFault .bufferUnderrun s) := by
  show execToRbsp src hasSc s = _
  simp only [execToRbsp, h, toRbspBytes_error hshort, runCommand_error hs]

/-- Settles O40: what is stripped in front is nothing, or the start code. -/
theorem toRbspCompletes : Obligations.ToRbspCompletes := by
  intro s src h0 h1 payload hs
  refine ⟨fun hbuf => ?_, fun z hz hbuf => ?_⟩
  · exact exec_toRbsp_of_strip (n := 0) hs (by rw [stripStartCode_false, hbuf])
  · exact exec_toRbsp_of_strip hs (stripStartCode_true.2 ⟨z, hz, rfl, hbuf⟩)

/-- Settles O41: nothing is stripped, or too little is left behind. -/
theorem toRbspFaults : Obligations.ToRbspFaults := by
  intro s src hs
  refine ⟨fun hmissing => ?_, fun z rest hz hbuf hshort => ?_, fun hshort => ?_⟩
  · refine exec_toRbsp_of_strip_none hs (Option.eq_none_iff_forall_not_mem.2 fun ⟨n, rest⟩ hstrip => hmissing ?_)
    obtain ⟨z, hz, _, hbuf⟩ := stripStartCode_true.1 hstrip
    exact ⟨z, rest, hz, hbuf⟩
  · exact exec_toRbsp_of_short hs (stripStartCode_true.2 ⟨z, hz, rfl, hbuf⟩) hshort
  · exact exec_toRbsp_of_short hs (stripStartCode_false _) hshort

/-- `TO_BS` writes the start code, the header and the escaped payload (R165). -/
theorem exec_toBs_of_header {s : State} {src : BufId} {h0 h1 : Byte} {payload : Buffer} (sc : ScForm)
    (hbuf : s.buf src = h0 :: h1 :: payload) :
    exec (.toBs src sc) s = runCommand s (writeBBs s (startCodeBytes sc ++ h0 :: h1 :: insertEpb 0 payload)) := by
  show execToBs src sc s = _
  rw [execToBs, hbuf]
  rfl

/-- `TO_BS` without a header (R165). -/
theorem exec_toBs_of_short {s : State} {src : BufId} (sc : ScForm) (hs : s.err = 0) (hshort : (s.buf src).length < 2) :
    exec (.toBs src sc) s = .next (takeFault .bufferUnderrun s) := by
  show execToBs src sc s = _
  simp only [execToBs, toBsBytes_error hshort, runCommand_error hs]

/-- Settles O46: with a header the command is one write of `B_BS`. -/
theorem toBsCompletesOrFaults : Obligations.ToBsCompletesOrFaults := by
  intro s src sc code hs hcode
  have hform : code = startCodeBytes sc := by
    simp only [List.mem_cons, Prod.mk.injEq, List.not_mem_nil, or_false] at hcode
    rcases hcode with ⟨rfl, rfl⟩ | ⟨rfl, rfl⟩ | ⟨rfl, rfl⟩ <;> rfl
  subst hform
  refine ⟨fun h0 h1 payload hbuf => ?_, exec_toBs_of_short sc hs⟩
  rw [exec_toBs_of_header sc hbuf]
  exact ⟨runCommand_writeBBs_of_fits hs, runCommand_writeBBs_of_not_fits hs⟩

/-- A buffer of two bytes or more has a header. -/
theorem exists_header {data : Buffer} (h : 2 ≤ data.length) : ∃ h0 h1 payload, data = h0 :: h1 :: payload := by
  match data with
  | h0 :: h1 :: payload => exact ⟨h0, h1, payload, rfl⟩

/-- The start code that `TO_BS` puts in front is the one `TO_RBSP` strips. -/
theorem stripStartCode_startCodeBytes (sc : ScForm) (data : Buffer) :
    stripStartCode (sc ≠ .noSc) (startCodeBytes sc ++ data) = some ((startCodeBytes sc).length, data) := by
  cases sc with
  | noSc => rfl
  | sc3 => exact stripStartCode_true.2 ⟨2, le_rfl, rfl, rfl⟩
  | sc4 => exact stripStartCode_true.2 ⟨3, by decide, rfl, rfl⟩

/-- Everything fits an infinite capacity (R6). -/
theorem fits_of_infinite {s : State} (h : s.params.bufCap = none) (n : Nat) : fits s n := by simp [fits, h]

/-- Settles O48: the state after `TO_BS` holds its output, and the removal scan undoes the insertion scan. -/
theorem removalUndoesInsertion : Obligations.RemovalUndoesInsertion := by
  intro s src sc hs hlength
  obtain ⟨h0, h1, payload, hbuf⟩ := exists_header hlength
  rw [exec_toBs_of_header sc hbuf]
  refine ⟨fun hcap => ⟨_, runCommand_writeBBs_of_fits hs (fits_of_infinite hcap _), rfl⟩, fun t ht hok => ?_⟩
  obtain rfl := eq_setBBs_of_completed ht hs hok
  refine ⟨_, exec_toRbsp_of_strip hs (stripStartCode_startCodeBytes sc _), rfl, ?_, ?_⟩
  · rw [hbuf]
    exact congrArg (h0 :: h1 :: ·) (removeEpb_insertEpb s.params.thirdZero (Nat.zero_le 2) payload)
  · show (sc, (startCodeBytes sc).length) ∈ _
    cases sc <;> decide

/-- Settles O49: what comes back differs from the source in the payload alone, which the two scans in a row keep exactly when
it is canonical. -/
theorem insertionUndoesRemovalIffCanonical : Obligations.InsertionUndoesRemovalIffCanonical := by
  intro s src sc h0 h1 payload hs hbuf
  have hstrip := stripStartCode_startCodeBytes sc (h0 :: h1 :: payload)
  rw [← hbuf] at hstrip
  refine ⟨_, exec_toRbsp_of_strip hs hstrip, rfl, rfl, ?_⟩
  rw [exec_toBs_of_header sc rfl]
  refine ⟨fun hcap => ⟨_, runCommand_writeBBs_of_fits hs (fits_of_infinite hcap _), rfl⟩, fun u hu hok => ?_⟩
  obtain rfl := eq_setBBs_of_completed hu hs hok
  rw [hbuf, ← insertEpb_removeEpb_iff s.params.thirdZero payload]
  simp

/-- The four bytes of a length below `2^32`, most significant first (R11, R51). -/
theorem be32_eq {len : Nat} (h : len < 2 ^ 32) : ∃ b3 b2 b1 b0 : Byte,
    be32 len = [b3, b2, b1, b0] ∧
    b3.toNat * 2 ^ 24 + b2.toNat * 2 ^ 16 + b1.toNat * 2 ^ 8 + b0.toNat = len := by
  refine ⟨_, _, _, _, rfl, ?_⟩
  simp only [BitVec.toNat_ofNat, Nat.shiftRight_eq_div_pow]
  omega

/-- `LP_WRAP` of a buffer whose length has four bytes (R168). -/
theorem exec_lpWrap_of_lt {s : State} {src : BufId} (h : (s.buf src).length < 2 ^ 32) :
    exec (.lpWrap src) s = runCommand s (writeBBs s (be32 (s.buf src).length ++ s.buf src)) := by
  show execLpWrap src s = _
  rw [execLpWrap, if_pos h]

/-- Settles O50: the bytes in front are `be32`, and the length check comes first. -/
theorem lpWrapPrependsLength : Obligations.LpWrapPrependsLength := by
  intro s src hs
  have hout : (be32 (s.buf src).length ++ s.buf src).length = (s.buf src).length + 4 := by
    rw [List.length_append, be32_length, Nat.add_comm]
  rw [← hout]
  refine ⟨fun hlt hfits => ?_, fun hlt hfits => ?_, fun hge => ?_⟩
  · obtain ⟨b3, b2, b1, b0, hbytes, hsum⟩ := be32_eq hlt
    refine ⟨b3, b2, b1, b0, hsum, ?_⟩
    rw [exec_lpWrap_of_lt hlt, runCommand_writeBBs_of_fits hs hfits, hbytes]
    rfl
  · rw [exec_lpWrap_of_lt hlt, runCommand_writeBBs_of_not_fits hs hfits]
    rfl
  · show execLpWrap src s = _
    rw [execLpWrap, if_neg (Nat.not_lt.2 hge), runCommand_error hs]
    rfl

end Sys2Proof.Machine

/-! Proofs about the demuxer: the zero count over bytes without a start code, what each phase of `NEXT_NAL` does on such
bytes, how the command ends on each form of stream, that it moves on, and the sequence law (R180 to R199). -/

namespace Sys2Proof.Machine

/-! ### Every step answers a next state -/

/-- Every command answers a next state: all but three are run by `runCommand`. -/
theorem exec_next (i : Instr) (s : State) : ∃ t, exec i s = .next t := by
  cases i with
  | reset => exact ⟨_, rfl⟩
  | rdReg r =>
    simp only [exec, execRdReg]
    split <;> exact ⟨_, rfl⟩
  | nextNal => exact execNextNal_next s
  | xbClr | bufLen | bcLoad | getByteOff | getBitOff => exact runCommand_next s (.ok _)
  | xbPush | bufRd | toRbsp | toBs | lpWrap | readBits | readUe | readSe | writeBits | writeUe | writeSe | writeTrail =>
    exact runCommand_next s _

/-- Settles O7: every step is an idle block, a command or an illegal word. -/
theorem everyStepIsSafe : Obligations.EveryStepIsSafe := by
  intro s
  unfold step
  split
  · exact ⟨_, rfl⟩
  · rename_i w t _
    split
    · rename_i i _
      exact exec_next i t
    · exact runCommand_next t _

/-! ### The zero count of both scans -/

/-- The zeros counted after a byte, `z` of them before it (R181). -/
def zerosThen (z : Nat) (b : Byte) : Nat := if b = 0x00 then z + 1 else 0

/-- The zeros counted after a run of bytes, `z` of them before it. -/
def zerosAfter (z : Nat) (front : Buffer) : Nat := front.foldl zerosThen z

@[simp] theorem zerosAfter_nil (z : Nat) : zerosAfter z [] = z := rfl

@[simp] theorem zerosAfter_cons (z : Nat) (b : Byte) (front : Buffer) :
    zerosAfter z (b :: front) = zerosAfter (zerosThen z b) front := rfl

theorem zerosAfter_zeroRun (z n : Nat) : zerosAfter z (zeroRun n) = z + n := by
  induction n generalizing z with
  | zero => rfl
  | succ n ih =>
    rw [zeroRun_succ, zerosAfter_cons, ih, zerosThen, if_pos rfl]
    omega

/-- Bytes that do not end in a zero leave no zero counted. -/
theorem zerosAfter_eq_zero {front : Buffer} (h : front.getLast? ≠ some 0x00) : zerosAfter 0 front = 0 := by
  rcases List.eq_nil_or_concat' front with rfl | ⟨init, b, rfl⟩
  · rfl
  · simpa [zerosAfter, List.foldl_append, zerosThen] using h

/-- Behind `z` zeros: when no start code is there, the next byte does not end one, and none is behind the zeros then counted. -/
theorem no_startCode_of_cons {z : Nat} {b : Byte} {rest : Buffer} (h : ¬ startCode <:+: zeroRun z ++ b :: rest) :
    ¬ (b = 0x01 ∧ 2 ≤ z) ∧ ¬ startCode <:+: zeroRun (zerosThen z b) ++ rest := by
  refine ⟨?_, ?_⟩
  · rintro ⟨rfl, hz⟩
    obtain ⟨k, rfl⟩ := Nat.exists_eq_add_of_le' hz
    refine h ⟨zeroRun k, rest, ?_⟩
    rw [← zeroRun_append_zero, ← zeroRun_append_zero, List.append_assoc]
    rfl
  · unfold zerosThen
    split
    · rename_i hb
      rwa [hb, zeroRun_append_zero] at h
    · exact fun hc => h (hc.trans ((List.suffix_cons b rest).trans (List.suffix_append (zeroRun z) _)).isInfix)

theorem no_startCode_zeroRun (n : Nat) : ¬ startCode <:+: zeroRun n := fun h =>
  absurd (List.eq_of_mem_replicate (h.subset (by simp : (0x01 : Byte) ∈ startCode))) (by decide)

theorem length_zeroRun (n : Nat) : (zeroRun n).length = n := List.length_replicate

/-- Whether bytes hold one other than `00`, which phase A reports as `RESYNC` when it discards them (R185). -/
def hasNonzero (front : Buffer) : Bool := front.any (· != 0x00)

@[simp] theorem hasNonzero_nil : hasNonzero [] = false := rfl

@[simp] theorem hasNonzero_cons (b : Byte) (front : Buffer) : hasNonzero (b :: front) = (b != 0x00 || hasNonzero front) := rfl

theorem hasNonzero_iff {front : Buffer} : hasNonzero front = true ↔ ∃ b ∈ front, b ≠ 0x00 := by simp [hasNonzero]

theorem hasNonzero_zeroRun (n : Nat) : hasNonzero (zeroRun n) = false := by
  rw [← Bool.not_eq_true, hasNonzero_iff]
  rintro ⟨b, hb, hne⟩
  exact hne (List.eq_of_mem_replicate hb)

/-- Bytes that do not end in a zero hold a byte other than `00` unless there are none. -/
theorem hasNonzero_of_getLast? {front : Buffer} (h : front.getLast? ≠ some 0x00) :
    hasNonzero front = decide (front ≠ []) := by
  rcases List.eq_nil_or_concat' front with rfl | ⟨init, b, rfl⟩
  · rfl
  · rw [hasNonzero_iff.2 ⟨b, by simp, by simpa using h⟩]
    simp

/-! ### The unread bytes -/

theorem scanBound_eq (p : Config.Params) (pos : Nat) : scanBound p pos = (p.srcBytes.drop pos).length + 1 := by
  rw [scanBound, List.length_drop]

/-- The first unread byte, by its position in the stream. -/
theorem getElem?_of_drop {p : Config.Params} {pos : Nat} {b : Byte} {rest : Buffer}
    (hdrop : p.srcBytes.drop pos = b :: rest) : p.srcBytes[pos]? = some b := by
  rw [← Nat.add_zero pos, ← List.getElem?_drop, hdrop, List.getElem?_cons_zero]

/-- What is unread behind the bytes read. -/
theorem drop_of_append {p : Config.Params} {pos : Nat} {front rest : Buffer}
    (hdrop : p.srcBytes.drop pos = front ++ rest) : p.srcBytes.drop (pos + front.length) = rest := by
  rw [← List.drop_drop, hdrop, List.drop_left]

theorem drop_of_cons {p : Config.Params} {pos : Nat} {b : Byte} {rest : Buffer}
    (hdrop : p.srcBytes.drop pos = b :: rest) : p.srcBytes.drop (pos + 1) = rest :=
  drop_of_append (front := [b]) hdrop

/-- A byte read is one turn of the bound. -/
theorem scanBound_of_cons {p : Config.Params} {pos : Nat} {b : Byte} {rest : Buffer}
    (hdrop : p.srcBytes.drop pos = b :: rest) : scanBound p pos = scanBound p (pos + 1) + 1 := by
  rw [scanBound_eq, scanBound_eq, hdrop, drop_of_cons hdrop, List.length_cons]

/-- With nothing unread the bound is one turn. -/
theorem scanBound_of_nil {p : Config.Params} {pos : Nat} (hdrop : p.srcBytes.drop pos = []) : scanBound p pos = 0 + 1 := by
  rw [scanBound_eq, hdrop, List.length_nil]

/-- Behind a start code stands the NAL unit. -/
theorem drop_behind_startCode {p : Config.Params} {pos : Nat} {front body : Buffer} {m : Nat}
    (hdrop : p.srcBytes.drop pos = front ++ (zeroRun m ++ 0x01 :: body)) :
    p.srcBytes.drop (pos + front.length + (m + 1)) = body := by
  have hone := drop_of_append (drop_of_append hdrop)
  rw [length_zeroRun] at hone
  exact drop_of_cons hone

theorem srcEof_of_drop (p : Config.Params) (pos : Nat) : srcEof p pos = (p.srcBytes.drop pos).isEmpty := by
  rw [Bool.eq_iff_iff, srcEof_iff, List.isEmpty_iff, List.drop_eq_nil_iff]

/-! ### Phase A over bytes without a start code -/

section PhaseA
variable {p : Config.Params} {pos z : Nat} {r : Bool}

/-- A byte that ends no start code is counted and discarded (R184, R185). -/
theorem findStartCode_discard {b : Byte} {rest : Buffer} (hdrop : p.srcBytes.drop pos = b :: rest)
    (hb : ¬ (b = 0x01 ∧ 2 ≤ z)) :
    findStartCode p (scanBound p pos) pos z r =
      findStartCode p (scanBound p (pos + 1)) (pos + 1) (zerosThen z b) (r || b != 0x00) := by
  rw [scanBound_of_cons hdrop, findStartCode_byte (getElem?_of_drop hdrop), zerosThen]
  by_cases hzero : b = 0x00
  · simp [hzero]
  · rw [if_neg hzero, if_neg hb, if_neg hzero, bne_iff_ne.2 hzero, Bool.or_true]

/-- Phase A reads over bytes without a start code. -/
theorem findStartCode_over {front rest : Buffer} (hdrop : p.srcBytes.drop pos = front ++ rest)
    (hfront : ¬ startCode <:+: zeroRun z ++ front) :
    findStartCode p (scanBound p pos) pos z r =
      findStartCode p (scanBound p (pos + front.length)) (pos + front.length) (zerosAfter z front)
        (r || hasNonzero front) := by
  induction front generalizing pos z r with
  | nil => simp
  | cons b front ih =>
    obtain ⟨hb, htail⟩ := no_startCode_of_cons hfront
    rw [findStartCode_discard hdrop hb, ih (drop_of_cons hdrop) htail, zerosAfter_cons, hasNonzero_cons,
      List.length_cons, Bool.or_assoc, Nat.add_assoc, Nat.add_comm 1]

/-- Phase A when no start code is left (R192). -/
theorem findStartCode_eq_ended (hclean : ¬ startCode <:+: p.srcBytes.drop pos) :
    findStartCode p (scanBound p pos) pos 0 r =
      .ended (pos + (p.srcBytes.drop pos).length) (r || hasNonzero (p.srcBytes.drop pos)) := by
  have hdrop : p.srcBytes.drop pos = p.srcBytes.drop pos ++ [] := (List.append_nil _).symm
  have hend := drop_of_append hdrop
  rw [findStartCode_over (z := 0) hdrop hclean, scanBound_of_nil hend, findStartCode_at_end (List.drop_eq_nil_iff.1 hend)]

/-- Phase A consumes the start code behind `junk` (R184, R185). -/
theorem findStartCode_eq_found {junk rest : Buffer} {m : Nat} (hm : 2 ≤ m)
    (hdrop : p.srcBytes.drop pos = junk ++ (zeroRun m ++ 0x01 :: rest)) (hjunk : cleanRun junk) :
    findStartCode p (scanBound p pos) pos 0 r =
      .found (pos + junk.length + (m + 1)) (m + 1) (r || decide (junk ≠ [])) := by
  obtain ⟨hclean, hlast⟩ := hjunk
  have hzeros := drop_of_append hdrop
  have hone := drop_of_append hzeros
  rw [findStartCode_over (z := 0) hdrop hclean, zerosAfter_eq_zero hlast, hasNonzero_of_getLast? hlast,
    findStartCode_over (z := 0) hzeros (no_startCode_zeroRun m), zerosAfter_zeroRun, hasNonzero_zeroRun, scanBound_of_cons hone,
    findStartCode_byte (getElem?_of_drop hone), if_neg (by decide), if_pos ⟨rfl, by omega⟩, length_zeroRun,
    Nat.zero_add, Bool.or_false, Nat.add_assoc (pos + junk.length)]

end PhaseA

/-! ### Phase B over bytes without a start code -/

section PhaseB
variable {p : Config.Params} {pos : Nat}

/-- A byte that ends no start code and fits is accumulated (R186). -/
theorem accumulate_take {nal : Buffer} {zeros : Nat} {b : Byte} {rest : Buffer}
    (hdrop : p.srcBytes.drop pos = b :: rest) (hb : ¬ (b = 0x01 ∧ 2 ≤ zeros))
    (hfits : withinLimit p.bufCap (nal.length + 1) = true) :
    accumulate p (scanBound p pos) pos nal zeros =
      accumulate p (scanBound p (pos + 1)) (pos + 1) (nal ++ [b]) (zerosThen zeros b) := by
  rw [scanBound_of_cons hdrop, accumulate_byte (getElem?_of_drop hdrop), if_neg hb, if_pos hfits, zerosThen]

/-- Phase B accumulates bytes without a start code, as far as they fit. -/
theorem accumulate_over {nal : Buffer} {zeros : Nat} {front rest : Buffer} (hdrop : p.srcBytes.drop pos = front ++ rest)
    (hfront : ¬ startCode <:+: zeroRun zeros ++ front)
    (hfits : withinLimit p.bufCap (nal.length + front.length) = true) :
    accumulate p (scanBound p pos) pos nal zeros =
      accumulate p (scanBound p (pos + front.length)) (pos + front.length) (nal ++ front) (zerosAfter zeros front) := by
  induction front generalizing pos nal zeros with
  | nil => simp
  | cons b front ih =>
    obtain ⟨hb, htail⟩ := no_startCode_of_cons hfront
    rw [List.length_cons] at hfits
    have hrest : withinLimit p.bufCap ((nal ++ [b]).length + front.length) = true := by
      rwa [List.length_append, List.length_singleton, Nat.add_assoc, Nat.add_comm 1]
    rw [accumulate_take hdrop hb (withinLimit_mono (by omega) hfits),
      ih (drop_of_cons hdrop) htail hrest, zerosAfter_cons, List.length_cons, List.append_assoc,
      List.singleton_append, Nat.add_assoc, Nat.add_comm 1]

/-- Phase B at the end of the source (R191). -/
theorem accumulate_eq_ended {nal : Buffer} (hdrop : p.srcBytes.drop pos = nal) (hnal : ¬ startCode <:+: nal)
    (hfits : withinLimit p.bufCap nal.length = true) :
    accumulate p (scanBound p pos) pos [] 0 = .ended (pos + nal.length) nal := by
  have hdrop' : p.srcBytes.drop pos = nal ++ [] := by rw [hdrop, List.append_nil]
  have hend := drop_of_append hdrop'
  rw [accumulate_over (zeros := 0) hdrop' hnal (by rwa [List.length_nil, Nat.zero_add]), scanBound_of_nil hend,
    accumulate_at_end (List.drop_eq_nil_iff.1 hend), List.nil_append]

/-- Phase B up to the `01` of the next start code: the zeros in front of it are accumulated and counted (R186). -/
theorem accumulate_to_startCode {nal rest : Buffer} {z : Nat}
    (hdrop : p.srcBytes.drop pos = nal ++ (zeroRun z ++ 0x01 :: rest)) (hnal : cleanRun nal)
    (hfits : withinLimit p.bufCap (nal.length + z) = true) :
    accumulate p (scanBound p pos) pos [] 0 =
      accumulate p (scanBound p (pos + nal.length + z)) (pos + nal.length + z) (nal ++ zeroRun z) z := by
  obtain ⟨hclean, hlast⟩ := hnal
  have hzeros := drop_of_append hdrop
  rw [accumulate_over (zeros := 0) hdrop hclean (withinLimit_mono (by simp) hfits), zerosAfter_eq_zero hlast,
    List.nil_append, accumulate_over (zeros := 0) hzeros (no_startCode_zeroRun z) (by rwa [length_zeroRun]),
    zerosAfter_zeroRun, Nat.zero_add, length_zeroRun]

theorem take_trim_zeroRun (nal : Buffer) (z : Nat) :
    (nal ++ zeroRun z).take ((nal ++ zeroRun z).length - z) = nal := by
  rw [List.length_append, length_zeroRun, Nat.add_sub_cancel, List.take_left]

/-- The next start code is within the window: trimmed and rewound over (R187, R188). -/
theorem accumulate_eq_startCode {nal rest : Buffer} {z : Nat} (hz : 2 ≤ z)
    (hdrop : p.srcBytes.drop pos = nal ++ (zeroRun z ++ 0x01 :: rest)) (hnal : cleanRun nal)
    (hwindow : ∀ w ∈ p.rewindWindow, z + 1 ≤ w) (hfits : withinLimit p.bufCap (nal.length + z) = true) :
    accumulate p (scanBound p pos) pos [] 0 = .startCode (pos + nal.length) nal := by
  have hone := drop_of_append (drop_of_append hdrop)
  rw [length_zeroRun] at hone
  rw [accumulate_to_startCode hdrop hnal hfits, scanBound_of_cons hone, accumulate_byte (getElem?_of_drop hone),
    if_pos ⟨rfl, hz⟩, take_trim_zeroRun, Nat.add_assoc _ z, srcRewind_of_le hwindow (Nat.le_add_left _ _)]
  simp only [Nat.add_sub_cancel]

/-- The next start code is longer than the window (R188). -/
theorem accumulate_eq_underflow {nal rest : Buffer} {z : Nat} (hz : 2 ≤ z)
    (hdrop : p.srcBytes.drop pos = nal ++ (zeroRun z ++ 0x01 :: rest)) (hnal : cleanRun nal)
    (hwindow : ¬ ∀ w ∈ p.rewindWindow, z + 1 ≤ w) (hfits : withinLimit p.bufCap (nal.length + z) = true) :
    accumulate p (scanBound p pos) pos [] 0 = .faulted (pos + nal.length + (z + 1)) .rewindUnderflow := by
  have hone := drop_of_append (drop_of_append hdrop)
  rw [length_zeroRun] at hone
  rw [accumulate_to_startCode hdrop hnal hfits, scanBound_of_cons hone, accumulate_byte (getElem?_of_drop hone),
    if_pos ⟨rfl, hz⟩, Nat.add_assoc _ z, srcRewind_of_not_le fun h => hwindow h.1]

end PhaseB

/-! ### Rounds of the scan -/

/-- The same end of phase A with `RESYNC` reported. -/
def PhaseA.withResync : PhaseA → PhaseA
  | .ended pos _ => .ended pos true
  | .found pos scLen _ => .found pos scLen true
  | .stuck => .stuck

/-- The same end of the scan with `RESYNC` reported, which a fault does not do (R233). -/
def NalScan.withResync : NalScan → NalScan
  | .delivered pos nal scLen _ termSc => .delivered pos nal scLen true termSc
  | .nothing pos _ => .nothing pos true
  | .faulted pos kind => .faulted pos kind
  | .stuck => .stuck

/-- What phase A reports as `RESYNC` steers nothing else of it. -/
theorem findStartCode_resync (p : Config.Params) (bound pos z : Nat) (r : Bool) :
    findStartCode p bound pos z true = (findStartCode p bound pos z r).withResync := by
  induction bound generalizing pos z r with
  | zero => rfl
  | succ bound ih =>
    rcases Nat.lt_or_ge pos p.srcBytes.length with hlt | hge
    · rw [findStartCode_byte (List.getElem?_eq_getElem hlt), findStartCode_byte (List.getElem?_eq_getElem hlt)]
      split
      · exact ih _ _ r
      · split
        · rfl
        · exact ih _ _ true
    · rw [findStartCode_at_end hge, findStartCode_at_end hge]
      rfl

/-- What the scan reports as `RESYNC` steers nothing else of it. -/
theorem nalRounds_resync (p : Config.Params) (bound pos : Nat) (r : Bool) :
    nalRounds p bound pos true = (nalRounds p bound pos r).withResync := by
  induction bound generalizing pos r with
  | zero => rfl
  | succ bound ih =>
    rw [nalRounds, nalRounds, findStartCode_resync p _ pos 0 r]
    cases findStartCode p (scanBound p pos) pos 0 r with
    | ended | stuck => rfl
    | found q scLen r' =>
      simp only [PhaseA.withResync]
      cases accumulate p (scanBound p q) q [] 0 with
      | ended | faulted | stuck => rfl
      | startCode back nal =>
        simp only
        split
        · exact ih back true
        · rfl

/-- A round that finds a NAL unit ends behind its start code (R195). -/
theorem findStartCode_found_bounds {p : Config.Params} {pos q scLen : Nat} {r r' : Bool}
    (h : findStartCode p (scanBound p pos) pos 0 r = .found q scLen r') : pos < q ∧ q ≤ p.srcBytes.length := by
  rcases findStartCode_spec (p := p) (bound := scanBound p pos) (pos := pos) (z := 0) (r := r)
      (by simp only [scanBound]; omega) with ⟨_, _, he, _⟩ | ⟨_, _, _, he, _, hlt, hle, _⟩
  · cases he.symm.trans h
  · cases he.symm.trans h
    exact ⟨hlt, hle⟩

/-- A round that meets the next start code goes back no further than to the NAL unit (R187, R188). -/
theorem accumulate_startCode_bounds {p : Config.Params} {pos back : Nat} {nal : Buffer}
    (h : accumulate p (scanBound p pos) pos [] 0 = .startCode back nal) : back = pos + nal.length := by
  rcases accumulate_spec (p := p) (bound := scanBound p pos) (pos := pos) (zeros := 0) (nal := [])
      (by simp only [scanBound]; omega) le_rfl (Nat.zero_le _) (withinLimit_zero _) with
    ⟨_, _, he, _⟩ | ⟨_, _, he, hback, _⟩ | ⟨_, _, he, _⟩
  · cases he.symm.trans h
  · cases he.symm.trans h
    exact hback
  · cases he.symm.trans h

/-- Every bound with one round for each unread byte gives the same scan (R195). -/
theorem nalRounds_bound_irrelevant {p : Config.Params} {bound bound' pos : Nat} (r : Bool)
    (hb : p.srcBytes.length - pos < bound) (hb' : p.srcBytes.length - pos < bound') :
    nalRounds p bound pos r = nalRounds p bound' pos r := by
  induction bound generalizing bound' pos r with
  | zero => omega
  | succ bound ih =>
    obtain ⟨bound', rfl⟩ := Nat.exists_eq_add_one_of_ne_zero (Nat.ne_zero_of_lt hb')
    rw [nalRounds, nalRounds]
    cases hA : findStartCode p (scanBound p pos) pos 0 r with
    | ended | stuck => rfl
    | found q scLen r' =>
      cases hB : accumulate p (scanBound p q) q [] 0 with
      | ended | faulted | stuck => simp only [hB]
      | startCode back nal =>
        have hq := findStartCode_found_bounds hA
        have hback := accumulate_startCode_bounds hB
        simp only [hB, ih (bound' := bound') (pos := back) true (by omega) (by omega)]

section Rounds
variable {p : Config.Params} {pos q scLen : Nat} {r : Bool}

theorem scanNal_of_ended (hA : findStartCode p (scanBound p pos) pos 0 false = .ended q r) :
    scanNal p pos = .nothing q r := by
  rw [scanNal, scanBound, nalRounds, hA]

theorem scanNal_of_final {posB : Nat} {nal : Buffer}
    (hA : findStartCode p (scanBound p pos) pos 0 false = .found q scLen r)
    (hB : accumulate p (scanBound p q) q [] 0 = .ended posB nal) :
    scanNal p pos = .delivered posB nal scLen r false := by
  rw [scanNal, scanBound, nalRounds, hA]
  simp only [hB]

theorem scanNal_of_faulted {posB : Nat} {k : FaultKind}
    (hA : findStartCode p (scanBound p pos) pos 0 false = .found q scLen r)
    (hB : accumulate p (scanBound p q) q [] 0 = .faulted posB k) : scanNal p pos = .faulted posB k := by
  rw [scanNal, scanBound, nalRounds, hA]
  simp only [hB]

theorem scanNal_of_terminated {back : Nat} {nal : Buffer}
    (hA : findStartCode p (scanBound p pos) pos 0 false = .found q scLen r)
    (hB : accumulate p (scanBound p q) q [] 0 = .startCode back nal) (hne : nal ≠ []) :
    scanNal p pos = .delivered back nal scLen r true := by
  rw [scanNal, scanBound, nalRounds, hA]
  simp only [hB, if_neg hne]

/-- R190: behind an empty NAL unit the scan is the one from there, with `RESYNC` reported. -/
theorem scanNal_of_empty {back : Nat} (hA : findStartCode p (scanBound p pos) pos 0 false = .found q scLen r)
    (hB : accumulate p (scanBound p q) q [] 0 = .startCode back []) : scanNal p pos = (scanNal p back).withResync := by
  have hq := findStartCode_found_bounds hA
  have hback : back = q := accumulate_startCode_bounds hB
  have hbound : p.srcBytes.length - back < scanBound p back := Nat.lt_succ_self _
  rw [scanNal, scanBound, nalRounds, hA]
  simp only [hB, if_pos]
  rw [nalRounds_resync p _ back false, nalRounds_bound_irrelevant false (by omega) hbound, scanNal]

end Rounds

/-! ### How the command ends -/

section Command
variable {s : State} {pos : Nat}

theorem exec_nextNal_of_nothing {r : Bool} (hs : s.err = 0) (hscan : scanNal s.params s.srcPos = .nothing pos r) :
    exec .nextNal s = .next ((s.moveSource pos).deliver [] 0 true r false) := by
  show execNextNal s = _
  simp [execNextNal, hs, hscan]

theorem exec_nextNal_of_delivered {nal : Buffer} {scLen : Nat} {r termSc : Bool} (hs : s.err = 0)
    (hscan : scanNal s.params s.srcPos = .delivered pos nal scLen r termSc) :
    exec .nextNal s = .next ((s.moveSource pos).deliver nal scLen (srcEof s.params pos) r termSc) := by
  show execNextNal s = _
  simp [execNextNal, hs, hscan]

theorem exec_nextNal_of_faulted {k : FaultKind} (hs : s.err = 0) (hscan : scanNal s.params s.srcPos = .faulted pos k) :
    exec .nextNal s = .next (takeFault k (s.moveSource pos)) := by
  show execNextNal s = _
  simp [execNextNal, hs, hscan]

/-- The ends of a scan, each with where it leaves the Byte Source: `nalRounds_spec` for the scan of one command. -/
theorem scanNal_cases (p : Config.Params) (pos : Nat) :
    (∃ q r, scanNal p pos = .nothing q r ∧ p.srcBytes.length ≤ q ∧ pos ≤ q) ∨
    (∃ q nal scLen r termSc, scanNal p pos = .delivered q nal scLen r termSc ∧ pos < q) ∨
    ∃ q k, scanNal p pos = .faulted q k := by
  rcases nalRounds_spec (p := p) (bound := scanBound p pos) (pos := pos) (r := false) (Nat.lt_succ_self _) with
    ⟨q, r, hscan, hend, hle, _⟩ | ⟨q, nal, scLen, r, termSc, hscan, _, hlt, _⟩ | ⟨q, k, hscan, _⟩
  · exact .inl ⟨q, r, hscan, hend, hle⟩
  · exact .inr (.inl ⟨q, nal, scLen, r, termSc, hscan, hlt⟩)
  · exact .inr (.inr ⟨q, k, hscan⟩)

/-- The update of a `NEXT_NAL` field by field, the type and the flags in numbers (R189, R194). -/
theorem moveSource_deliver_eq {nal : Buffer} {scLen type : Nat} {e r t : Bool} {flags : BitVec 3}
    (htype : (nalTypeOf nal).toNat = type) (hflags : packDmFlags e r t = flags) :
    (s.moveSource pos).deliver nal scLen e r t =
      { s with bNal := nal, dmNalType := BitVec.ofNat 7 type, dmScLen := scLen, dmFlags := flags, res := type,
               srcPos := pos, completion := some (.ok type) } := by
  subst htype hflags
  rw [BitVec.ofNat_toNat, BitVec.setWidth_eq]
  rfl

end Command

/-! ### One command on each form of stream -/

section Streams
variable {s : State} {junk nal rest : Buffer} {m z : Nat}

/-- A NAL unit that the next start code ends: trimmed, and the Byte Source back at that start code. -/
theorem exec_nextNal_terminated (hs : s.err = 0) (hm : 2 ≤ m) (hz : 2 ≤ z)
    (hunread : s.unread = junk ++ (zeroRun m ++ 0x01 :: (nal ++ (zeroRun z ++ 0x01 :: rest)))) (hjunk : cleanRun junk)
    (hnal : cleanRun nal) (hne : nal ≠ []) (hwindow : windowAllows s (z + 1)) (hfits : fits s (nal.length + z)) :
    exec .nextNal s = .next ((s.moveSource (s.srcPos + junk.length + (m + 1) + nal.length)).deliver nal (m + 1) false
      (decide (junk ≠ [])) true) := by
  have hA := findStartCode_eq_found (r := false) hm hunread hjunk
  have hbody := drop_behind_startCode hunread
  have hB := accumulate_eq_startCode hz hbody hnal hwindow (withinLimit_iff.2 hfits)
  have hmore : srcEof s.params (s.srcPos + junk.length + (m + 1) + nal.length) = false := by
    rw [srcEof_of_drop, drop_of_append hbody]
    simp
  rw [exec_nextNal_of_delivered hs (scanNal_of_terminated hA hB hne), hmore, Bool.false_or]

/-- The last NAL unit: untrimmed, and the Byte Source at its end. -/
theorem exec_nextNal_final (hs : s.err = 0) (hm : 2 ≤ m) (hunread : s.unread = junk ++ (zeroRun m ++ 0x01 :: nal))
    (hjunk : cleanRun junk) (hnal : ¬ startCode <:+: nal) (hfits : fits s nal.length) :
    exec .nextNal s = .next ((s.moveSource (s.srcPos + junk.length + (m + 1) + nal.length)).deliver nal (m + 1) true
      (decide (junk ≠ [])) false) := by
  have hA := findStartCode_eq_found (r := false) hm hunread hjunk
  have hbody := drop_behind_startCode hunread
  have hB := accumulate_eq_ended hbody hnal (withinLimit_iff.2 hfits)
  have hend : srcEof s.params (s.srcPos + junk.length + (m + 1) + nal.length) = true := by
    rw [srcEof_of_drop, drop_of_append (hbody.trans (List.append_nil nal).symm), List.isEmpty_nil]
  rw [exec_nextNal_of_delivered hs (scanNal_of_final hA hB), hend, Bool.false_or]

/-- No start code is left. -/
theorem exec_nextNal_nothing (hs : s.err = 0) (hclean : ¬ startCode <:+: s.unread) :
    exec .nextNal s = .next ((s.moveSource (s.srcPos + s.unread.length)).deliver [] 0 true (hasNonzero s.unread) false) := by
  rw [exec_nextNal_of_nothing hs (scanNal_of_ended (findStartCode_eq_ended hclean)), Bool.false_or]
  rfl

/-- The stream ends behind the last unread byte. -/
theorem srcPos_add_unread_length (hle : s.srcPos ≤ s.params.srcBytes.length) :
    s.srcPos + s.unread.length = s.params.srcBytes.length := by
  rw [State.unread, List.length_drop]
  omega

theorem srcPos_le_of_unread_ne_nil (hne : s.unread ≠ []) : s.srcPos ≤ s.params.srcBytes.length :=
  (Nat.lt_of_not_le fun h => hne (List.drop_eq_nil_iff.2 h)).le

end Streams

/-- `DM_FLAGS` by whether anything was discarded in front of the start code (R185). -/
theorem packDmFlags_of_junk (e : Bool) (junk : Buffer) (t : Bool) :
    packDmFlags e (decide (junk ≠ [])) t = if junk = [] then packDmFlags e false t else packDmFlags e true t := by
  split <;> simp [*]

/-- Settles O52: the scan of a terminated NAL unit, and its type and flags in numbers. -/
theorem nextNalTerminatedUnit : Obligations.NextNalTerminatedUnit := by
  intro s junk nal rest h0 m z hs hm hz hunread hjunk hnal hhead hwindow hfits
  obtain ⟨payload, rfl⟩ := List.head?_eq_some_iff.1 hhead
  have hbytes : s.unread = junk ++ (zeroRun m ++ 0x01 :: (h0 :: payload ++ (zeroRun z ++ 0x01 :: rest))) := by
    rw [hunread]; simp
  rw [exec_nextNal_terminated hs hm hz hbytes hjunk hnal (List.cons_ne_nil _ _) hwindow hfits,
    moveSource_deliver_eq (nalTypeOf_cons_toNat h0 payload) (packDmFlags_of_junk false junk true)]
  rfl

/-- Settles O53: the scan of the last NAL unit, empty or not, and its type and flags in numbers. -/
theorem nextNalFinalUnit : Obligations.NextNalFinalUnit := by
  intro s junk nal m type hs hm hunread hjunk hnal hfits hhead hempty
  have htype : (nalTypeOf nal).toNat = type := by
    cases nal with
    | nil => rw [hempty rfl]; rfl
    | cons h0 payload => rw [hhead h0 rfl, nalTypeOf_cons_toNat]
  have hbytes : s.unread = junk ++ (zeroRun m ++ 0x01 :: nal) := by rw [hunread]; simp
  have hend : s.srcPos + junk.length + (m + 1) + nal.length = s.params.srcBytes.length := by
    rw [← srcPos_add_unread_length (srcPos_le_of_unread_ne_nil (by simp [hbytes])), hbytes]
    simp only [List.length_append, List.length_cons, length_zeroRun]
    omega
  rw [exec_nextNal_final hs hm hbytes hjunk hnal hfits,
    moveSource_deliver_eq htype (packDmFlags_of_junk true junk false), hend]
  rfl

/-- Settles O54: phase A reads to the end of the source. -/
theorem nextNalNothingLeft : Obligations.NextNalNothingLeft := by
  intro s hs hle hclean
  have hflags : packDmFlags true (hasNonzero s.unread) false = if ∃ b ∈ s.unread, b ≠ 0x00 then 3 else 1 := by
    split
    · rename_i h
      rw [hasNonzero_iff.2 h]
      rfl
    · rename_i h
      rw [Bool.eq_false_iff.2 (mt hasNonzero_iff.1 h)]
      rfl
  rw [exec_nextNal_nothing hs hclean, moveSource_deliver_eq rfl hflags, srcPos_add_unread_length hle]
  rfl

/-- The update of a `NEXT_NAL` with `RESYNC` reported. -/
theorem deliver_or_resync (s : State) (nal : Buffer) (scLen : Nat) (e r t : Bool) :
    { s.deliver nal scLen e r t with dmFlags := (s.deliver nal scLen e r t).dmFlags ||| 2 } =
      s.deliver nal scLen e true t := by
  have hflags : packDmFlags e r t ||| 2 = packDmFlags e true t := by
    revert e r t
    decide
  rw [deliver_dmFlags, hflags]
  rfl

/-- Settles O55: the scan is the one from the second start code with `RESYNC` reported, and each of its ends shows that. -/
theorem nextNalSkipsEmptyUnit : Obligations.NextNalSkipsEmptyUnit := by
  intro s m z rest hs hm hz hunread hwindow hfits
  have hbytes : s.unread = [] ++ (zeroRun m ++ 0x01 :: ([] ++ (zeroRun z ++ 0x01 :: rest))) := by rw [hunread]; simp
  have hroom : withinLimit s.params.bufCap (([] : Buffer).length + z) = true := by
    rw [List.length_nil, Nat.zero_add]
    exact withinLimit_iff.2 hfits
  have hA := findStartCode_eq_found (r := false) hm hbytes (by decide)
  have hB := accumulate_eq_startCode hz (drop_behind_startCode hbytes) (by decide) hwindow hroom
  have hskip : scanNal s.params s.srcPos = (scanNal s.params (s.srcPos + (m + 1))).withResync := scanNal_of_empty hA hB
  rcases scanNal_cases s.params (s.srcPos + (m + 1)) with ⟨q, r, hscan, _⟩ | ⟨q, nal, scLen, r, termSc, hscan, _⟩ |
    ⟨q, k, hscan⟩ <;> rw [hscan] at hskip
  · refine ⟨_, exec_nextNal_of_nothing (s := s.moveSource _) hs hscan, (exec_nextNal_of_nothing hs hskip).trans ?_⟩
    exact congrArg _ ((deliver_or_resync (s.moveSource q) [] 0 true r false).symm.trans (if_pos hs).symm)
  · refine ⟨_, exec_nextNal_of_delivered (s := s.moveSource _) hs hscan, (exec_nextNal_of_delivered hs hskip).trans ?_⟩
    exact congrArg _ ((deliver_or_resync (s.moveSource q) nal scLen _ r termSc).symm.trans (if_pos hs).symm)
  · refine ⟨_, exec_nextNal_of_faulted (s := s.moveSource _) hs hscan, (exec_nextNal_of_faulted hs hskip).trans ?_⟩
    exact congrArg _ (if_neg (FaultKind_code_range k).1).symm

/-- Settles O56: phase B reads over the next start code and cannot go back. -/
theorem nextNalRewindUnderflow : Obligations.NextNalRewindUnderflow := by
  intro s junk nal rest m z hs hm hz hunread hjunk hnal hwindow hfits
  have hbytes : s.unread = junk ++ (zeroRun m ++ 0x01 :: (nal ++ (zeroRun z ++ 0x01 :: rest))) := by rw [hunread]; simp
  have hA := findStartCode_eq_found (r := false) hm hbytes hjunk
  have hB := accumulate_eq_underflow hz (drop_behind_startCode hbytes) hnal hwindow (withinLimit_iff.2 hfits)
  rw [exec_nextNal_of_faulted hs (scanNal_of_faulted hA hB)]
  rfl

/-! ### Repeated commands -/

section Flags
variable (s : State) (nal : Buffer) (scLen : Nat) (e r t : Bool)

@[simp] theorem deliver_eos : (s.deliver nal scLen e r t).eos = e := packDmFlags_eos e r t
@[simp] theorem deliver_resync : (s.deliver nal scLen e r t).resync = r := packDmFlags_resync e r t
@[simp] theorem deliver_termSc : (s.deliver nal scLen e r t).termSc = t := packDmFlags_termSc e r t

end Flags

/-- What a `NEXT_NAL` that raises no fault keeps and how far it moves the Byte Source (R195). -/
structure MovesOn (s t : State) : Prop where
  err : t.err = 0
  params : t.params = s.params
  notBack : s.srcPos ≤ t.srcPos
  onward : s.srcPos < s.params.srcBytes.length → s.srcPos < t.srcPos
  eosAtEnd : t.eos = false → t.srcPos < s.params.srcBytes.length

/-- Every `NEXT_NAL` completes, with a fault or moving on. -/
theorem exec_nextNal_movesOn {s : State} (hs : s.err = 0) :
    ∃ t, exec .nextNal s = .next t ∧ (t.err ≠ 0 ∨ MovesOn s t) := by
  rcases scanNal_cases s.params s.srcPos with ⟨q, r, hscan, hend, hle⟩ | ⟨q, nal, scLen, r, termSc, hscan, hlt⟩ |
    ⟨q, k, hscan⟩
  · refine ⟨_, exec_nextNal_of_nothing hs hscan, .inr ⟨hs, rfl, hle, fun h => h.trans_le hend, fun heos => ?_⟩⟩
    simp at heos
  · refine ⟨_, exec_nextNal_of_delivered hs hscan, .inr ⟨hs, rfl, hlt.le, fun _ => hlt, fun heos => ?_⟩⟩
    simpa [srcEof] using heos
  · exact ⟨_, exec_nextNal_of_faulted hs hscan, .inl (FaultKind_code_range k).1⟩

/-- Repeating `NEXT_NAL` reaches the end of the source or a fault, after at most one command for each unread byte. -/
theorem issue_nextNal_reaches_end {n : Nat} {s : State} (hs : s.err = 0) (hn : 1 ≤ n)
    (hunread : s.params.srcBytes.length - s.srcPos ≤ n) :
    ∃ k, 1 ≤ k ∧ k ≤ n ∧ ∃ t, issue (List.replicate k .nextNal) s = .next t ∧ (t.eos = true ∨ t.err ≠ 0) := by
  induction n generalizing s with
  | zero => omega
  | succ n ih =>
    obtain ⟨t, hexec, hfault | ⟨herr, hparams, hback, honward, hend⟩⟩ := exec_nextNal_movesOn hs
    · exact ⟨1, le_rfl, hn, t, issue_cons_of_next [] hexec, .inr hfault⟩
    · cases heos : t.eos with
      | true => exact ⟨1, le_rfl, hn, t, issue_cons_of_next [] hexec, .inl heos⟩
      | false =>
        have hmore := hend heos
        have hmoved := honward (hback.trans_lt hmore)
        obtain ⟨k, hk, hkn, u, hissue, hu⟩ := ih (s := t) herr (by omega) (by rw [hparams]; omega)
        refine ⟨k + 1, by omega, by omega, u, ?_, hu⟩
        rw [List.replicate_succ, issue_cons_of_next _ hexec, hissue]

/-- Settles O58: one command moves on, and the unread bytes bound how often it can. -/
theorem nextNalProgress : Obligations.NextNalProgress := by
  intro s hs
  refine ⟨?_, issue_nextNal_reaches_end hs (le_max_left _ _) ((Nat.sub_le _ _).trans (le_max_right _ _))⟩
  obtain ⟨t, hexec, hfault | hmoves⟩ := exec_nextNal_movesOn hs
  · exact ⟨t, hexec, fun _ hok => absurd hok hfault⟩
  · exact ⟨t, hexec, fun hlt _ => hmoves.onward hlt⟩

/-! ### The sequence law -/

theorem streamOf_append (front rest : List StreamUnit) : streamOf (front ++ rest) = streamOf front ++ streamOf rest := by
  induction front with
  | nil => rfl
  | cons u front ih => simp only [List.cons_append, streamOf, ih, List.append_assoc]

theorem streamOf_cons (u : StreamUnit) (rest : List StreamUnit) :
    streamOf (u :: rest) = zeroRun u.zeros ++ 0x01 :: (u.nal ++ streamOf rest) := by
  simp [streamOf]

theorem length_streamOf_take_succ {units : List StreamUnit} {i : Nat} (hi : i < units.length) :
    (streamOf (units.take (i + 1))).length =
      (streamOf (units.take i)).length + (units[i].zeros + 1) + units[i].nal.length := by
  rw [List.take_succ_eq_append_getElem hi, streamOf_append, streamOf_cons]
  simp only [streamOf, List.length_append, List.length_cons, List.length_nil, length_zeroRun]
  omega

/-- The premises of R197: the stream is one of NAL units behind start codes that the window and the capacity allow. -/
structure NalStream (s : State) (units : List StreamUnit) : Prop where
  bytes : s.params.srcBytes = streamOf units
  wellFormed : ∀ u ∈ units, 2 ≤ u.zeros ∧ u.nal ≠ [] ∧ ¬ startCode <:+: u.nal
  inner : ∀ u ∈ units.dropLast, u.nal.getLast? ≠ some 0x00
  window : ∀ u ∈ units.tail, windowAllows s (u.zeros + 1)
  room : ∀ i (h : i < units.length), fits s (units[i].nal.length + ((units[i + 1]?).map StreamUnit.zeros).getD 0)

/-- `t` is a state on the stream of `s` that stands at the start code of unit `i`, or at the end behind the last unit. -/
structure AtUnit (s : State) (units : List StreamUnit) (i : Nat) (t : State) : Prop where
  err : t.err = 0
  params : t.params = s.params
  srcPos : t.srcPos = (streamOf (units.take i)).length

/-- The state in which a `NEXT_NAL` that stands at unit `i` completes (R197). -/
def afterUnit (units : List StreamUnit) (i : Nat) (u : StreamUnit) (t : State) : State :=
  (t.moveSource (streamOf (units.take (i + 1))).length).deliver u.nal (u.zeros + 1) (decide (i + 1 = units.length)) false
    (decide (i + 1 < units.length))

section Sequence
variable {s t : State} {units : List StreamUnit} {i : Nat}

theorem AtUnit.unread (ht : AtUnit s units i t) (hbytes : s.params.srcBytes = streamOf units) :
    t.unread = streamOf (units.drop i) := by
  rw [State.unread, ht.params, ht.srcPos, hbytes]
  conv => lhs; rw [← List.take_append_drop i units, streamOf_append]
  simp only [List.take_append_drop, List.drop_left]

/-- The last unit is ended by the end of the source, every other one by the start code of the next. -/
theorem exec_nextNal_atUnit (h : NalStream s units) (ht : AtUnit s units i t) (hi : i < units.length) :
    exec .nextNal t = .next (afterUnit units i units[i] t) := by
  obtain ⟨hm, hne, hclean⟩ := h.wellFormed units[i] (List.getElem_mem hi)
  have hunread := ht.unread h.bytes
  have hroom := h.room i hi
  rw [List.drop_eq_getElem_cons hi, streamOf_cons] at hunread
  rw [afterUnit, length_streamOf_take_succ hi, ← ht.srcPos]
  by_cases hlast : i + 1 = units.length
  · rw [List.drop_eq_nil_of_le hlast.ge, streamOf, List.append_nil] at hunread
    rw [List.getElem?_eq_none hlast.ge] at hroom
    rw [exec_nextNal_final (junk := []) ht.err hm hunread (by decide) hclean (by rw [fits, ht.params]; exact hroom),
      decide_eq_true hlast, decide_eq_false hlast.not_lt]
    rfl
  · have hnext : i + 1 < units.length := by omega
    have hinner : units[i].nal.getLast? ≠ some 0x00 := by
      exact h.inner _ (List.mem_iff_getElem.2 ⟨i, by rw [List.length_dropLast]; omega, List.getElem_dropLast _⟩)
    have hwindow : windowAllows s (units[i + 1].zeros + 1) := by
      exact h.window _ (List.mem_iff_getElem.2 ⟨i, by rw [List.length_tail]; omega, List.getElem_tail _⟩)
    have hz := (h.wellFormed units[i + 1] (List.getElem_mem hnext)).1
    rw [List.drop_eq_getElem_cons hnext, streamOf_cons] at hunread
    rw [List.getElem?_eq_getElem hnext] at hroom
    rw [exec_nextNal_terminated (junk := []) ht.err hm hz hunread (by decide) ⟨hclean, hinner⟩ hne
        (by rw [windowAllows, ht.params]; exact hwindow) (by rw [fits, ht.params]; exact hroom),
      decide_eq_false hlast, decide_eq_true hnext]
    rfl

theorem issue_replicate_succ {c : Instr} {k : Nat} {u : State} (h : issue (List.replicate k c) s = .next t)
    (hexec : exec c t = .next u) : issue (List.replicate (k + 1) c) s = .next u := by
  rw [List.replicate_succ', issue_append_of_next _ h, issue_cons_of_next _ hexec, issue]

/-- `i` commands from the start of the stream stand at unit `i`. -/
theorem issue_nextNal_atUnit (hs : s.err = 0) (hpos : s.srcPos = 0) (h : NalStream s units) (hi : i ≤ units.length) :
    ∃ t, issue (List.replicate i .nextNal) s = .next t ∧ AtUnit s units i t := by
  induction i with
  | zero => exact ⟨s, rfl, hs, rfl, hpos⟩
  | succ i ih =>
    obtain ⟨t, hissue, ht⟩ := ih (by omega)
    exact ⟨_, issue_replicate_succ hissue (exec_nextNal_atUnit h ht hi), ht.err, ht.params, rfl⟩

end Sequence

/-- Settles O59: `i` commands stand at unit `i`, and the next one delivers it, or nothing behind the last. -/
theorem sequenceLaw : Obligations.SequenceLaw := by
  intro s units hs hpos hbytes _ hwf hinner hwindow hroom
  have h : NalStream s units := ⟨hbytes, hwf, hinner, hwindow, hroom⟩
  refine ⟨fun i hi => ?_, ?_⟩
  · obtain ⟨t, hissue, ht⟩ := issue_nextNal_atUnit hs hpos h hi.le
    obtain ⟨h0, payload, hnal⟩ := List.exists_cons_of_ne_nil (hwf units[i] (List.getElem_mem hi)).2.1
    have htype : (nalTypeOf units[i].nal).toNat = h0.toNat / 2 % 64 := by rw [hnal, nalTypeOf_cons_toNat]
    exact ⟨afterUnit units i units[i] t, h0, issue_replicate_succ hissue (exec_nextNal_atUnit h ht hi),
      by rw [hnal, List.head?_cons], by rw [← htype]; rfl, ht.err, rfl, htype, rfl, deliver_resync .., deliver_termSc ..,
      deliver_eos .., rfl⟩
  · obtain ⟨t, hissue, ht⟩ := issue_nextNal_atUnit hs hpos h le_rfl
    have hunread : t.unread = [] := by rw [ht.unread hbytes, List.drop_length]; rfl
    have hexec := exec_nextNal_nothing ht.err (by rw [hunread]; decide)
    rw [hunread] at hexec
    exact ⟨_, issue_replicate_succ hissue hexec, rfl, ht.err, rfl, rfl, rfl, rfl, rfl,
      by rw [hbytes]; simpa using ht.srcPos⟩

end Sys2Proof.Machine

/-! Proofs about the system and buffer commands: `RESET`, `XB_CLR`, `XB_PUSH`, `BUF_LEN` and `BUF_RD` (R210 to R216). -/

namespace Sys2Proof.Machine

/-! ### Reset -/

/-- The block after `RESET` is the block at power-on; the Byte Source, the host's words and the last completion stay (R211,
R262). -/
theorem resetBlock_eq_launch (s : State) :
    s.resetBlock = { State.launch s.params with srcPos := s.srcPos, commands := s.commands, completion := s.completion } :=
  rfl

/-- Settles O18: `RESET` is never refused, and its state is the block at power-on with the completion `OK(0)`. -/
theorem resetCompletes : Obligations.ResetCompletes := by
  intro s
  show execReset s = _
  rw [execReset, resetBlock_eq_launch]
  rfl

/-! ### The exchange buffer -/

/-- `XB_CLR` empties `B_X` (R213). -/
theorem exec_xbClr {s : State} (hs : s.err = 0) : exec .xbClr s = .next (s.setBX []).finish := runCommand_ok hs

/-- `XB_PUSH` on a full `B_X` (R214). -/
theorem exec_xbPush_of_not_fits {s : State} {b : Byte} (hs : s.err = 0) (hfull : ¬ fits s (s.bX.length + 1)) :
    exec (.xbPush b) s = .next (takeFault .capacityExceeded s) := by
  show execXbPush b s = _
  rw [execXbPush, if_neg fun h => hfull (withinLimit_iff.1 h), runCommand_error hs]

/-- Settles O20: the clear, and the push with and without room. -/
theorem exchangeBufferCommands : Obligations.ExchangeBufferCommands := fun _ _ hs =>
  ⟨exec_xbClr hs, exec_xbPush_of_fits hs, exec_xbPush_of_not_fits hs⟩

/-! ### Reading a buffer -/

/-- `BUF_LEN` returns the buffer's length (R215). -/
theorem exec_bufLen {s : State} {src : BufId} (hs : s.err = 0) :
    exec (.bufLen src) s = .next (s.returnValue (s.buf src).length) := runCommand_ok hs

/-- `BUF_RD` returns the byte at an index inside the buffer (R216). -/
theorem exec_bufRd_of_lt {s : State} {src : BufId} {index : BitVec 32} (hs : s.err = 0)
    (hindex : index.toNat < (s.buf src).length) :
    exec (.bufRd src index) s = .next (s.returnValue (s.buf src)[index.toNat].toNat) := by
  show execBufRd src index s = _
  rw [execBufRd, List.getElem?_eq_getElem hindex, runCommand_ok hs]

/-- Settles O21: the length, a byte inside the buffer, and an index beyond it, where `BUF_RD` is illegal in the state. -/
theorem bufferReads : Obligations.BufferReads := fun _ _ _ hs =>
  ⟨exec_bufLen hs, exec_bufRd_of_lt hs, fun hindex => exec_of_illegalHere hs hindex⟩

end Sys2Proof.Machine

/-! Proofs about exceptions: what a Faulted block does with a command, which faults a command raises and when, and what a step
that takes one leaves behind (R231 to R237). -/

namespace Sys2Proof.Machine

/-! ### The idle block -/

/-- Settles O6: with an empty list there is no word to fetch, and the block idles. -/
theorem idleStepKeepsState : Obligations.IdleStepKeepsState := by
  intro s hcommands
  rw [step, fetchCommand_nil hcommands]
  rfl

/-! ### The Faulted block -/

/-- R234: `RD_REG` of a Faulted block returns the value in the completion only. -/
theorem exec_rdReg_of_faulted {s : State} (hs : s.err ≠ 0) (r : RegId) :
    exec (.rdReg r) s = .next (s.complete (.ok (s.reg r))) := by
  show execRdReg r s = _
  rw [execRdReg, isFaulted_of_ne hs, if_pos rfl]

/-- R234: a Faulted block refuses every command but `RESET` and `RD_REG`. -/
theorem exec_of_faulted {i : Instr} {s : State} (hs : s.err ≠ 0) (hreset : i ≠ .reset) (hread : ∀ r, i ≠ .rdReg r) :
    exec i s = .next s.refuse := by
  cases i with
  | reset => exact absurd rfl hreset
  | rdReg r => exact absurd rfl (hread r)
  | nextNal =>
    show execNextNal s = _
    rw [execNextNal, isFaulted_of_ne hs, if_pos rfl]
  | xbClr | bufLen | bcLoad | getByteOff | getBitOff => exact runCommand_faulted (body := .ok _) hs
  | xbPush | bufRd | toRbsp | toBs | lpWrap | readBits | readUe | readSe | writeBits | writeUe | writeSe | writeTrail =>
    exact runCommand_faulted hs

/-- R234: a Faulted block refuses every word but those of `RESET` and `RD_REG`, legal or illegal. -/
theorem step_of_faulted {s : State} {w : Word} {rest : List Word} (hs : s.err ≠ 0) (hcommands : s.commands = w :: rest)
    (hreset : w ≠ encode .reset) (hread : ∀ r, w ≠ encode (.rdReg r)) :
    step s = .next { s with commands := rest }.refuse := by
  have hfetch := fetchCommand_cons hcommands
  cases hdecode : decode w with
  | illegal why =>
    simp only [step, hfetch, hdecode]
    exact runCommand_faulted (s := { s with commands := rest }) hs
  | legal i =>
    obtain ⟨_, rfl⟩ := encodeInvertsDecode w i hdecode
    rw [step_eq_exec_of_legal hfetch hdecode]
    exact exec_of_faulted (s := { s with commands := rest }) hs (fun h => hreset (h ▸ rfl)) fun r h => hread r (h ▸ rfl)

/-- A step on a command's own word is the command. -/
theorem step_of_encode {s : State} {i : Instr} {rest : List Word} (hi : wellFormed i = true)
    (hcommands : s.commands = encode i :: rest) : step s = exec i { s with commands := rest } :=
  step_eq_exec_of_legal (fetchCommand_cons hcommands) (decodeInvertsEncode i hi)

/-- The word of `RESET` (R211). -/
theorem encode_reset : encode .reset = 0x010000000000 := by decide

/-- Settles O11: the word is `RESET`'s, an `RD_REG`'s, or refused; only `RESET` writes `ERR`. -/
theorem faultedBlockRefuses : Obligations.FaultedBlockRefuses := by
  refine ⟨isFaulted_iff, fun s w rest hs hcommands => ?_⟩
  rw [← encode_reset]
  have hreset : w = encode .reset → step s = .next { State.launch s.params with
      srcPos := s.srcPos, commands := rest, completion := some (.ok 0) } := by
    rintro rfl
    exact (step_of_encode rfl hcommands).trans (resetCompletes _)
  have hread : ∀ r, w = encode (.rdReg r) →
      step s = .next { s with commands := rest, completion := some (.ok (s.reg r)) } := by
    rintro r rfl
    exact (step_of_encode rfl hcommands).trans (exec_rdReg_of_faulted (s := { s with commands := rest }) hs r)
  have hrefuse := step_of_faulted hs hcommands
  refine ⟨hreset, hread, hrefuse, fun t ht => or_iff_not_imp_right.2 fun hne => ?_⟩
  by_cases hword : ∃ r, w = encode (.rdReg r)
  · obtain ⟨r, hr⟩ := hword
    cases (hread r hr).symm.trans ht
    rfl
  · cases (hrefuse hne (not_exists.1 hword)).symm.trans ht
    rfl

/-! ### Which fault a command raises -/

/-- R236, R188: the limit that a fault of the kind exceeds, where there is one, is finite. -/
def LimitIsFinite (s : State) : FaultKind → Prop
  | .capacityExceeded => s.params.bufCap ≠ none
  | .rewindUnderflow => s.params.rewindWindow ≠ none
  | .bufferUnderrun | .malformedSyntax | .illegalCommand => True

/-- A pseudocode that completes with `OK` or raises one of the faults `ks`, a limit exceeded being finite. -/
def RaisesOnly (ks : List FaultKind) (s : State) : Except FaultKind State → Prop
  | .ok u => ∃ v, u.completion = some (.ok v)
  | .error k => k ∈ ks ∧ LimitIsFinite s k

theorem RaisesOnly.mono {ks ks' : List FaultKind} {s : State} {body : Except FaultKind State} (h : RaisesOnly ks s body)
    (hks : ks ⊆ ks') : RaisesOnly ks' s body := by
  cases body with
  | ok u => exact h
  | error k => exact ⟨hks h.1, h.2⟩

/-- The fault that a command of `runCommand` completes with is one its pseudocode raises. -/
theorem RaisesOnly.of_runCommand {ks : List FaultKind} {s t : State} {body : Except FaultKind State} {k : FaultKind}
    (h : RaisesOnly ks s body) (hrun : runCommand s body = .next t) (hk : t.completion = some (.fault k)) :
    k ∈ ks ∧ LimitIsFinite s k := by
  rcases runCommand_cases hrun with ⟨_, rfl⟩ | ⟨_, rfl⟩ | ⟨k', _, rfl, rfl⟩
  · cases hk
  · obtain ⟨v, hv⟩ := h
    cases hv.symm.trans hk
  · cases hk
    exact h

theorem ne_none_of_not_withinLimit {cap : Option Nat} {n : Nat} (h : ¬ withinLimit cap n = true) : cap ≠ none := by
  rintro rfl
  exact h (withinLimit_none n)

theorem raisesOnly_writeBBs (s : State) (out : Buffer) : RaisesOnly [.capacityExceeded] s (writeBBs s out) := by
  unfold writeBBs
  split
  · exact ⟨0, rfl⟩
  · rename_i hfull
    exact ⟨.head _, ne_none_of_not_withinLimit hfull⟩

/-- With an infinite `BUF_CAP` every bit is appended (R236). -/
theorem appendBits_unlimited (c : WriteCursor) (bits : List Bool) : ∃ d, appendBits none c bits = .ok d := by
  induction bits generalizing c with
  | nil => exact ⟨c, rfl⟩
  | cons b bits ih =>
    simp only [appendBits, appendBit, withinLimit_none, Bool.not_true, Bool.and_false, Bool.false_eq_true, if_false]
    exact ih _

theorem raisesOnly_writeAtCursor (s : State) (bits : List Bool) :
    RaisesOnly [.capacityExceeded] s (writeAtCursor s bits) := by
  unfold writeAtCursor
  split
  · exact ⟨0, rfl⟩
  · rename_i k hk
    cases appendBits_error hk
    refine ⟨.head _, fun hcap => ?_⟩
    obtain ⟨d, hd⟩ := appendBits_unlimited { buf := s.bCur, pos := s.bcPos } bits
    rw [hcap, hd] at hk
    cases hk

/-- The faults of the scan for the leading zeros of a code word (R123). -/
theorem scanPrefix_error {buf : Buffer} {pos left lz : Nat} {k : FaultKind} (h : scanPrefix buf pos left lz = .error k) :
    k = .bufferUnderrun ∨ k = .malformedSyntax := by
  induction left generalizing lz with
  | zero => cases h; exact .inr rfl
  | succ left ih =>
    unfold scanPrefix at h
    split at h
    · split at h
      · cases h
      · exact ih h
    · cases h
      exact .inl rfl

/-- The faults of reading a code word (R123, R124). -/
theorem readUeAt_error {buf : Buffer} {pos : Nat} {k : FaultKind} (h : readUeAt buf pos = .error k) :
    k = .bufferUnderrun ∨ k = .malformedSyntax := by
  unfold readUeAt at h
  split at h
  · rename_i hscan
    cases h
    exact scanPrefix_error hscan
  · split at h <;> cases h
    exact .inl rfl

/-- The faults of `READ_UE` and `READ_SE`. -/
theorem readCodeWord_raises {value : Nat → Nat} {s t : State} {k : FaultKind} (h : readCodeWord value s = .next t)
    (hk : t.completion = some (.fault k)) : k ∈ mayRaise .readUe ∧ LimitIsFinite s k := by
  refine RaisesOnly.of_runCommand ?_ h hk
  split
  · split
    · exact ⟨_, rfl⟩
    · rename_i f hf
      rcases readUeAt_error hf with rfl | rfl <;> exact ⟨by simp [mayRaise], trivial⟩
  · exact ⟨by simp [mayRaise], trivial⟩

/-- `TO_RBSP` without a header (R161). -/
theorem toRbspBytes_error_kind {tz : Config.ThirdZero} {data : Buffer} {k : FaultKind}
    (h : toRbspBytes tz data = .error k) : k = .bufferUnderrun := by
  unfold toRbspBytes at h
  split at h <;> cases h
  rfl

/-- `TO_BS` without a header (R165). -/
theorem toBsBytes_error_kind {sc : ScForm} {data : Buffer} {k : FaultKind} (h : toBsBytes sc data = .error k) :
    k = .bufferUnderrun := by
  unfold toBsBytes at h
  split at h <;> cases h
  rfl

/-! ### The faults of `NEXT_NAL` -/

/-- R188, R236: phase B faults on a rewind beyond a finite window or on a byte beyond a finite capacity. The zeros counted have
been read, so a rewind never goes beyond the start of the stream. -/
theorem accumulate_faulted {p : Config.Params} {bound pos zeros q : Nat} {nal : Buffer} {k : FaultKind}
    (hzeros : zeros ≤ pos) (h : accumulate p bound pos nal zeros = .faulted q k) :
    k = .rewindUnderflow ∧ p.rewindWindow ≠ none ∨ k = .capacityExceeded ∧ p.bufCap ≠ none := by
  induction bound generalizing pos zeros nal with
  | zero => cases h
  | succ bound ih =>
    rcases Nat.lt_or_ge pos p.srcBytes.length with hlt | hge
    · rw [accumulate_byte (List.getElem?_eq_getElem hlt)] at h
      split at h
      · split at h
        · cases h
        · rename_i hrewind
          cases h
          rcases srcRewind_eq_none.1 hrewind with hwindow | hstart
          · exact .inl ⟨rfl, ne_none_of_not_withinLimit (Bool.eq_false_iff.1 hwindow)⟩
          · omega
      · split at h
        · exact ih (by split <;> omega) h
        · rename_i hfull
          cases h
          exact .inr ⟨rfl, ne_none_of_not_withinLimit hfull⟩
    · rw [accumulate_at_end hge] at h
      cases h

theorem nalRounds_faulted {p : Config.Params} {bound pos q : Nat} {r : Bool} {k : FaultKind}
    (h : nalRounds p bound pos r = .faulted q k) :
    k = .rewindUnderflow ∧ p.rewindWindow ≠ none ∨ k = .capacityExceeded ∧ p.bufCap ≠ none := by
  induction bound generalizing pos r with
  | zero => cases h
  | succ bound ih =>
    rw [nalRounds] at h
    split at h
    · cases h
    · cases h
    · split at h
      · cases h
      · rename_i hB
        cases h
        exact accumulate_faulted (Nat.zero_le _) hB
      · cases h
      · split at h
        · exact ih h
        · cases h

/-- A scan that faults has read a byte (R195). -/
theorem scanNal_faulted_lt {p : Config.Params} {pos q : Nat} {k : FaultKind} (h : scanNal p pos = .faulted q k) : pos < q := by
  rcases nalRounds_spec (p := p) (bound := scanBound p pos) (pos := pos) (r := false) (Nat.lt_succ_self _) with
    ⟨_, _, hscan, _⟩ | ⟨_, _, _, _, _, hscan, _⟩ | ⟨_, _, hscan, hlt, _⟩ <;> cases hscan.symm.trans h
  exact hlt

/-- A `NEXT_NAL` that completes with a fault takes the fault of its scan, the Byte Source standing where the scan left it. -/
theorem execNextNal_fault {s t : State} {k : FaultKind} (h : execNextNal s = .next t)
    (hk : t.completion = some (.fault k)) :
    ∃ q, scanNal s.params s.srcPos = .faulted q k ∧ t = takeFault k (s.moveSource q) := by
  unfold execNextNal at h
  split at h
  · cases h
    cases hk
  · split at h <;> cases h
    · rename_i q k' hscan
      cases hk
      exact ⟨q, hscan, rfl⟩
    · cases hk
    · cases hk

/-! ### The faults of every command -/

/-- R235, R236, R188: a fault is one of the command's row, and a limit exceeded is finite. -/
theorem exec_raises {i : Instr} {s t : State} {k : FaultKind} (h : exec i s = .next t)
    (hk : t.completion = some (.fault k)) : k ∈ mayRaise i ∧ LimitIsFinite s k := by
  cases i with
  | reset => cases h; cases hk
  | rdReg r =>
    simp only [exec, execRdReg] at h
    split at h <;> cases h <;> cases hk
  | xbClr | bufLen | bcLoad | getByteOff | getBitOff => exact RaisesOnly.of_runCommand (body := .ok _) ⟨_, rfl⟩ h hk
  | xbPush b =>
    refine RaisesOnly.of_runCommand ?_ h hk
    split
    · exact ⟨0, rfl⟩
    · rename_i hfull
      exact ⟨.head _, ne_none_of_not_withinLimit hfull⟩
  | bufRd src index =>
    refine RaisesOnly.of_runCommand ?_ h hk
    split
    · exact ⟨_, rfl⟩
    · exact ⟨.head _, trivial⟩
  | nextNal =>
    obtain ⟨q, hscan, _⟩ := execNextNal_fault h hk
    rcases nalRounds_faulted hscan with ⟨rfl, hfinite⟩ | ⟨rfl, hfinite⟩ <;> exact ⟨by simp [mayRaise], hfinite⟩
  | toRbsp src hasSc =>
    refine RaisesOnly.of_runCommand ?_ h hk
    split
    · exact ⟨by simp [mayRaise], trivial⟩
    · split
      · exact ⟨0, rfl⟩
      · rename_i f hf
        cases toRbspBytes_error_kind hf
        exact ⟨.head _, trivial⟩
  | toBs src sc =>
    refine RaisesOnly.of_runCommand ?_ h hk
    split
    · exact (raisesOnly_writeBBs s _).mono (by simp [mayRaise])
    · rename_i f hf
      cases toBsBytes_error_kind hf
      exact ⟨.head _, trivial⟩
  | lpWrap src =>
    refine RaisesOnly.of_runCommand ?_ h hk
    split
    · exact (raisesOnly_writeBBs s _).mono (by simp [mayRaise])
    · exact ⟨.head _, trivial⟩
  | readBits n =>
    refine RaisesOnly.of_runCommand ?_ h hk
    split
    · split
      · exact ⟨_, rfl⟩
      · exact ⟨.head _, trivial⟩
    · exact ⟨by simp [mayRaise], trivial⟩
  | readUe | readSe => exact readCodeWord_raises h hk
  | writeBits | writeTrail =>
    refine RaisesOnly.of_runCommand ?_ h hk
    split
    · exact (raisesOnly_writeAtCursor s _).mono (by simp [mayRaise])
    · exact ⟨.head _, trivial⟩
  | writeUe | writeSe =>
    refine RaisesOnly.of_runCommand ?_ h hk
    split
    · split
      · exact (raisesOnly_writeAtCursor s _).mono (by simp [mayRaise])
      · exact ⟨.head _, trivial⟩
    · exact ⟨by simp [mayRaise], trivial⟩

/-- Settles O16: the row of the command, and the limit behind each of the two faults of a limit. -/
theorem commandsRaiseOnlyTheirFaults : Obligations.CommandsRaiseOnlyTheirFaults := by
  intro i s t k _ h hk
  obtain ⟨hrow, hfinite⟩ := exec_raises h hk
  refine ⟨hrow, ?_, ?_⟩ <;> rintro rfl <;> exact hfinite

/-! ### How a command completes -/

/-- A command that completes hands over `OK`, with 0 when it returns no value (R231). -/
theorem ok_of_completes {i : Instr} {s t : State} (h : Completes s t i) :
    ∃ v, t.completion = some (.ok v) ∧ (returnsValue i = false → v = 0) := by
  cases hvalue : returnsValue i with
  | true => exact ⟨t.res, completion_of_completes hvalue h, nofun⟩
  | false =>
    refine ⟨0, ?_, fun _ => rfl⟩
    cases i with
    | rdReg | bufLen | bufRd | nextNal | readBits | readUe | readSe | getByteOff | getBitOff => cases hvalue
    | reset | bcLoad => subst h; rfl
    | xbClr | xbPush | toBs | lpWrap => obtain ⟨data, _, rfl⟩ := h; rfl
    | toRbsp => obtain ⟨data, n, _, rfl⟩ := h; rfl
    | writeBits | writeUe | writeSe | writeTrail => obtain ⟨bits, c, _, _, rfl⟩ := h; rfl

/-- The endings of a command by the completion it hands over (R231): refused or `RD_REG` in a Faulted block (R234), a fault
(R233), or `OK`. -/
inductive Answer (i : Instr) (s : State) : State → Prop
  | refused (hs : s.err ≠ 0) (hreset : i ≠ .reset) (hread : ∀ r, i ≠ .rdReg r) : Answer i s s.refuse
  | readFaulted (hs : s.err ≠ 0) (r : RegId) (hi : i = .rdReg r) : Answer i s (s.complete (.ok (s.reg r)))
  | faulted (k : FaultKind) (pos : Nat) (hs : s.err = 0) (hsrc : i ≠ .nextNal → pos = s.srcPos) :
      Answer i s (takeFault k (s.moveSource pos))
  | completed {t : State} (hs : i ≠ .reset → s.err = 0) (h : Completes s t i) : Answer i s t

/-- Every command that answers a next state hands over its completion in one of these ways. -/
theorem exec_answer {i : Instr} {s t : State} (h : exec i s = .next t) : Answer i s t := by
  cases exec_ending h with
  | keptFaulted c hi hs =>
    by_cases hread : ∃ r, i = .rdReg r
    · obtain ⟨r, rfl⟩ := hread
      rw [← Host.Outcome.next.inj ((exec_rdReg_of_faulted hs r).symm.trans h)]
      exact .readFaulted hs r rfl
    · have hread : ∀ r, i ≠ .rdReg r := not_exists.1 hread
      rw [← Host.Outcome.next.inj ((exec_of_faulted hs hi hread).symm.trans h)]
      exact .refused hs hi hread
  | faulted k pos _ hs hsrc => exact .faulted k pos hs hsrc
  | completed hs hc => exact .completed hs hc

/-- Settles O13: the completion of each answer. -/
theorem everyCommandCompletes : Obligations.EveryCommandCompletes := by
  intro i s
  obtain ⟨t, h⟩ := exec_next i s
  cases exec_answer h with
  | refused hs hreset hread =>
    exact ⟨_, .refused, h, rfl, iff_of_true rfl ⟨hs, hreset, hread⟩, nofun, nofun⟩
  | readFaulted hs r hi =>
    refine ⟨_, _, h, rfl, iff_of_false nofun fun hc => hc.2.2 r hi, nofun, fun v _ => ?_⟩
    exact ⟨.inl rfl, fun hvalue => by simp [hi, returnsValue] at hvalue, fun _ hok => absurd hok hs⟩
  | faulted k pos hs =>
    refine ⟨_, .fault k, h, rfl, iff_of_false nofun fun hc => hc.1 hs, ?_, nofun⟩
    rintro _ ⟨⟩
    rfl
  | completed hs hc =>
    obtain ⟨v, hv, hzero⟩ := ok_of_completes hc
    refine ⟨t, .ok v, h, hv, iff_of_false nofun fun href => href.1 (hs href.2.1), nofun, ?_⟩
    rintro _ ⟨⟩
    refine ⟨or_iff_not_imp_right.2 fun hi => err_of_completes hi hc, hzero, fun hvalue _ => ?_⟩
    cases hv.symm.trans (completion_of_completes hvalue hc)
    rfl

/-! ### Taking a fault -/

/-- What a command that completes with a fault does: it takes that fault, and only for `NEXT_NAL` the Byte Source has moved,
onward (R233). -/
theorem exec_fault {i : Instr} {s t : State} {k : FaultKind} (h : exec i s = .next t)
    (hk : t.completion = some (.fault k)) :
    ∃ pos, t = takeFault k (s.moveSource pos) ∧ s.err = 0 ∧ (i ≠ .nextNal → pos = s.srcPos) ∧
      (i = .nextNal → s.srcPos < pos) := by
  cases exec_answer h with
  | refused => cases hk
  | readFaulted => cases hk
  | faulted k' pos hs hsrc =>
    cases hk
    refine ⟨pos, rfl, hs, hsrc, ?_⟩
    rintro rfl
    obtain ⟨q, hscan, ht⟩ := execNextNal_fault h rfl
    have hpos : pos = q := congrArg State.srcPos ht
    exact hpos ▸ scanNal_faulted_lt hscan
  | completed _ hc =>
    obtain ⟨v, hv, _⟩ := ok_of_completes hc
    cases hv.symm.trans hk

/-- What a step that completes with a fault does (R233): an illegal word takes `IllegalCommand`, a legal one the fault of its
command. -/
theorem step_fault {s t : State} {w : Word} {rest : List Word} {k : FaultKind} (hcommands : s.commands = w :: rest)
    (h : step s = .next t) (hk : t.completion = some (.fault k)) :
    ∃ pos, t = takeFault k ({ s with commands := rest }.moveSource pos) ∧ s.err = 0 ∧
      (decode w ≠ .legal .nextNal → pos = s.srcPos) ∧ (decode w = .legal .nextNal → s.srcPos < pos) := by
  have hfetch := fetchCommand_cons hcommands
  cases hdecode : decode w with
  | illegal why =>
    simp only [step, hfetch, hdecode] at h
    rcases runCommand_cases h with ⟨_, rfl⟩ | ⟨_, hok⟩ | ⟨k', hs, _, rfl⟩
    · cases hk
    · cases hok
    · cases hk
      exact ⟨s.srcPos, rfl, hs, fun _ => rfl, nofun⟩
  | legal i =>
    rw [step_eq_exec_of_legal hfetch hdecode] at h
    simpa using exec_fault h hk

/-- Settles O12: the state in which the step takes its fault, field by field. -/
theorem faultChangesOnlyErr : Obligations.FaultChangesOnlyErr := by
  intro s t w rest k hcommands h hk
  obtain ⟨pos, rfl, hs, hkept, hmoved⟩ := step_fault hcommands h hk
  exact ⟨by cases k <;> rfl, hs, isFaulted_of_ne (takeFault_err_ne_zero k _), hkept, hmoved⟩

/-! ### A NAL unit that outgrows the capacity -/

/-- When bytes without a start code have been read, none is behind the zeros they leave counted. -/
theorem no_startCode_behind {z : Nat} {front rest : Buffer} (h : ¬ startCode <:+: zeroRun z ++ (front ++ rest)) :
    ¬ startCode <:+: zeroRun (zerosAfter z front) ++ rest := by
  induction front generalizing z with
  | nil => exact h
  | cons b front ih => exact ih (no_startCode_of_cons h).2

/-- R236: phase B over bytes without a start code, one more than `BUF_CAP` has room for. -/
theorem accumulate_eq_overflow {p : Config.Params} {pos cap : Nat} {body rest : Buffer} (hcap : p.bufCap = some cap)
    (hdrop : p.srcBytes.drop pos = body ++ rest) (hbody : ¬ startCode <:+: body) (hlen : body.length = cap + 1) :
    accumulate p (scanBound p pos) pos [] 0 = .faulted (pos + (cap + 1)) .capacityExceeded := by
  obtain ⟨front, b, rfl⟩ := List.eq_nil_or_concat' body |>.resolve_left (List.ne_nil_of_length_eq_add_one hlen)
  have hfront : front.length = cap := by simpa using hlen
  rw [List.append_assoc, List.singleton_append] at hdrop
  have hlast := drop_of_append hdrop
  have hclean : ¬ startCode <:+: front := fun h => hbody (h.trans (List.prefix_append _ _).isInfix)
  obtain ⟨hb, _⟩ := no_startCode_of_cons (no_startCode_behind (z := 0) (front := front) (rest := [b]) hbody)
  rw [accumulate_over (zeros := 0) hdrop hclean (by simp [hcap, hfront]), scanBound_of_cons hlast,
    accumulate_byte (getElem?_of_drop hlast), if_neg hb, if_neg (by simp [hcap, hfront]), hfront, Nat.add_assoc]

/-- Settles O57: phase A consumes the start code, and phase B meets the byte that is one too many. -/
theorem nextNalCapacityExceeded : Obligations.NextNalCapacityExceeded := by
  intro s junk body rest m cap hs hm hcap hunread hjunk hbody hlen
  have hbytes : s.unread = junk ++ (zeroRun m ++ 0x01 :: (body ++ rest)) := by rw [hunread]; simp
  have hA := findStartCode_eq_found (r := false) hm hbytes hjunk
  have hB := accumulate_eq_overflow hcap (drop_behind_startCode hbytes) hbody hlen
  rw [exec_nextNal_of_faulted hs (scanNal_of_faulted hA hB)]
  rfl

end Sys2Proof.Machine
